-- ==== Sys2Proof/Word.lean ====
section
/-! DEFINITION. The two word types of the block (00_scope.md R8): `u8` and the bit pattern of an `f32`, and the RGB
triple of the frame port (30_encoding.md R98). -/

namespace Sys2Proof

/-- `u8` of 00_scope.md R8: an entry of LUT or O, a byte of a channel or of a transfer. -/
abbrev Byte := BitVec 8

/-- `f32` of 00_scope.md R8, as its IEEE 754 binary32 bit pattern (10_state.md R24: one field, bits 31:0). -/
abbrev F32 := BitVec 32

/-- One (r, g, b) triple of u8 of a frame (30_encoding.md R98). -/
abbrev Pixel := Byte × Byte × Byte

end Sys2Proof
end

