-- ==== Sys2Proof/Config.lean ====
section
/-! DEFINITION. What an implementation fixes (the parameters of 00_scope.md R5), what the environment chooses (the oracles
of R6, the host inputs, the order of the agents), and the free values. -/

namespace Sys2Proof

/-- BUS_ORDER of 00_scope.md R5: when the transfer happens relative to the Color State lock. -/
inductive BusOrder where
  /-- The lock is held through the transfer and its latch (42_bus_writer.md R188). -/
  | inLock
  /-- The lock is released after the snapshot; BUS_LOCK serializes the transfers (R189). -/
  | snapshot
deriving DecidableEq, Repr

/-- The implementation parameters of 00_scope.md R5. Times are natural numbers of one unspecified unit (log 5); `none`
stands for ∞ in MAX_CHANNELS and LINE_MAX. -/
structure Params where
  /-- N, the number of LED slots. -/
  n : Nat
  gammaInit : F32
  brightInit : F32
  alphaInit : F32
  tLatch : Nat
  tFrame : Nat
  spiMode : Nat
  spiWordBits : Nat
  /-- SPI_CLOCK_HZ. DESIGN CHOICE (log 26): whole Hz, a natural number. R5 and 42_bus_writer.md R191 say only `> 0` and name no
  number type, so a fractional rate cannot be expressed. -/
  spiClockHz : Nat
  spiLsbFirst : Bool
  maxChannels : Option Nat
  lineMax : Option Nat
  busOrder : BusOrder
deriving DecidableEq, Repr

/-- DEV_OPEN's answer (00_scope.md R6). -/
inductive DevOpen where
  | ok | fail
deriving DecidableEq, Repr

/-- DEV_XFER's answer (00_scope.md R6): `done k` bytes transferred, or an I/O error. -/
inductive XferResult where
  | done (k : Nat)
  | ioerror
deriving DecidableEq, Repr

/-- One choice of the environment: which agent moves next (00_scope.md R7, 60_exceptions.md R288) with the answer of the
oracle it may consult (R6), a host input (43_commands.md R211, R212; 70_reset_and_hazards.md R320, R324), or elapsed time
(42_bus_writer.md R185). Log 2. -/
inductive Action where
  /-- SYS steps; `r` is DEV_OPEN's answer if the step is the boot. -/
  | sys (r : DevOpen)
  /-- BUS steps; `res` is DEV_XFER's answer if the step is a transfer. -/
  | bus (res : XferResult)
  /-- CH[k] steps, and a command it takes up begins its section at once if the lock is free. -/
  | ch (k : Nat)
  /-- CH[k] takes its next line and leaves a decoded command waiting for the lock. -/
  | chStart (k : Nat)
  /-- FS steps; `px` is UPSTREAM's answer if the step is a request. -/
  | fs (px : List Pixel)
  /-- FS makes its request, is answered `px`, and leaves FRAME waiting for the lock. -/
  | fsStart (px : List Pixel)
  /-- `OPEN_CH(k)`. -/
  | openCh (k : Nat)
  /-- `CLOSE_CH(k)`. -/
  | closeCh (k : Nat)
  /-- `RECV(k, bytes)`. -/
  | recv (k : Nat) (bytes : List Byte)
  /-- `SHUTDOWN_REQ`. -/
  | shutdownReq
  /-- The reset input. -/
  | reset
  /-- `d` time units elapse. -/
  | tick (d : Nat)
deriving DecidableEq, Repr, Inhabited

/-- DESIGN CHOICE (log 4, unsafe): the one configuration State.reset stands for, the source's own end-to-end scenario
(95_test_vectors.md W11: strip size 3, gamma 1, brightness 1, alpha 1) with BUS_ORDER and SPI_LSB_FIRST at the values R5
gives 8-bit words (the one word size with a
wire-level meaning, 93 I10), the smallest legal value of every other parameter, and ∞ for the two bounds. Statements quantify over `Params`. -/
def Config.params : Params where
  n := 3
  gammaInit := 0x3F800000#32
  brightInit := 0x3F800000#32
  alphaInit := 0x3F800000#32
  tLatch := 1
  tFrame := 0
  spiMode := 0
  spiWordBits := 8
  spiClockHz := 1
  spiLsbFirst := false
  maxChannels := none
  lineMax := none
  busOrder := .inLock

/-- FREE VALUE (log 2): the environment's choices once `script` is used up, one for each draw. Nothing is known of it, so
what is proved of a run holds for every order of the agents, every host and every answer of the oracles. -/
opaque Config.freeAction : Nat → Action

/-- FREE VALUE (log 14): the bits IEEE 754 leaves open in the NaN an invalid operation on the two operands gives. No
run meets one (41_color_state.md R154). -/
opaque Config.nanBits : F32 → F32 → F32

end Sys2Proof
end

