-- ==== Sys2Proof/Machine/Binary32.lean ====
section
/-! DEFINITION. Binary32 arithmetic (00_scope.md R8-R10): fields, exact value, rounding to nearest with ties to even, and
fadd, fsub, fmul, each rounding its exact result once. Every finite binary32 value is an integer number of units of
2^-149, so exact values are integers and rationals are a numerator and a denominator. -/

namespace Sys2Proof.Machine

/-- The sign bit, bit 31. -/
def f32Sign (x : F32) : Bool := Nat.ble (2 ^ 31) x.toNat

/-- The exponent field, bits 30:23. -/
def f32Exp (x : F32) : Nat := x.toNat / 2 ^ 23 % 256

/-- The fraction field, bits 22:0. -/
def f32Frac (x : F32) : Nat := x.toNat % 2 ^ 23

/-- Neither an infinity nor a NaN. -/
def f32Finite (x : F32) : Bool := !(f32Exp x == 255)

/-- A NaN: exponent all ones, fraction not zero. -/
def f32IsNan (x : F32) : Bool := f32Exp x == 255 && !(f32Frac x == 0)

/-- The magnitude of a finite x, in units of 2^-149. -/
def f32Mag (x : F32) : Nat :=
  bif f32Exp x == 0 then f32Frac x else (2 ^ 23 + f32Frac x) * 2 ^ (f32Exp x - 1)

/-- `real(x)` of a finite x (00_scope.md R9), in units of 2^-149. -/
def f32Units (x : F32) : Int := bif f32Sign x then -(f32Mag x : Int) else (f32Mag x : Int)

/-- +0.0 -/
def f32Zero : F32 := 0#32
/-- -0.0 -/
def f32NegZero : F32 := 0x80000000#32
/-- 1.0 -/
def f32One : F32 := 0x3F800000#32
/-- 255.0 -/
def f32Max255 : F32 := 0x437F0000#32
/-- f32(0.01), the threshold of 41_color_state.md R145 -/
def f32Hundredth : F32 := 0x3C23D70A#32

/-- The units in one: 2^149. -/
def f32Scale : Nat := 2 ^ 149

/-- How many binary places above 2^-149 the last bit of the rounded result stands, for a magnitude of `q` whole units: the
largest s ≤ 255 with s = 0 or 2^(23+s) ≤ q. Found by halving. -/
def roundShift (q : Nat) : List Nat → Nat → Nat
  | [], s => s
  | k :: ks, s => bif Nat.ble (2 ^ (23 + (s + k))) q then roundShift q ks (s + k) else roundShift q ks s

/-- The steps of the halving search over 0..255. -/
def halvingSteps : List Nat := [128, 64, 32, 16, 8, 4, 2, 1]

/-- `a / d` rounded to the nearest integer, ties to even. -/
def divNearestEven (a d : Nat) : Nat :=
  bif Nat.blt d (2 * (a % d)) || (2 * (a % d) == d && a / d % 2 == 1) then a / d + 1 else a / d

/-- The magnitude bits (30:0) of the binary32 value nearest to num / den, ties to even (00_scope.md R10); den > 0. A
magnitude that rounds past the largest finite value gives infinity, 0x7F800000. With last place 2^(s-149) and rounded
significand m the bits are s·2^23 + m: below 2^23 units that is the subnormal m itself, and a carry out of m moves
into the exponent field. -/
def roundMag (num den : Nat) : Nat :=
  let s := roundShift (num * f32Scale / den) halvingSteps 0
  min (s * 2 ^ 23 + divNearestEven (num * f32Scale) (den * 2 ^ s)) 0x7F800000

/-- `f32(r)` of 00_scope.md R10 for r = ±num / den. -/
def f32Round (neg : Bool) (num den : Nat) : F32 :=
  BitVec.ofNat 32 ((bif neg then 2 ^ 31 else 0) + roundMag num den)

/-- `f32(v)` of an integer v (00_scope.md R10). -/
def f32OfInt (v : Int) : F32 := f32Round (decide (v < 0)) v.natAbs 1

/-- -x: the sign bit flipped. -/
def f32Neg (x : F32) : F32 := x ^^^ f32NegZero

/-- A quiet NaN whose other bits are free (log 14). -/
def f32Nan (a b : F32) : F32 := 0x7FC00000#32 ||| Config.nanBits a b

/-- `fadd(a, b)` (00_scope.md R10). An exact zero sum is +0.0 unless both operands are negative zeros. -/
def fadd (a b : F32) : F32 :=
  bif f32Finite a && f32Finite b then
    let z := f32Units a + f32Units b
    bif z == 0 then (bif f32Sign a && f32Sign b then f32NegZero else f32Zero)
    else f32Round (decide (z < 0)) z.natAbs f32Scale
  else bif f32IsNan a || f32IsNan b then f32Nan a b
  else bif f32Finite a then b
  else bif f32Finite b then a
  else bif f32Sign a == f32Sign b then a else f32Nan a b

/-- `fsub(a, b)` (00_scope.md R10). -/
def fsub (a b : F32) : F32 := fadd a (f32Neg b)

/-- `fmul(a, b)` (00_scope.md R10). -/
def fmul (a b : F32) : F32 :=
  bif f32Finite a && f32Finite b then
    f32Round (f32Sign a != f32Sign b) (f32Mag a * f32Mag b) (f32Scale * f32Scale)
  else bif f32IsNan a || f32IsNan b then f32Nan a b
  else bif f32Mag a == 0 || f32Mag b == 0 then f32Nan a b
  else BitVec.ofNat 32 ((bif f32Sign a != f32Sign b then 2 ^ 31 else 0) + 0x7F800000)

end Sys2Proof.Machine
end

