-- ==== Sys2Proof/Machine/Flags.lean ====
section
/-! DEFINITION. The block has no flags and no condition codes (10_state.md R22), so there is no flag computation. Here
stand the conditions its rules test instead: the IEEE comparisons of binary32, clamp (00_scope.md R9), the refusal
threshold of GAMMA (41_color_state.md R145) and the legal ranges of the parameters (00_scope.md R5). -/

namespace Sys2Proof.Machine

/-- IEEE `a < b`: false if either is a NaN; -0.0 equals +0.0. (The unit count of an infinity exceeds every finite one.) -/
def f32Lt (a b : F32) : Bool := !f32IsNan a && !f32IsNan b && decide (f32Units a < f32Units b)

/-- IEEE `a ≤ b`: false if either is a NaN. -/
def f32Le (a b : F32) : Bool := !f32IsNan a && !f32IsNan b && decide (f32Units a ≤ f32Units b)

/-- `clamp(x, lo, hi)` of 00_scope.md R9 with IEEE comparison. -/
def f32Clamp (x lo hi : F32) : F32 := bif f32Lt x lo then lo else bif f32Lt hi x then hi else x

/-- clamp to [0, 1], of BRIGHT and ALPHA (10_state.md R26, R27). -/
def clampUnit (x : F32) : F32 := f32Clamp x f32Zero f32One

/-- `clamp(v, 0, 255)` of an integer, as a byte (40_gamma_lut.md R121, 41_color_state.md R144). -/
def clampByte (v : Int) : Byte := BitVec.ofNat 8 (min v.toNat 255)

/-- setGamma refuses g: g ≤ f32(0.01) under IEEE comparison (41_color_state.md R145). -/
def gammaRefused (g : F32) : Bool := f32Le g f32Hundredth

/-- A value GAMMA may hold: finite and > f32(0.01) (10_state.md R24). -/
def gammaLegal (g : F32) : Bool := f32Finite g && f32Lt f32Hundredth g

/-- A value BRIGHT or ALPHA may hold: in [0, 1], -0.0 allowed (10_state.md R24). -/
def unitLegal (x : F32) : Bool := f32Le f32Zero x && f32Le x f32One

/-- The legal ranges of the parameters (00_scope.md R5, 70_reset_and_hazards.md R323). -/
def paramsLegal (p : Params) : Bool :=
  decide (1 ≤ p.n) && gammaLegal p.gammaInit && unitLegal p.brightInit && unitLegal p.alphaInit
    && decide (0 < p.tLatch) && decide (p.spiMode ≤ 3) && decide (1 ≤ p.spiWordBits) && decide (0 < p.spiClockHz)
    && p.maxChannels.all (fun m => decide (1 ≤ m)) && p.lineMax.all (fun m => decide (64 ≤ m))

/-- A line or accumulator of `len` bytes exceeds LINE_MAX (43_commands.md R213); never when LINE_MAX = ∞. -/
def overLineMax (p : Params) (len : Nat) : Bool := p.lineMax.any (fun m => decide (m < len))

/-- One more channel may open: fewer than MAX_CHANNELS exist (43_commands.md R211). -/
def roomForChannel (p : Params) (count : Nat) : Bool := p.maxChannels.all (fun m => decide (count < m))

end Sys2Proof.Machine
end

