-- ==== Sys2Proof/Machine/GammaLut.lean ====
section
/-! DEFINITION. The Gamma LUT (40_gamma_lut.md): build and lookup.

R121 gives entry i as clamp(rnd(255·(i/255)^g)) on exact reals, g = real(GAMMA). With g = p/q in lowest terms that is the
number of n in 1..255 with 255·(i/255)^(p/q) ≥ n - 1/2, that is with (2n-1)^q · 255^p ≤ i^p · 510^q: a comparison of natural
numbers (`reaches`). Those powers are far too long to write out for an exponent such as f32(2.2), so each is enclosed
between two short multiples of a power of two; when the enclosures of the two sides do not overlap they decide the
comparison, and when they do the exact powers decide it. Sys2Proof/Laws/GammaLut.lean proves that the table built here is
the one the exact comparison gives (log 22; R126 asks for exactness). -/

namespace Sys2Proof.Machine

/-- `k n`, with n brought to a numeral first (it only helps evaluation: `force_eq` says it is `k n`). -/
def force {α : Type} (n : Nat) (k : Nat → α) : α :=
  match n with
  | 0 => k 0
  | m + 1 => k (m + 1)

/-- An enclosure of a natural number: lo·2^ex ≤ v ≤ hi·2^ex. -/
structure Enclosure where
  lo : Nat
  hi : Nat
  ex : Nat
deriving DecidableEq, Repr

/-- The enclosure with `s` low bits given up: lo rounded down, hi rounded up. -/
def encShift (s lo hi ex : Nat) : Enclosure :=
  force (lo >>> s) fun l => force (hi >>> s) fun h => force (ex + s) fun x => ⟨l, h + 1, x⟩

/-- Keeps the bounds short: under 2^192 they stand, above at least 128 bits are kept. -/
def encNorm (lo hi ex : Nat) : Enclosure :=
  bif Nat.blt hi (2 ^ 192) then ⟨lo, hi, ex⟩
  else bif Nat.blt hi (2 ^ 256) then encShift 64 lo hi ex
  else bif Nat.blt hi (2 ^ 320) then encShift 128 lo hi ex
  else bif Nat.blt hi (2 ^ 384) then encShift 192 lo hi ex
  else encShift 256 lo hi ex

/-- An enclosure of the product. -/
def encMul : Enclosure → Enclosure → Enclosure
  | ⟨lo, hi, ex⟩, ⟨lo', hi', ex'⟩ => force (lo * lo') fun l => force (hi * hi') fun h => encNorm l h (ex + ex')

/-- An enclosure of b^e by repeated squaring, for e < 2^fuel. -/
def encPow (b : Nat) : Nat → Nat → Enclosure
  | 0, _ => ⟨1, 1, 0⟩
  | fuel + 1, e =>
    bif Nat.beq e 0 then ⟨1, 1, 0⟩
    else force (e / 2) fun half =>
      let h := encPow b fuel half
      bif Nat.beq (e % 2) 1 then encMul (encMul h h) ⟨b, b, 0⟩ else encMul h h

/-- More bits than the numerator or the denominator of a binary32 value has (`gammaRatio_lt`). -/
def powFuel : Nat := 280

/-- True only if every value of the first enclosure is below every value of the second. -/
def encLt : Enclosure → Enclosure → Bool
  | ⟨_, hi, ex⟩, ⟨lo, _, ex'⟩ =>
    bif Nat.ble ex ex' then Nat.blt hi (lo * 2 ^ min (ex' - ex) 512)
    else Nat.ble (ex - ex') 512 && Nat.blt (hi * 2 ^ (ex - ex')) lo

/-- real(g) of a finite positive g as a fraction p/q in lowest terms. -/
def gammaRatio (g : F32) : Nat × Nat :=
  let d := Nat.gcd (f32Mag g) f32Scale
  (f32Mag g / d, f32Scale / d)

/-- The exact comparison: 255·(i/255)^(p/q) ≥ n - 1/2 (for n ≥ 1). -/
def reaches (p q n i : Nat) : Bool := decide ((2 * n - 1) ^ q * 255 ^ p ≤ i ^ p * 510 ^ q)

/-- `reaches`, decided by the enclosures `b` of its left side and `a` of its right side where they can. -/
def reachesEnc (p q n i : Nat) (b a : Enclosure) : Bool :=
  bif encLt a b then false else bif encLt b a then true else reaches p q n i

/-- Drops the thresholds that entry i reaches from the front of the list of those not reached yet. -/
def dropReached (p q i : Nat) (a : Enclosure) : List (Nat × Enclosure) → List (Nat × Enclosure)
  | [] => []
  | (n, b) :: ts => bif reachesEnc p q n i b a then dropReached p q i a ts else (n, b) :: ts

/-- The entries for the indices given in rising order; `ts` are the thresholds the earlier indices did not reach. -/
def sweepEntries (p q : Nat) : List (Nat × Enclosure) → List (Nat × Enclosure) → List Byte
  | [], _ => []
  | (i, a) :: is, ts =>
    let left := dropReached p q i a ts
    BitVec.ofNat 8 (255 - left.length) :: sweepEntries p q is left

/-- The right sides i^p · 510^q, for i = 0..255. -/
def entrySides (p q : Nat) : List (Nat × Enclosure) :=
  (List.range 256).map fun i => (i, encMul (encPow i powFuel p) (encPow 510 powFuel q))

/-- The left sides (2n-1)^q · 255^p, for n = 1..255. -/
def thresholdSides (p q : Nat) : List (Nat × Enclosure) :=
  (List.range 255).map fun k => (k + 1, encMul (encPow (2 * k + 1) powFuel q) (encPow 255 powFuel p))

/-- `build(g)` of 40_gamma_lut.md R121: all 256 entries, for a finite g > f32(0.01). -/
def buildLut (g : F32) : List Byte :=
  match gammaRatio g with
  | (p, q) => sweepEntries p q (entrySides p q) (thresholdSides p q)

/-- `lookup(i)` of 40_gamma_lut.md R124. An index outside 0..255 cannot be formed (20_memory.md R55). -/
def lutLookup (lut : List Byte) (i : Nat) : Byte := lut.getD i 0#8

end Sys2Proof.Machine
end

