-- ==== Sys2Proof/Syntax.lean ====
section
/-! DEFINITION. The decoded command of 30_encoding.md R90: the only values that reach the machine, one constructor for each
row of spec/opcode_table.json; the mnemonics of R85; and the verdict of the decoder (R91). -/

namespace Sys2Proof

/-- The decoded command (30_encoding.md R90). The i32 fields are integers (WellFormed checks their range); the f32 fields
are bit patterns. The constructor `showStrip` is the row SHOW. -/
inductive Instr where
  /-- `COLOR(r, g, b)`, 43_commands.md R220. -/
  | color (r g b : Int)
  /-- `PIX(idx, r, g, b)`, R221. -/
  | pix (idx r g b : Int)
  /-- `BRIGHT(b)`, b before clamping, R222. -/
  | bright (b : F32)
  /-- `GAMMA(g)`, R223. -/
  | gamma (g : F32)
  /-- `SMOOTH(a)`, a before clamping, R224. -/
  | smooth (a : F32)
  /-- `SHOW`, R225. -/
  | showStrip
  /-- `CLEAR`, R226. -/
  | clear
  /-- `STATUS`, R227. -/
  | status
  /-- `FRAME(px)`, 44_frame_port.md R262; it comes from the frame port, never from a line. -/
  | frame (px : List Pixel)
deriving DecidableEq, Repr

/-- The eight mnemonics of 30_encoding.md R85. -/
inductive Mnemonic where
  | COLOR | PIX | BRIGHT | GAMMA | SMOOTH | SHOW | CLEAR | STATUS
deriving DecidableEq, Repr

/-- Why a line is dropped (30_encoding.md R91): the decode events of 60_exceptions.md R282. -/
inductive DropCode where
  /-- E_CMD_EMPTY: the line has no token (43_commands.md R230). -/
  | empty
  /-- E_CMD_UNKNOWN: token 0 is no mnemonic (43_commands.md R228). -/
  | unknown
  /-- E_CMD_ARGS: too few arguments, or one fails its grammar (43_commands.md R229). -/
  | args
deriving DecidableEq, Repr

/-- What the total line decoder answers (30_encoding.md R91). -/
inductive Decoded where
  | cmd (i : Instr)
  | drop (c : DropCode)
deriving DecidableEq, Repr

/-- The two encodings of a command (30_encoding.md R80): the text of a line without its 0x0A, or a frame-port
transaction, which is a value and has no byte encoding (R98). -/
inductive Transaction where
  | line (bytes : List Byte)
  | frame (px : List Pixel)
deriving DecidableEq, Repr

end Sys2Proof
end

