-- ==== Sys2Proof/Machine/State.lean ====
section
/-! DEFINITION. The state of the block (10_state.md), plain data throughout; the reasons a step can stop; and the state after
reset (10_state.md R42, 70_reset_and_hazards.md R320). Fields that are the model's own and not the spec's say so. -/

namespace Sys2Proof.Machine

/-- Why the machine stops with a fault. -/
inductive Fault where
  /-- FAILED (10_state.md R23, 60_exceptions.md R283): the device open failed at boot, a terminal fault state that only the
  reset input leaves. Raised by `step` on every other action in MODE FAILED. Safe: the spec lets no agent step there. -/
  | deviceOpenFailed
deriving DecidableEq, Repr

/-- Why a step has no meaning. -/
inductive Refusal where
  /-- An instruction with no meaning in this model, by its mnemonic. Raised by no arm of `exec` (every row has its meaning).
  Safe. -/
  | notModelled (mnemonic : String)
  /-- The parameters lie outside their legal ranges (00_scope.md R5, 70_reset_and_hazards.md R323, 93 I16: refuse). Raised
  by the boot. Safe. -/
  | illegalParameters
  /-- A GAMMA exponent that is an infinity or a NaN (40_gamma_lut.md R122, 93 I17: refuse). Raised by GAMMA on an
  instruction no encoding carries (30_encoding.md R89). Safe. -/
  | illegalExponent
deriving DecidableEq, Repr

/-- The agents of 00_scope.md R7. -/
inductive Agent where
  | ch (k : Nat)
  | fs
  | bus
  | sys
deriving DecidableEq, Repr

/-- MODE (10_state.md R23). -/
inductive Mode where
  | init | run | failed | shutdown | stopped
deriving DecidableEq, Repr

/-- LOCK and BUS_LOCK (10_state.md R34, R35). -/
inductive Lock where
  | free
  | held (a : Agent)
deriving DecidableEq, Repr

/-- BUS_STATE (42_bus_writer.md R180). -/
inductive BusState where
  | idle | xfer | latch
deriving DecidableEq, Repr

/-- FS_STATE (10_state.md R36). -/
inductive FsState where
  | req | waitBus | sleep | halt
deriving DecidableEq, Repr

/-- CH[k].OPEN (10_state.md R37). -/
inductive OpenState where
  | opened | closing
deriving DecidableEq, Repr

/-- Where an agent stands in a command it has started: state the spec implies (20_memory.md R60, 42_bus_writer.md R188,
R189; log 7). -/
inductive Job where
  /-- No command in progress. -/
  | idle
  /-- The command has started and waits for LOCK. -/
  | waitLock (i : Instr)
  /-- Under SNAPSHOT: the section has ended with this snapshot S, and the command waits for BUS_LOCK. -/
  | waitBus (bytes : List Byte)
  /-- The transfer has been requested; the command waits for the bus to return to IDLE. -/
  | transfer
deriving DecidableEq, Repr

/-- A command channel (10_state.md R37) with the id the host gave it (43_commands.md R211). -/
structure Channel where
  id : Nat
  openState : OpenState
  acc : List Byte
  discard : Bool
  busy : Bool
  /-- The command in progress (log 7). -/
  job : Job
deriving DecidableEq, Repr

/-- The event codes of 60_exceptions.md R282. -/
inductive EventCode where
  | cmdUnknown | cmdArgs | cmdEmpty | lineOverlong | frameLen | busPartial | busError | busOpen | status
deriving DecidableEq, Repr

/-- The info field of an event (60_exceptions.md R282). -/
inductive EventInfo where
  | none
  /-- The length received, of E_FRAME_LEN. -/
  | length (l : Nat)
  /-- (k, 3N), of E_BUS_PARTIAL. -/
  | partialWrite (k total : Nat)
  /-- (GAMMA, BRIGHT, ALPHA, N), of E_STATUS. -/
  | config (gamma bright alpha : F32) (n : Nat)
deriving DecidableEq, Repr

/-- An event record (code, agent, info) (60_exceptions.md R281). -/
structure Event where
  code : EventCode
  agent : Agent
  info : EventInfo
deriving DecidableEq, Repr

/-- A BUSLOG record (bytes, result) (10_state.md R39). -/
structure BusRecord where
  bytes : List Byte
  result : XferResult
deriving DecidableEq, Repr

/-- The three storage spaces of 20_memory.md R50, element by element. There is no address bus and no byte-addressed memory
(R50, R52, R59); each space has a fixed length (`Memory.wf`), which is its one canonical form (log 3). -/
structure Memory where
  /-- LUT[0..255] (10_state.md R29). -/
  lut : List Byte
  /-- T[0..3N-1] (R30). -/
  t : List F32
  /-- O[0..3N-1] (R31). -/
  o : List Byte
deriving DecidableEq, Repr

/-- Color State (00_scope.md R13, 60_exceptions.md R294): the configuration registers CR 0 to CR 2 (10_state.md R24) and the
three spaces. -/
structure ColorState where
  gamma : F32
  bright : F32
  alpha : F32
  mem : Memory
deriving DecidableEq, Repr

/-- The bus sequencer's state (10_state.md R35). -/
structure Bus where
  state : BusState
  frame : List Byte
  client : Option Agent
  latchLeft : Nat
  lock : Lock
deriving DecidableEq, Repr

/-- The frame sequencer's state (10_state.md R36). -/
structure FrameSeq where
  state : FsState
  timer : Nat
  /-- The FRAME in progress (log 7). -/
  job : Job
deriving DecidableEq, Repr

/-- The device handle as opened at boot (42_bus_writer.md R190, R191; log 19). -/
structure SpiConfig where
  mode : Nat
  wordBits : Nat
  /-- SPI_CLOCK_HZ in whole Hz (DESIGN CHOICE, log 26). -/
  clockHz : Nat
deriving DecidableEq, Repr

/-- The state of the block. -/
structure State where
  /-- The model's own: the parameters of 00_scope.md R5, which no step changes (log 4). -/
  params : Params
  /-- MODE (10_state.md R23). -/
  mode : Mode
  /-- GAMMA, BRIGHT, ALPHA, LUT, T, O (R24-R31). -/
  color : ColorState
  /-- LOCK (R34). -/
  lock : Lock
  /-- BUS_STATE, BUS_FRAME, BUS_CLIENT, LATCH_LEFT, BUS_LOCK (R35). -/
  bus : Bus
  /-- FS_STATE, FS_TIMER (R36). -/
  fs : FrameSeq
  /-- The existing channels, ids rising (R37). -/
  channels : List Channel
  /-- EVLOG (R38). -/
  evlog : List Event
  /-- BUSLOG (R39). -/
  buslog : List BusRecord
  /-- SYS's final transfer in progress (70_reset_and_hazards.md R324; log 7). -/
  sysJob : Job
  /-- The device handle, none before the open and after the release (R190, R324; log 19). -/
  device : Option SpiConfig
  /-- The model's own: the agent for which `exec` runs its instruction (log 6). -/
  actor : Agent
  /-- The model's own: the environment's next choices (log 2). -/
  script : List Action
  /-- The model's own: how many choices have been drawn from Config.freeAction (log 2). -/
  drawn : Nat
deriving DecidableEq, Repr

/-! ## The updates

One function for each field that is written; Sys2Proof/Laws/State.lean says what each leaves alone. -/

def State.withMode (m : Mode) (s : State) : State := { s with mode := m }
def State.withColor (c : ColorState) (s : State) : State := { s with color := c }
def State.withLock (l : Lock) (s : State) : State := { s with lock := l }
def State.withBus (b : Bus) (s : State) : State := { s with bus := b }
def State.withFs (f : FrameSeq) (s : State) : State := { s with fs := f }
def State.withChannels (cs : List Channel) (s : State) : State := { s with channels := cs }
def State.withEvlog (es : List Event) (s : State) : State := { s with evlog := es }
def State.withBuslog (bs : List BusRecord) (s : State) : State := { s with buslog := bs }
def State.withSysJob (j : Job) (s : State) : State := { s with sysJob := j }
def State.withDevice (d : Option SpiConfig) (s : State) : State := { s with device := d }
def State.withActor (a : Agent) (s : State) : State := { s with actor := a }
def State.withScript (acts : List Action) (n : Nat) (s : State) : State := { s with script := acts, drawn := n }

/-! ## Reset -/

/-- The state after reset in the configuration `p`: every row of 10_state.md R42. LUT is build(GAMMA_INIT) already, as that
table says; the boot builds it again (log 13). The three fields of the model's own are at values no statement rests on. -/
def State.resetWith (p : Params) : State where
  params := p
  mode := .init
  color :=
    { gamma := p.gammaInit
      bright := p.brightInit
      alpha := p.alphaInit
      mem := { lut := buildLut p.gammaInit, t := List.replicate (3 * p.n) f32Zero, o := List.replicate (3 * p.n) 0#8 } }
  lock := .free
  bus := { state := .idle, frame := [], client := none, latchLeft := 0, lock := .free }
  fs := { state := .req, timer := 0, job := .idle }
  channels := []
  evlog := []
  buslog := []
  sysJob := .idle
  device := none
  actor := .sys
  script := []
  drawn := 0

/-- The machine right after reset, in the configuration of log 4 (DESIGN CHOICE). -/
def State.reset : State := State.resetWith Config.params

end Sys2Proof.Machine
end

