-- ==== Sys2Proof/Machine/Operands.lean ====
section
/-! DEFINITION. The operand forms of the datapath: i32 and u8 operands as f32 (00_scope.md R10), the smoothing input of
COLOR (43_commands.md R220) and of FRAME (30_encoding.md R98, 44_frame_port.md R262), and the channel index of an LED
(00_scope.md R12). -/

namespace Sys2Proof.Machine

/-- The channel index j = 3·i + c of LED i, color c (00_scope.md R12). -/
def channelIndex (i c : Nat) : Nat := 3 * i + c

/-- `[f32(r), f32(g), f32(b)] repeated N times` (43_commands.md R220). -/
def repeatColor (n : Nat) (r g b : F32) : List F32 :=
  match n with
  | 0 => []
  | k + 1 => r :: g :: b :: repeatColor k r g b

/-- `flat(px)` of 30_encoding.md R98. -/
def flat : List Pixel → List Byte
  | [] => []
  | (r, g, b) :: px => r :: g :: b :: flat px

/-- `[ f32(x) for x in flat(px) ]` of 44_frame_port.md R262; exact, since every byte is representable. -/
def frameInput (px : List Pixel) : List F32 := (flat px).map (fun x => f32OfInt (x.toNat : Int))

end Sys2Proof.Machine
end

