-- ==== Sys2Proof/Machine/ColorOps.lean ====
section
/-! DEFINITION. The Color State datapath operations of 41_color_state.md and the generic accesses of 00_scope.md R11. Each is
the operation's pseudocode on Color State; none opens the lock and none starts a transfer (R140). -/

namespace Sys2Proof.Machine

/-! ## The storage spaces -/

/-- Every space has its fixed length (10_state.md R29-R31, R33). -/
def Memory.wf (n : Nat) (m : Memory) : Bool := m.lut.length == 256 && m.t.length == 3 * n && m.o.length == 3 * n

/-- The spaces that MemRead and MemWrite name (00_scope.md R11, 20_memory.md R50). -/
inductive Space where
  | lut | t | o
deriving DecidableEq, Repr

/-- One element of a space (20_memory.md R56): a byte of LUT or O, or a whole f32 of T. -/
inductive Element where
  | byte (v : Byte)
  | real (v : F32)
deriving DecidableEq, Repr

/-- `MemRead(space, addr, n)`: the whole element at addr (00_scope.md R11, 20_memory.md R55); none outside the space, an
access no operation makes. -/
def memRead (sp : Space) (addr : Nat) (m : Memory) : Option Element :=
  match sp with
  | .lut => m.lut[addr]?.map .byte
  | .t => m.t[addr]?.map .real
  | .o => m.o[addr]?.map .byte

/-- `T[j] <- v`. -/
def writeT (j : Nat) (v : F32) (m : Memory) : Memory := { m with t := m.t.set j v }

/-! ## The operations -/

/-- `setAll(r, g, b)` (41_color_state.md R141). No command and no port reaches it. -/
def setAll (n : Nat) (r g b : Int) (c : ColorState) : ColorState :=
  { c with mem := { c.mem with t := repeatColor n (f32OfInt r) (f32OfInt g) (f32OfInt b) } }

/-- `setPixel(i, r, g, b)` (R142): nothing when i is outside [0, N). -/
def setPixel (n : Nat) (i r g b : Int) (c : ColorState) : ColorState :=
  bif decide (0 ≤ i) && decide (i < n) then
    let m0 := writeT (channelIndex i.toNat 0) (f32OfInt r) c.mem
    let m1 := writeT (channelIndex i.toNat 1) (f32OfInt g) m0
    { c with mem := writeT (channelIndex i.toNat 2) (f32OfInt b) m1 }
  else c

/-- One channel of R143: t + a·(new - t) as three binary32 operations, each rounded, not fused. -/
def emaStep (a t new : F32) : F32 := fadd t (fmul a (fsub new t))

/-- The mutation of `applySmoothing(new)` (R143) for an input of length 3N. -/
def smoothAll (new : List F32) (c : ColorState) : ColorState :=
  { c with mem := { c.mem with t := List.zipWith (emaStep c.alpha) c.mem.t new } }

/-- `rnd(r) = floor(r + 1/2)` (00_scope.md R9) of r = units·2^-149, exactly. -/
def rndUnits (units : Int) : Int := (2 * units + f32Scale) / (2 * f32Scale)

/-- The LUT index of a target value (R144): rnd(real(clamp(t, 0, 255))). -/
def shapeIndex (t : F32) : Nat := (rndUnits (f32Units (f32Clamp t f32Zero f32Max255))).toNat

/-- The brightness stage of R144: clamp(rnd(gv · real(b)), 0, 255), the product exact. -/
def scaleByte (b : F32) (gv : Byte) : Byte := clampByte (rndUnits (gv.toNat * f32Units b))

/-- `shape(t)` (00_scope.md R14, 41_color_state.md R144). -/
def shape (lut : List Byte) (b t : F32) : Byte := scaleByte b (lutLookup lut (shapeIndex t))

/-- `reshape()` (R144): every output byte from T, LUT and BRIGHT. -/
def reshape (c : ColorState) : ColorState :=
  { c with mem := { c.mem with o := c.mem.t.map (shape c.mem.lut c.bright) } }

/-- `setGamma(g)` (R145): ignored when g ≤ f32(0.01); else the exponent, the whole table, and a reshape. -/
def setGamma (g : F32) (c : ColorState) : ColorState :=
  bif gammaRefused g then c
  else reshape { c with gamma := g, mem := { c.mem with lut := buildLut g } }

/-- `setBrightness(b)` (R146). -/
def setBrightness (b : F32) (c : ColorState) : ColorState := reshape { c with bright := clampUnit b }

/-- `setSmoothingAlpha(a)` (R147): no reshape. -/
def setSmoothingAlpha (a : F32) (c : ColorState) : ColorState := { c with alpha := clampUnit a }

/-- `clear()` (R148): every target +0.0, every output 0. -/
def clearColor (n : Nat) (c : ColorState) : ColorState :=
  { c with mem := { c.mem with t := List.replicate (3 * n) f32Zero, o := List.replicate (3 * n) 0#8 } }

/-- `snapshot()` (R149). -/
def snapshot (c : ColorState) : List Byte := c.mem.o

end Sys2Proof.Machine
end

