-- ==== Sys2Proof/Machine/Ops.lean ====
section
/-! DEFINITION. The shared operations on State: events (60_exceptions.md R281), the channels as a list, the lock discipline and
the two execution templates of a command (43_commands.md R218, 42_bus_writer.md R188, R189), the fatal device-open failure
(60_exceptions.md R283: the block has no other trap, R289), and the wire order of a transfer (20_memory.md R53, R54). -/

namespace Sys2Proof.Machine

/-! ## Events -/

/-- The code numbers of 60_exceptions.md R282. -/
def eventNumber : EventCode → Nat
  | .cmdUnknown => 0x01
  | .cmdArgs => 0x02
  | .cmdEmpty => 0x03
  | .lineOverlong => 0x04
  | .frameLen => 0x05
  | .busPartial => 0x06
  | .busError => 0x07
  | .busOpen => 0x08
  | .status => 0x09

/-- `emit EV(code, info)` by agent a (60_exceptions.md R281): EVLOG only grows, at its end (10_state.md R38). -/
def emit (code : EventCode) (a : Agent) (info : EventInfo) (s : State) : State :=
  s.withEvlog (s.evlog ++ [{ code := code, agent := a, info := info }])

/-- The event of a drop verdict (30_encoding.md R91, 60_exceptions.md R282). -/
def dropEvent : DropCode → EventCode
  | .empty => .cmdEmpty
  | .unknown => .cmdUnknown
  | .args => .cmdArgs

/-! ## Channels -/

/-- CH[k], if it exists. -/
def findChannel (k : Nat) (s : State) : Option Channel := s.channels.find? (fun c => c.id == k)

/-- CH[k]'s state changed by f. -/
def updateChannel (k : Nat) (f : Channel → Channel) (s : State) : State :=
  s.withChannels (s.channels.map fun c => bif c.id == k then f c else c)

/-- CH[k] removed (43_commands.md R211). -/
def removeChannel (k : Nat) (s : State) : State := s.withChannels (s.channels.filter fun c => !(c.id == k))

/-- A new channel put in its place, ids rising. -/
def insertChannel (c : Channel) : List Channel → List Channel
  | [] => [c]
  | d :: ds => bif Nat.blt c.id d.id then c :: d :: ds else d :: insertChannel c ds

/-- The one form of the channel list: ids strictly rising, so no two channels share an id (93 I15). -/
def channelsWf : List Channel → Bool
  | [] => true
  | [_] => true
  | c :: d :: ds => Nat.blt c.id d.id && channelsWf (d :: ds)

/-- A channel as OPEN_CH makes it (43_commands.md R211). -/
def newChannel (k : Nat) : Channel :=
  { id := k, openState := .opened, acc := [], discard := false, busy := false, job := .idle }

/-! ## Commands in progress -/

/-- The agent's command stands at j (log 7). A channel is BUSY and FS is in WAIT_BUS while a command is in progress
(43_commands.md R214, 44_frame_port.md R260; log 9). -/
def setJob (a : Agent) (j : Job) (s : State) : State :=
  match a with
  | .ch k => updateChannel k (fun c => { c with busy := true, job := j }) s
  | .fs => s.withFs { s.fs with state := .waitBus, job := j }
  | .sys => s.withSysJob j
  | .bus => s

/-- FS after its FRAME (44_frame_port.md R260, R264, R265): SLEEP for T_FRAME, or HALT once MODE has left RUN. -/
def fsAfterFrame (s : State) : FrameSeq :=
  match s.mode with
  | .run => { state := .sleep, timer := s.params.tFrame, job := .idle }
  | _ => { s.fs with state := .halt, job := .idle }

/-- The agent's command is complete (43_commands.md R214: BUSY <- false; 44_frame_port.md R260: SLEEP). -/
def completeJob (a : Agent) (s : State) : State :=
  match a with
  | .ch k => updateChannel k (fun c => { c with busy := false, job := .idle }) s
  | .fs => s.withFs (fsAfterFrame s)
  | .sys => s.withSysJob .idle
  | .bus => s

/-! ## Locks and transfers -/

/-- The lock is free. -/
def lockFree : Lock → Bool
  | .free => true
  | .held _ => false

/-- BUS_STATE = IDLE. -/
def busIdle (s : State) : Bool := s.bus.state == .idle

/-- A section may begin: LOCK = free (20_memory.md R60). -/
def mayBegin (s : State) : Bool := lockFree s.lock

/-- A transferring section may begin: LOCK = free and, under IN_LOCK, the bus is IDLE, as holding LOCK guarantees in every
run (42_bus_writer.md R181, R188; log 23). -/
def mayBeginTransfer (s : State) : Bool :=
  match s.params.busOrder with
  | .inLock => mayBegin s && busIdle s
  | .snapshot => mayBegin s

/-- `bus_transfer(bytes)` for agent a (42_bus_writer.md R181). -/
def busTransfer (a : Agent) (bytes : List Byte) (s : State) : State :=
  s.withBus { s.bus with state := .xfer, frame := bytes, client := some a }

/-- The transfer requested, and the command waiting for it. -/
def requestTransfer (a : Agent) (bytes : List Byte) (s : State) : State := setJob a .transfer (busTransfer a bytes s)

/-- What follows the atomic section of a transferring command (43_commands.md R218): under IN_LOCK the lock stays held and
the transfer of the snapshot is requested (42_bus_writer.md R188); under SNAPSHOT the lock is free again and the command goes
to wait for BUS_LOCK with its snapshot (R189). -/
def endSection (a : Agent) (s : State) : State :=
  match s.params.busOrder with
  | .inLock => requestTransfer a (snapshot s.color) (s.withLock (.held a))
  | .snapshot => setJob a (.waitBus (snapshot s.color)) s

/-- A transferring command of agent a (43_commands.md R218): its section in one step once it may begin, the transfer
requested or awaited; until then the command waits and nothing changes (20_memory.md R60; log 1, log 23). -/
def runTransferring (a : Agent) (body : State → State) (s : State) : Host.Outcome State Fault Refusal :=
  bif mayBeginTransfer s then .next (endSection a (body s)) else .next s

/-- A non-transferring command of agent a (43_commands.md R218): acquire, section, release and completion in one step once
LOCK is free; until then it waits (log 1). -/
def runPlain (a : Agent) (body : State → State) (s : State) : Host.Outcome State Fault Refusal :=
  bif mayBegin s then .next (completeJob a (body s)) else .next s

/-- `acquire BUS_LOCK; bus_transfer(S)` (42_bus_writer.md R189), once BUS_LOCK is free and the bus IDLE, in one step (log 1). -/
def acquireBusLock (a : Agent) (bytes : List Byte) (s : State) : State :=
  bif lockFree s.bus.lock && busIdle s then requestTransfer a bytes (s.withBus { s.bus with lock := .held a }) else s

/-- The lock that an agent holds through its transfer, released (42_bus_writer.md R188, R189). -/
def releaseLock (s : State) : State :=
  match s.params.busOrder with
  | .inLock => s.withLock .free
  | .snapshot => s.withBus { s.bus with lock := .free }

/-- The agent goes on once BUS has released it (42_bus_writer.md R185): the lock released, the command complete. -/
def finishTransfer (a : Agent) (s : State) : State :=
  bif s.bus.client == some a then s else completeJob a (releaseLock s)

/-! ## The datapath in a section -/

/-- A datapath operation on Color State. -/
def onColor (f : ColorState → ColorState) (s : State) : State := s.withColor (f s.color)

/-- `applySmoothing(new)` for agent a (41_color_state.md R143): E_FRAME_LEN and no mutation unless its length is 3N. -/
def applySmoothing (a : Agent) (new : List F32) (s : State) : State :=
  bif new.length == 3 * s.params.n then onColor (smoothAll new) s else emit .frameLen a (.length new.length) s

/-! ## The fatal error, and reset -/

/-- Device open failure (42_bus_writer.md R190, 60_exceptions.md R283): E_BUS_OPEN, and MODE <- FAILED. Nothing is saved and
no handler runs (R289). -/
def failOpen (s : State) : State := (emit .busOpen .sys .none s).withMode .failed

/-- The reset input (70_reset_and_hazards.md R320): every piece of state to its reset value. The environment's further
choices are not state of the block. The only way out of FAILED and STOPPED. -/
def resetBlock (s : State) : State := (State.resetWith s.params).withScript s.script s.drawn

/-! ## The wire -/

/-- The bits of a byte in wire order (20_memory.md R54): most significant first unless SPI_LSB_FIRST. -/
def wireBits (lsbFirst : Bool) (x : Byte) : List Bool :=
  match lsbFirst with
  | false => (List.range 8).map fun k => x.getLsbD (7 - k)
  | true => (List.range 8).map fun k => x.getLsbD k

/-- The bits a transfer puts on the wire (42_bus_writer.md R183), for 8-bit words; how bytes pack into other words is not
specified (93 I10: no wire-level meaning; log 20). -/
def wireOf (p : Params) (bytes : List Byte) : Option (List Bool) :=
  bif p.spiWordBits == 8 then some ((bytes.map (wireBits p.spiLsbFirst)).flatten) else none

/-- The bytes the strip receives of a transfer (42_bus_writer.md R182): BUS_FRAME[0..k-1] of done(k); of an ioerror the spec
says nothing (log 25). -/
def receivedBytes (r : BusRecord) : Option (List Byte) :=
  match r.result with
  | .done k => some (r.bytes.take k)
  | .ioerror => none

end Sys2Proof.Machine
end

