-- ==== Sys2Proof/Machine/BusSequencer.lean ====
section
/-! DEFINITION. The bus sequencer's own steps (42_bus_writer.md): the transfer step and the end of the latch. -/

namespace Sys2Proof.Machine

/-- An answer DEV_XFER can give: done(k) with k ≤ 3N, or ioerror (00_scope.md R6, 42_bus_writer.md R182). -/
def xferAnswerLegal (n : Nat) : XferResult → Bool
  | .done k => Nat.ble k (3 * n)
  | .ioerror => true

/-- The event of a transfer's result (42_bus_writer.md R184): none for a full one. -/
def emitXferEvent (res : XferResult) (s : State) : State :=
  match res with
  | .done k => bif Nat.blt k (3 * s.params.n) then emit .busPartial .bus (.partialWrite k (3 * s.params.n)) s else s
  | .ioerror => emit .busError .bus .none s

/-- The transfer step (42_bus_writer.md R182): one BUSLOG record, its event, and LATCH for at least T_LATCH. -/
def xferStep (res : XferResult) (s : State) : State :=
  let logged := emitXferEvent res (s.withBuslog (s.buslog ++ [{ bytes := s.bus.frame, result := res }]))
  logged.withBus { s.bus with state := .latch, latchLeft := s.params.tLatch }

/-- The end of the latch (42_bus_writer.md R185): the client is released and may finish. -/
def latchEnd (s : State) : State := s.withBus { s.bus with state := .idle, frame := [], client := none }

/-- A step of BUS. An answer outside DEV_XFER's range is no answer, and the latch does not end early: nothing happens then
(log 8). -/
def busStep (res : XferResult) (s : State) : State :=
  match s.bus.state with
  | .idle => s
  | .xfer => bif xferAnswerLegal s.params.n res then xferStep res s else s
  | .latch => bif s.bus.latchLeft == 0 then latchEnd s else s

end Sys2Proof.Machine
end

