-- ==== Sys2Proof/Machine/Commands.lean ====
section
/-! DEFINITION. The eight line commands (43_commands.md R220-R227), each run for the agent `actor`. -/

namespace Sys2Proof.Machine

/-- The section of COLOR (43_commands.md R220). -/
def colorSection (r g b : Int) (s : State) : State :=
  onColor reshape (applySmoothing s.actor (repeatColor s.params.n (f32OfInt r) (f32OfInt g) (f32OfInt b)) s)

/-- `COLOR r g b` (43_commands.md R220). -/
def execColor (r g b : Int) (s : State) : Host.Outcome State Fault Refusal :=
  runTransferring s.actor (colorSection r g b) s

/-- The section of PIX (43_commands.md R221). -/
def pixSection (idx r g b : Int) (s : State) : State := onColor (fun c => reshape (setPixel s.params.n idx r g b c)) s

/-- `PIX idx r g b` (43_commands.md R221). -/
def execPix (idx r g b : Int) (s : State) : Host.Outcome State Fault Refusal :=
  runTransferring s.actor (pixSection idx r g b) s

/-- The section of BRIGHT (43_commands.md R222). -/
def brightSection (b : F32) (s : State) : State := onColor (fun c => reshape (setBrightness b c)) s

/-- `BRIGHT v` (43_commands.md R222), v converted by the decoder (30_encoding.md R92). -/
def execBright (b : F32) (s : State) : Host.Outcome State Fault Refusal := runTransferring s.actor (brightSection b) s

/-- The section of GAMMA (43_commands.md R223). -/
def gammaSection (g : F32) (s : State) : State := onColor (fun c => reshape (setGamma g c)) s

/-- `GAMMA g` (43_commands.md R223). An exponent that is not finite, which no encoding carries, is refused
(40_gamma_lut.md R122, 93 I17; log 21). -/
def execGamma (g : F32) (s : State) : Host.Outcome State Fault Refusal :=
  bif f32Finite g then runTransferring s.actor (gammaSection g) s else .refused .illegalExponent

/-- The section of SMOOTH (43_commands.md R224). -/
def smoothSection (a : F32) (s : State) : State := onColor (setSmoothingAlpha a) s

/-- `SMOOTH a` (43_commands.md R224): no reshape, no transfer. -/
def execSmooth (a : F32) (s : State) : Host.Outcome State Fault Refusal := runPlain s.actor (smoothSection a) s

/-- The section of SHOW (43_commands.md R225). -/
def showSection (s : State) : State := onColor reshape s

/-- `SHOW` (43_commands.md R225). -/
def execShow (s : State) : Host.Outcome State Fault Refusal := runTransferring s.actor showSection s

/-- The section of CLEAR (43_commands.md R226). -/
def clearSection (s : State) : State := onColor (clearColor s.params.n) s

/-- `CLEAR` (43_commands.md R226). -/
def execClear (s : State) : Host.Outcome State Fault Refusal := runTransferring s.actor clearSection s

/-- The section of STATUS (43_commands.md R227): the configuration read together. -/
def statusSection (s : State) : State :=
  emit .status s.actor (.config s.color.gamma s.color.bright s.color.alpha s.params.n) s

/-- `STATUS` (43_commands.md R227): no transfer, no reply. -/
def execStatus (s : State) : Host.Outcome State Fault Refusal := runPlain s.actor statusSection s

end Sys2Proof.Machine
end

