-- ==== Sys2Proof/Machine/FramePort.lean ====
section
/-! DEFINITION. The FRAME transaction (44_frame_port.md R262, R263). -/

namespace Sys2Proof.Machine

/-- The section of FRAME (44_frame_port.md R262): a length mismatch is logged by FS and changes nothing, and the section goes
on (R263). -/
def frameSection (px : List Pixel) (s : State) : State := onColor reshape (applySmoothing .fs (frameInput px) s)

/-- `FRAME(px)` (44_frame_port.md R262). The agent is FS, the only one that runs it. -/
def execFrame (px : List Pixel) (s : State) : Host.Outcome State Fault Refusal := runTransferring .fs (frameSection px) s

end Sys2Proof.Machine
end

