-- ==== Sys2Proof/Machine/Dispatch.lean ====
section
/-! DEFINITION. The meaning of every decoded command: one arm for each row of spec/opcode_table.json. -/

namespace Sys2Proof.Machine

-- exec: what the command does when its agent's turn to run it comes (43_commands.md R214, R218).
def exec (i : Instr) (s : State) : Host.Outcome State Fault Refusal :=
  match i with
  | .color r g b => Sys2Proof.Machine.execColor r g b s
  | .pix idx r g b => Sys2Proof.Machine.execPix idx r g b s
  | .bright b => Sys2Proof.Machine.execBright b s
  | .gamma g => Sys2Proof.Machine.execGamma g s
  | .smooth a => Sys2Proof.Machine.execSmooth a s
  | .showStrip => Sys2Proof.Machine.execShow s
  | .clear => Sys2Proof.Machine.execClear s
  | .status => Sys2Proof.Machine.execStatus s
  | .frame px => Sys2Proof.Machine.execFrame px s

end Sys2Proof.Machine
end

