-- ==== Sys2Proof/WellFormed.lean ====
section
/-! DEFINITION. Which decoded commands the two encodings can carry: INT fields lie in the i32 range (30_encoding.md R88),
NUM and BARG fields are finite (R89: a value that rounds to an infinity is invalid, and `nan` does not match). A frame is any
finite sequence of byte triples (R98). -/

namespace Sys2Proof

/-- The i32 range of 30_encoding.md R88. -/
def i32InRange (v : Int) : Bool := decide (-2147483648 ≤ v) && decide (v ≤ 2147483647)

/-- A decoded command that an encoding can carry (30_encoding.md R88-R90, R98). -/
def Instr.wf : Instr → Bool
  | .color r g b => i32InRange r && i32InRange g && i32InRange b
  | .pix idx r g b => i32InRange idx && i32InRange r && i32InRange g && i32InRange b
  | .bright b => Machine.f32Finite b
  | .gamma g => Machine.f32Finite g
  | .smooth a => Machine.f32Finite a
  | .showStrip => true
  | .clear => true
  | .status => true
  | .frame _ => true

end Sys2Proof
end

