-- ==== Sys2Proof/Decode.lean ====
section
/-! DEFINITION. The command decoder (30_encoding.md): lines, tokens, argument grammars, the total decoder of R91, and after
it the encoder, which writes the canonical spelling of R95. -/

namespace Sys2Proof

open Machine

/-! ## Bytes (30_encoding.md R81, R83, R88, R89) -/

/-- The line terminator, 0x0A (R81). -/
def byteLF : Byte := 0x0A#8
/-- `.` -/
def byteDot : Byte := 0x2E#8
/-- `+` -/
def bytePlus : Byte := 0x2B#8
/-- `-` -/
def byteMinus : Byte := 0x2D#8
/-- 0x20 -/
def byteSpace : Byte := 0x20#8

/-- WS of R83: SP, HT, VT, FF, CR. -/
def isSpaceByte (c : Byte) : Bool := c == 0x20#8 || c == 0x09#8 || c == 0x0B#8 || c == 0x0C#8 || c == 0x0D#8

/-- DIGIT of R88. -/
def isDigitByte (c : Byte) : Bool := Nat.ble 0x30 c.toNat && Nat.ble c.toNat 0x39

/-- `e` or `E` of R89. -/
def isExpByte (c : Byte) : Bool := c == 0x65#8 || c == 0x45#8

/-! ## Lines and tokens (R82, R84) -/

/-- The bytes before the first 0x0A (R82). -/
def beforeLF (bytes : List Byte) : List Byte := bytes.takeWhile (· != byteLF)

/-- The bytes after the first 0x0A. -/
def afterLF (bytes : List Byte) : List Byte := (bytes.dropWhile (· != byteLF)).drop 1

/-- A complete line has arrived (R82). -/
def hasLF (bytes : List Byte) : Bool := bytes.any (· == byteLF)

/-- The runs between the WS bytes of a line, empty runs among them. -/
def splitAtSpace : List Byte → List (List Byte)
  | [] => [[]]
  | c :: cs =>
    bif isSpaceByte c then [] :: splitAtSpace cs
    else match splitAtSpace cs with
      | [] => [[c]]
      | t :: ts => (c :: t) :: ts

/-- `tokens(line)` of R84: the maximal runs of non-WS bytes, in order. -/
def tokens (line : List Byte) : List (List Byte) := (splitAtSpace line).filter (fun t => !t.isEmpty)

/-! ## Arguments (R88, R89, R92) -/

/-- The number a string of decimal digits spells. -/
def digitsValue (ds : List Byte) : Nat := ds.foldl (fun v c => v * 10 + (c.toNat - 0x30)) 0

/-- SIGN? at the front of a token: (is it `-`, the rest). -/
def takeSign : List Byte → Bool × List Byte
  | [] => (false, [])
  | c :: cs => bif c == byteMinus then (true, cs) else bif c == bytePlus then (false, cs) else (false, c :: cs)

/-- DIGIT+ in full. -/
def allDigits (ds : List Byte) : Bool := !ds.isEmpty && ds.all isDigitByte

/-- v or -v. -/
def signed (neg : Bool) (v : Nat) : Int := bif neg then -(v : Int) else (v : Int)

/-- An INT token (R88): SIGN? DIGIT+ in full, its value in i32 range. -/
def parseInt (tok : List Byte) : Option Int :=
  match takeSign tok with
  | (neg, ds) => bif allDigits ds && i32InRange (signed neg (digitsValue ds)) then some (signed neg (digitsValue ds)) else none

/-- `f32(d)` of R89 for d = ±D·10^E, D written with `len` digits; none if it rounds to an infinity. Exponents so large
that the answer does not depend on the digits are answered without the power of ten (decimalF32_eq). -/
def decimalF32 (neg : Bool) (len D : Nat) (E : Int) : Option F32 :=
  bif D == 0 then some (f32Round neg 0 1)
  else bif decide (39 ≤ E) then none
  else bif decide (E + len ≤ -46) then some (f32Round neg 0 1)
  else bif Nat.ble 0x7F800000 (roundMag (D * 10 ^ E.toNat) (10 ^ (-E).toNat)) then none
  else some (f32Round neg (D * 10 ^ E.toNat) (10 ^ (-E).toNat))

/-- EXP? of R89, in full: the exponent, 0 when there is none. -/
def parseExp : List Byte → Option Int
  | [] => some 0
  | c :: cs =>
    bif isExpByte c then
      match takeSign cs with
      | (neg, ds) => bif allDigits ds then some (signed neg (digitsValue ds)) else none
    else none

/-- `'.' DIGIT*` of R89, if it comes next: (the fraction digits, the rest). -/
def takeFraction : List Byte → List Byte × List Byte
  | [] => ([], [])
  | c :: cs => bif c == byteDot then (cs.takeWhile isDigitByte, cs.dropWhile isDigitByte) else ([], c :: cs)

/-- A NUM token (R89): SIGN? MANT EXP? in full, MANT with at least one digit; rounded to the nearest binary32, ties to
even; none if it rounds to an infinity. -/
def parseNum (tok : List Byte) : Option F32 :=
  match takeSign tok with
  | (neg, body) =>
    match takeFraction (body.dropWhile isDigitByte) with
    | (frac, rest) =>
      let ds := body.takeWhile isDigitByte ++ frac
      match parseExp rest with
      | none => none
      | some e => bif ds.isEmpty then none else decimalF32 neg ds.length (digitsValue ds) (e - frac.length)

/-- What an integer BRIGHT argument means (R92): a percentage above 1, itself otherwise. -/
def brightOfInt (v : Int) : F32 := bif decide (1 < v) then f32Round false v.toNat 100 else f32OfInt v

/-- `bright_value(tok)`, the BARG of R92. -/
def parseBright (tok : List Byte) : Option F32 :=
  bif tok.any (· == byteDot) then parseNum tok else (parseInt tok).map brightOfInt

/-! ## The decoder (R85, R86, R91) -/

/-- The token bytes of a mnemonic (R85). -/
def mnemonicBytes : Mnemonic → List Byte
  | .COLOR => [0x43#8, 0x4F#8, 0x4C#8, 0x4F#8, 0x52#8]
  | .PIX => [0x50#8, 0x49#8, 0x58#8]
  | .BRIGHT => [0x42#8, 0x52#8, 0x49#8, 0x47#8, 0x48#8, 0x54#8]
  | .GAMMA => [0x47#8, 0x41#8, 0x4D#8, 0x4D#8, 0x41#8]
  | .SMOOTH => [0x53#8, 0x4D#8, 0x4F#8, 0x4F#8, 0x54#8, 0x48#8]
  | .SHOW => [0x53#8, 0x48#8, 0x4F#8, 0x57#8]
  | .CLEAR => [0x43#8, 0x4C#8, 0x45#8, 0x41#8, 0x52#8]
  | .STATUS => [0x53#8, 0x54#8, 0x41#8, 0x54#8, 0x55#8, 0x53#8]

/-- The rows of the table of R85. -/
def mnemonicTable : List Mnemonic := [.COLOR, .PIX, .BRIGHT, .GAMMA, .SMOOTH, .SHOW, .CLEAR, .STATUS]

/-- The mnemonic a token is, byte for byte (R85). -/
def mnemonicOf (tok : List Byte) : Option Mnemonic := mnemonicTable.find? (fun m => mnemonicBytes m == tok)

/-- arity(op) of R85. -/
def arity : Mnemonic → Nat
  | .COLOR => 3
  | .PIX => 4
  | .BRIGHT => 1
  | .GAMMA => 1
  | .SMOOTH => 1
  | .SHOW => 0
  | .CLEAR => 0
  | .STATUS => 0

/-- Token k of the line's arguments (R87); the count has been checked. -/
def argToken (args : List (List Byte)) (k : Nat) : List Byte := args.getD k []

/-- The command of a mnemonic and its argument tokens, if each parses by its kind (R87, R90). -/
def parseArgs (m : Mnemonic) (args : List (List Byte)) : Option Instr :=
  match m with
  | .COLOR =>
    match parseInt (argToken args 0), parseInt (argToken args 1), parseInt (argToken args 2) with
    | some r, some g, some b => some (.color r g b)
    | _, _, _ => none
  | .PIX =>
    match parseInt (argToken args 0), parseInt (argToken args 1), parseInt (argToken args 2), parseInt (argToken args 3) with
    | some idx, some r, some g, some b => some (.pix idx r g b)
    | _, _, _, _ => none
  | .BRIGHT => (parseBright (argToken args 0)).map .bright
  | .GAMMA => (parseNum (argToken args 0)).map .gamma
  | .SMOOTH => (parseNum (argToken args 0)).map .smooth
  | .SHOW => some .showStrip
  | .CLEAR => some .clear
  | .STATUS => some .status

/-- `decode(line)` of R91: total, the checks in the order of the rule. Tokens past the arity are ignored (R86). -/
def decodeLine (line : List Byte) : Decoded :=
  match tokens line with
  | [] => .drop .empty
  | t :: args =>
    match mnemonicOf t with
    | none => .drop .unknown
    | some m =>
      bif Nat.blt args.length (arity m) then .drop .args
      else match parseArgs m args with
        | none => .drop .args
        | some i => .cmd i

/-- The decoder over both encodings (R80): a frame-port transaction is already a decoded FRAME (R98). -/
def decode : Transaction → Decoded
  | .line bytes => decodeLine bytes
  | .frame px => .cmd (.frame px)

/-! ## The bits of a table row -/

/-- The first `k` bytes of w, the least significant first. -/
def wordBytes (w : Nat) : Nat → List Byte
  | 0 => []
  | k + 1 => BitVec.ofNat 8 w :: wordBytes (w / 256) k

/-- The instruction the decoder reads from an instruction whose bits are w (log 17): the bytes are one line, its 0x0A (if
one is among them) ending it. -/
def decodeTableWord (nbits w : Nat) : Option Instr :=
  match decodeLine (beforeLF (wordBytes w (nbits / 8))) with
  | .cmd i => some i
  | .drop _ => none

/-! ## The encoder: the canonical spelling (R95) -/

/-- The byte of a decimal digit. -/
def digitByte (d : Nat) : Byte := BitVec.ofNat 8 (0x30 + d)

/-- The decimal digits of n in front of `acc`, for n < 10^fuel. -/
def natTextAux : Nat → Nat → List Byte → List Byte
  | 0, _, acc => acc
  | fuel + 1, n, acc =>
    bif n / 10 == 0 then digitByte (n % 10) :: acc else natTextAux fuel (n / 10) (digitByte (n % 10) :: acc)

/-- n in decimal, no leading zeros. -/
def natText (n : Nat) : List Byte := natTextAux (n + 1) n []

/-- An INT argument: decimal, no `+`, no leading zeros (R95). -/
def intText (v : Int) : List Byte := bif decide (v < 0) then byteMinus :: natText v.natAbs else natText v.natAbs

/-- The decimal fraction digits of r / 2^149, by long division. -/
def fracText : Nat → Nat → List Byte
  | 0, _ => []
  | fuel + 1, r => bif r == 0 then [] else digitByte (r * 10 / f32Scale) :: fracText fuel (r * 10 % f32Scale)

/-- A NUM argument, and a BRIGHT fraction: the exact decimal of the binary32 value, always with a `.` (R95 admits any
decimal that rounds back; log 16). -/
def numText (x : F32) : List Byte :=
  let r := f32Mag x % f32Scale
  (bif f32Sign x then [byteMinus] else []) ++ natText (f32Mag x / f32Scale) ++ byteDot
    :: (bif r == 0 then [digitByte 0] else fracText 149 r)

/-- The mnemonic and each argument preceded by one 0x20 (R95), without the 0x0A. -/
def spell (m : Mnemonic) (args : List (List Byte)) : List Byte :=
  mnemonicBytes m ++ (args.map (byteSpace :: ·)).flatten

/-- The transaction that carries a command (R80, R95, R98). -/
def encode : Instr → Transaction
  | .color r g b => .line (spell .COLOR [intText r, intText g, intText b])
  | .pix idx r g b => .line (spell .PIX [intText idx, intText r, intText g, intText b])
  | .bright b => .line (spell .BRIGHT [numText b])
  | .gamma g => .line (spell .GAMMA [numText g])
  | .smooth a => .line (spell .SMOOTH [numText a])
  | .showStrip => .line (spell .SHOW [])
  | .clear => .line (spell .CLEAR [])
  | .status => .line (spell .STATUS [])
  | .frame px => .frame px

end Sys2Proof
end

