-- ==== Sys2Proof/Machine/Channels.lean ====
section
/-! DEFINITION. Command channels (43_commands.md R210-R217): the host actions OPEN_CH, CLOSE_CH and RECV, line extraction,
overlong lines, and what a line comes to. -/

namespace Sys2Proof.Machine

/-- `OPEN_CH(k)` (43_commands.md R211): possible only in RUN, with room for one more, and for an id no existing channel has
(93 I15); otherwise nothing happens (log 8, log 15). -/
def openChannel (k : Nat) (s : State) : State :=
  bif s.mode == .run && roomForChannel s.params s.channels.length && (findChannel k s).isNone then
    s.withChannels (insertChannel (newChannel k) s.channels)
  else s

/-- `CLOSE_CH(k)` (43_commands.md R211): no more bytes; the complete lines in ACC still run. -/
def closeChannel (k : Nat) (s : State) : State := updateChannel k (fun c => { c with openState := .closing }) s

/-- ACC once `bytes` have arrived (43_commands.md R212, R213): while an overlong line is being skipped, the bytes before its
0x0A are discarded as they arrive. -/
def appendBytes (bytes : List Byte) (c : Channel) : Channel :=
  bif c.discard && !hasLF c.acc then { c with acc := c.acc ++ bytes.dropWhile (· != byteLF) }
  else { c with acc := c.acc ++ bytes }

/-- The first case of 43_commands.md R213: after a RECV, more than LINE_MAX bytes and no 0x0A among them. -/
def accOverlong (p : Params) (c : Channel) : Bool := !hasLF c.acc && !c.discard && overLineMax p c.acc.length

/-- The complete lines in ACC discarded, not decoded, without an event (43_commands.md R217); the partial line stays. -/
def discardLines (c : Channel) : Channel :=
  bif hasLF c.acc then { c with acc := (c.acc.reverse.takeWhile (· != byteLF)).reverse, discard := false } else c

/-- In SHUTDOWN no line is started any more, so those that arrive are discarded (43_commands.md R217; log 10). -/
def settleLines (m : Mode) (c : Channel) : Channel :=
  match m with
  | .shutdown => discardLines c
  | _ => c

/-- `RECV(k, bytes)` (43_commands.md R212): possible only when OPEN = open. -/
def receive (k : Nat) (bytes : List Byte) (s : State) : State :=
  match findChannel k s with
  | none => s
  | some c =>
    match c.openState with
    | .closing => s
    | .opened =>
      bif accOverlong s.params (appendBytes bytes c) then
        emit .lineOverlong (.ch k) .none (updateChannel k (fun c => { c with acc := [], discard := true }) s)
      else updateChannel k (fun c => settleLines s.mode (appendBytes bytes c)) s

/-- What the first complete line of ACC comes to. -/
inductive LineFate where
  /-- The tail of an overlong line: dropped with no event (43_commands.md R212). -/
  | tail
  /-- Longer than LINE_MAX: dropped with E_LINE_OVERLONG in place of decoding (R213). -/
  | overlong
  /-- A drop verdict of the decoder (R216). -/
  | dropped (d : DropCode)
  /-- A command to run (R214). -/
  | command (i : Instr)
deriving DecidableEq, Repr

/-- The fate of the first complete line (43_commands.md R212-R214). -/
def lineFate (p : Params) (c : Channel) : LineFate :=
  bif c.discard then .tail
  else bif overLineMax p (beforeLF c.acc).length then .overlong
  else match decodeLine (beforeLF c.acc) with
    | .drop d => .dropped d
    | .cmd i => .command i

/-- The channel without its first complete line and that line's 0x0A (43_commands.md R212). -/
def removeLine (c : Channel) : Channel := { c with acc := afterLF c.acc, discard := false }

/-- A channel step on a complete line (43_commands.md R212-R214, R216): the line is removed; a dropped line leaves its event; a
command starts, the channel BUSY and waiting for LOCK. -/
def takeLine (k : Nat) (fate : LineFate) (s : State) : State :=
  let removed := updateChannel k removeLine s
  match fate with
  | .tail => removed
  | .overlong => emit .lineOverlong (.ch k) .none removed
  | .dropped d => emit (dropEvent d) (.ch k) .none removed
  | .command i => setJob (.ch k) (.waitLock i) removed

/-- The channel can take a line: not BUSY, MODE = RUN, and a complete line has arrived (43_commands.md R212, R217). -/
def canTakeLine (s : State) (c : Channel) : Bool := !c.busy && s.mode == .run && hasLF c.acc

/-- The channel is to be removed: closing, not BUSY, no complete line left (43_commands.md R211; log 11). -/
def canRemove (c : Channel) : Bool := c.openState == .closing && !c.busy && !hasLF c.acc

end Sys2Proof.Machine
end

