-- ==== Sys2Proof/Machine/System.lean ====
section
/-! DEFINITION. SYS (70_reset_and_hazards.md): the boot, the shutdown request, the final clear and the stop; and elapsed
time. -/

namespace Sys2Proof.Machine

/-- The device configured at open (42_bus_writer.md R190, R191). -/
def openedDevice (p : Params) : SpiConfig := { mode := p.spiMode, wordBits := p.spiWordBits, clockHz := p.spiClockHz }

/-- Steps 1 and 2 of the boot (70_reset_and_hazards.md R321): build(GAMMA), T and O zeroed. -/
def bootColor (s : State) : State :=
  onColor (fun c => clearColor s.params.n { c with mem := { c.mem with lut := buildLut c.gamma } }) s

/-- The boot sequence (70_reset_and_hazards.md R321), in one step, since no other agent steps during INIT (log 13).
Parameters outside their ranges are refused (R323). -/
def boot (r : DevOpen) (s : State) : Host.Outcome State Fault Refusal :=
  bif paramsLegal s.params then
    match r with
    | .fail => .next (failOpen (bootColor s))
    | .ok => .next (((bootColor s).withDevice (some (openedDevice s.params))).withMode .run)
  else .refused .illegalParameters

/-- FS when MODE becomes SHUTDOWN (44_frame_port.md R265): a FRAME already started goes on; otherwise straight to HALT. DESIGN
CHOICE (log 27): no request is outstanding then, since it is made only with its answer. -/
def haltFs (f : FrameSeq) : FrameSeq :=
  match f.state with
  | .waitBus => f
  | _ => { f with state := .halt }

/-- `SHUTDOWN_REQ` (70_reset_and_hazards.md R324, 43_commands.md R217): accepted only in RUN. -/
def shutdownRequest (s : State) : State :=
  bif s.mode == .run then
    ((s.withMode .shutdown).withFs (haltFs s.fs)).withChannels (s.channels.map discardLines)
  else s

/-- A channel with no command in progress. -/
def channelQuiet (c : Channel) : Bool := !c.busy && c.job == .idle

/-- Every started command and FRAME has completed, LOCK is free and the bus IDLE (70_reset_and_hazards.md R324). -/
def quiescent (s : State) : Bool :=
  s.channels.all channelQuiet && s.fs.job == .idle && lockFree s.lock && busIdle s

/-- The final clear (70_reset_and_hazards.md R324): LOCK acquired by SYS, clear, and the transfer of the zeros
requested (log 24). -/
def finalClear (s : State) : State :=
  let cleared := onColor (clearColor s.params.n) (s.withLock (.held .sys))
  requestTransfer .sys (snapshot cleared.color) cleared

/-- The end of the shutdown (70_reset_and_hazards.md R324): LOCK released, every channel removed, the device released,
MODE <- STOPPED. -/
def stopBlock (s : State) : State :=
  ((((s.withLock .free).withSysJob .idle).withChannels []).withDevice none).withMode .stopped

/-- A step of SYS in SHUTDOWN (70_reset_and_hazards.md R324). -/
def shutdownStep (s : State) : State :=
  match s.sysJob with
  | .idle => bif quiescent s then finalClear s else s
  | .transfer => bif s.bus.client == some .sys then s else stopBlock s
  | _ => s

/-- `d` time units elapse: both timers count down to 0 (42_bus_writer.md R185, 60_exceptions.md R292; log 5). -/
def elapse (d : Nat) (s : State) : State :=
  (s.withBus { s.bus with latchLeft := s.bus.latchLeft - d }).withFs { s.fs with timer := s.fs.timer - d }

end Sys2Proof.Machine
end

