-- ==== Sys2Proof/Machine/Agents.lean ====
section
/-! DEFINITION. What each action does (00_scope.md R7): the steps of CH[k] (43_commands.md R212), FS (44_frame_port.md R260),
BUS and SYS, the host inputs, and the modes that gate them (10_state.md R23). An action that is not enabled changes nothing
(log 8). -/

namespace Sys2Proof.Machine

/-- An agent with a command in progress goes on with it (43_commands.md R218, 42_bus_writer.md R188, R189): it runs its
section if LOCK lets it, or takes BUS_LOCK, or finishes once the bus has released it. -/
def jobStep (a : Agent) (j : Job) (s : State) : Host.Outcome State Fault Refusal :=
  match j with
  | .idle => .next s
  | .waitLock i => exec i (s.withActor a)
  | .waitBus bytes => .next (acquireBusLock a bytes s)
  | .transfer => .next (finishTransfer a s)

/-- A channel takes its next line and runs what it comes to: a decoded command is run at once (it waits if LOCK is held). -/
def runLine (k : Nat) (fate : LineFate) (s : State) : Host.Outcome State Fault Refusal :=
  match fate with
  | .command i => exec i ((takeLine k (.command i) s).withActor (.ch k))
  | f => .next (takeLine k f s)

/-- A channel with no command in progress (43_commands.md R211, R212): a line if there is one to take, or its removal. -/
def idleChannelStep (k : Nat) (c : Channel) (s : State) : Host.Outcome State Fault Refusal :=
  bif canTakeLine s c then runLine k (lineFate s.params c) s
  else bif canRemove c then .next (removeChannel k s)
  else .next s

/-- A step of CH[k]. -/
def chStep (k : Nat) (s : State) : Host.Outcome State Fault Refusal :=
  match findChannel k s with
  | none => .next s
  | some c =>
    match c.job with
    | .idle => idleChannelStep k c s
    | j => jobStep (.ch k) j s

/-- CH[k] takes a line and, if it is a command, leaves it waiting for LOCK (20_memory.md R60; log 1). -/
def chStart (k : Nat) (s : State) : State :=
  match findChannel k s with
  | none => s
  | some c => bif c.job == .idle && canTakeLine s c then takeLine k (lineFate s.params c) s else s

/-- FS's request answered by px (44_frame_port.md R260, R261): FRAME(px) has started. -/
def frameRequested (px : List Pixel) (s : State) : State := setJob .fs (.waitLock (.frame px)) s

/-- A step of FS (44_frame_port.md R260, R264): the request and its FRAME, the FRAME's progress, or the end of the sleep. DESIGN
CHOICE (log 27): the request and UPSTREAM's answer are one step, so FS never stands between the two. -/
def fsStep (px : List Pixel) (s : State) : Host.Outcome State Fault Refusal :=
  match s.fs.state with
  | .req => bif s.mode == .run then exec (.frame px) ((frameRequested px s).withActor .fs) else .next s
  | .waitBus => jobStep .fs s.fs.job s
  | .sleep => bif s.mode == .run && s.fs.timer == 0 then .next (s.withFs { s.fs with state := .req }) else .next s
  | .halt => .next s

/-- FS makes its request, has its answer in the same step (DESIGN CHOICE, log 27), and leaves FRAME waiting for LOCK (log 1). -/
def fsStart (px : List Pixel) (s : State) : State :=
  match s.fs.state with
  | .req => bif s.mode == .run then frameRequested px s else s
  | _ => s

/-- A step of SYS outside INIT: the shutdown sequence. -/
def sysStep (s : State) : State :=
  match s.mode with
  | .shutdown => shutdownStep s
  | _ => s

/-- An action in RUN or SHUTDOWN. -/
def act (a : Action) (s : State) : Host.Outcome State Fault Refusal :=
  match a with
  | .sys _ => .next (sysStep s)
  | .bus res => .next (busStep res s)
  | .ch k => chStep k s
  | .chStart k => .next (chStart k s)
  | .fs px => fsStep px s
  | .fsStart px => .next (fsStart px s)
  | .openCh k => .next (openChannel k s)
  | .closeCh k => .next (closeChannel k s)
  | .recv k bytes => .next (receive k bytes s)
  | .shutdownReq => .next (shutdownRequest s)
  | .reset => .next (resetBlock s)
  | .tick d => .next (elapse d s)

/-- An action in MODE INIT: only the boot steps (70_reset_and_hazards.md R321). -/
def actInit (a : Action) (s : State) : Host.Outcome State Fault Refusal :=
  match a with
  | .sys r => boot r s
  | .reset => .next (resetBlock s)
  | _ => .next s

/-- An action in FAILED: the terminal fault, but for the reset input (60_exceptions.md R283, 93 I20; log 12). -/
def actFailed (a : Action) (s : State) : Host.Outcome State Fault Refusal :=
  match a with
  | .reset => .next (resetBlock s)
  | _ => .fault .deviceOpenFailed

/-- An action in STOPPED: no agent steps; only the reset input has an effect (70_reset_and_hazards.md R325; log 12). -/
def actStopped (a : Action) (s : State) : Host.Outcome State Fault Refusal :=
  match a with
  | .reset => .next (resetBlock s)
  | _ => .next s

/-- What an action does in each mode (10_state.md R23). -/
def stepAction (a : Action) (s : State) : Host.Outcome State Fault Refusal :=
  match s.mode with
  | .init => actInit a s
  | .run => act a s
  | .failed => actFailed a s
  | .shutdown => act a s
  | .stopped => actStopped a s

/-- The environment's next choice (log 2): the script's first action, or a free one when the script is used up. -/
def nextAction (s : State) : Action :=
  match s.script with
  | a :: _ => a
  | [] => Config.freeAction s.drawn

/-- The choice taken off the script, or counted as drawn. -/
def consume (s : State) : State :=
  match s.script with
  | _ :: rest => s.withScript rest s.drawn
  | [] => s.withScript [] (s.drawn + 1)

/-- The state in which channel 0 holds `line` and its 0x0A, and takes it up in the very next step (log 17): MODE is RUN, the
locks are free, the bus is IDLE, and CH[0] is the next agent to move. -/
def placeLine (line : List Byte) (s : State) : State :=
  { s with
    mode := .run
    lock := .free
    bus := { s.bus with state := .idle, frame := [], client := none, lock := .free }
    channels := insertChannel { newChannel 0 with acc := line ++ [byteLF] } (s.channels.filter fun c => !(c.id == 0))
    script := .ch 0 :: s.script }

end Sys2Proof.Machine
end

