-- ==== Sys2Proof/Machine/Step.lean ====
section
/-! DEFINITION. One step of the block: the environment's next choice, carried out. -/

namespace Sys2Proof.Machine

/-- One step: the next action (script or free draw) in the current mode. -/
def step (s : State) : Host.Outcome State Fault Refusal := stepAction (nextAction s) (consume s)

/-- s with an instruction's bits stored where the next step fetches its next instruction: as the first line of channel 0,
whose turn is next (log 17). -/
def State.withFetchWord (s : State) (nbits w : Nat) : State := placeLine (beforeLF (wordBytes w (nbits / 8))) s

end Sys2Proof.Machine
end

