-- ==== Sys2Proof/Safety.lean ====
section
/-! DEFINITION. What counts as a good state of the block and a good run, in the terms the statements use: the invariants of
10_state.md R24-R32, of the locks (20_memory.md R60, R63; 42_bus_writer.md R187-R189), of the transfers (30_encoding.md
R99), and of the commands in progress; rounding over the rationals; and what a command leaves when its section ends. -/

namespace Sys2Proof.Machine

/-! ## Reading a state -/

/-- Where agent a stands in its command (log 7). -/
def jobOf (a : Agent) (s : State) : Job :=
  match a with
  | .ch k =>
    match findChannel k s with
    | some c => c.job
    | none => .idle
  | .fs => s.fs.job
  | .bus => .idle
  | .sys => s.sysJob

/-- Who holds a lock. -/
def lockHolder : Lock → Option Agent
  | .free => none
  | .held a => some a

/-- The agent whose transfer the locks protect: the holder of LOCK under IN_LOCK (42_bus_writer.md R188); under SNAPSHOT the
holder of BUS_LOCK (R189), or SYS holding LOCK for the final transfer (70_reset_and_hazards.md R324). -/
def transferHolder (s : State) : Option Agent :=
  match s.params.busOrder with
  | .inLock => lockHolder s.lock
  | .snapshot =>
    match lockHolder s.bus.lock with
    | some a => some a
    | none => lockHolder s.lock

/-- A command that ends in a transfer (43_commands.md R218, 44_frame_port.md R262). -/
def transfers : Instr → Bool
  | .color _ _ _ => true
  | .pix _ _ _ _ => true
  | .bright _ => true
  | .gamma _ => true
  | .smooth _ => false
  | .showStrip => true
  | .clear => true
  | .status => false
  | .frame _ => true

/-- The command of the frame port, which no line spells (30_encoding.md R98). -/
def isFrame : Instr → Bool
  | .color _ _ _ => false
  | .pix _ _ _ _ => false
  | .bright _ => false
  | .gamma _ => false
  | .smooth _ => false
  | .showStrip => false
  | .clear => false
  | .status => false
  | .frame _ => true

/-! ## Invariants -/

/-- Color State outside atomic sections: the spaces have their lengths (10_state.md R29-R33), the registers hold legal values
(R24-R27), LUT = build(GAMMA) (R25), and O = shape(T) (R32). -/
structure ColorInv (p : Params) (c : ColorState) : Prop where
  mem_wf : c.mem.wf p.n = true
  lut_built : c.mem.lut = buildLut c.gamma
  gamma_legal : gammaLegal c.gamma = true
  bright_legal : unitLegal c.bright = true
  alpha_legal : unitLegal c.alpha = true
  output_shaped : c.mem.o = c.mem.t.map (shape c.mem.lut c.bright)

/-- No T entry is a NaN, an infinity or -0.0 (41_color_state.md R143, R154). -/
def TargetsFinite (m : Memory) : Prop := ∀ t ∈ m.t, f32Finite t = true ∧ t ≠ f32NegZero

/-- A waiting command is one its source can carry: a line's command for a channel, FRAME for FS (30_encoding.md R90). -/
def jobCarries (fromPort : Bool) : Job → Bool
  | .waitLock i => i.wf && (isFrame i == fromPort)
  | _ => true

/-- The parameters are legal (70_reset_and_hazards.md R323) and every waiting command is one its source can carry. -/
structure CommandInv (s : State) : Prop where
  params_legal : paramsLegal s.params = true
  channel_jobs : ∀ c ∈ s.channels, jobCarries false c.job = true
  frame_job : jobCarries true s.fs.job = true

/-- The lock discipline (20_memory.md R60, 42_bus_writer.md R187-R189, 43_commands.md R214, 44_frame_port.md R260): exactly
the holder of the transfer has a transfer in progress; the bus works for it, or is IDLE; BUSY and WAIT_BUS mean a command in
progress. -/
structure LockInv (s : State) : Prop where
  ids_rising : channelsWf s.channels = true
  holder_transfers : ∀ a, jobOf a s = .transfer ↔ transferHolder s = some a
  idle_no_client : s.bus.state = .idle → s.bus.client = none
  busy_for_holder : s.bus.state ≠ .idle → s.bus.client = transferHolder s ∧ s.bus.client ≠ none
  in_lock : s.params.busOrder = .inLock → s.bus.lock = .free ∧ ∀ a bytes, jobOf a s ≠ .waitBus bytes
  by_snapshot : s.params.busOrder = .snapshot →
    s.bus.lock ≠ .held .sys ∧ (s.lock = .free ∨ (s.lock = .held .sys ∧ s.bus.lock = .free))
  final_transfer : s.sysJob ≠ .idle →
    s.sysJob = .transfer ∧ s.mode = .shutdown ∧ s.fs.job = .idle ∧ ∀ c ∈ s.channels, c.job = .idle
  busy_iff_job : ∀ c ∈ s.channels, (c.busy = true ↔ c.job ≠ .idle)
  wait_iff_job : s.fs.state = .waitBus ↔ s.fs.job ≠ .idle

/-- A snapshot waiting for BUS_LOCK is a whole frame (41_color_state.md R149). -/
def jobFrameLength (n : Nat) : Job → Bool
  | .waitBus bytes => bytes.length == 3 * n
  | _ => true

/-- A BUSLOG record of the block (10_state.md R39): exactly 3N bytes (30_encoding.md R99) and an answer DEV_XFER can give
(00_scope.md R6). -/
def recordLegal (n : Nat) (r : BusRecord) : Bool :=
  r.bytes.length == 3 * n &&
    (match r.result with
     | .done k => Nat.ble k (3 * n)
     | .ioerror => true)

/-- Every transfer is exactly one whole frame of 3N bytes (30_encoding.md R99). -/
structure TransferInv (s : State) : Prop where
  frame_length : s.bus.state ≠ .idle → s.bus.frame.length = 3 * s.params.n
  channel_snapshots : ∀ c ∈ s.channels, jobFrameLength s.params.n c.job = true
  fs_snapshot : jobFrameLength s.params.n s.fs.job = true
  records_legal : ∀ r ∈ s.buslog, recordLegal s.params.n r = true

/-! ## Real values (00_scope.md R9, R10) -/

/-- `real(x)` of a finite x. -/
def f32Value (x : F32) : ℚ := f32Units x / 2 ^ 149

/-- x is the binary32 value nearest to r, ties to even: x is finite, no finite value is nearer, and where another value is
as near, the last bit of x is 0. -/
def NearestEven (r : ℚ) (x : F32) : Prop :=
  f32Finite x = true ∧ ∀ y, f32Finite y = true →
    |f32Value x - r| ≤ |f32Value y - r| ∧
      (|f32Value x - r| = |f32Value y - r| → f32Value y = f32Value x ∨ x.toNat % 2 = 0)

/-- Where rounding to nearest gives an infinity (30_encoding.md R89). -/
def overflowBound : ℚ := 2 ^ 128 - 2 ^ 103

/-- x is r rounded (00_scope.md R10) with the sign `neg`: the nearest binary32 value, ties to even, or from the bound on the
infinity of that sign. -/
structure RoundsTo (r : ℚ) (neg : Bool) (x : F32) : Prop where
  nearest : |r| < overflowBound → NearestEven r x
  overflow : overflowBound ≤ |r| → x = (if neg then 0xFF800000#32 else 0x7F800000#32)
  sign : f32Sign x = neg

/-! ## The pieces of a NUM token (30_encoding.md R89) -/

/-- SIGN? of 30_encoding.md R88. -/
def IsSign (s : List Byte) : Prop := s = [] ∨ s = [bytePlus] ∨ s = [byteMinus]

/-- DIGIT* of 30_encoding.md R88. -/
def IsDigits (s : List Byte) : Prop := ∀ c ∈ s, 0x30 ≤ c.toNat ∧ c.toNat ≤ 0x39

/-- The number that decimal digits spell. -/
def digitsNumber (s : List Byte) : Nat := Nat.ofDigits 10 (s.reverse.map fun c => c.toNat - 0x30)

/-- `SIGN? MANT EXP?`: `point` says whether a `.` stands after `whole`, `expByte` is the `e` or `E` if there is one. -/
structure NumToken where
  sign : List Byte
  whole : List Byte
  point : Bool
  frac : List Byte
  expByte : Option Byte
  expSign : List Byte
  expDigits : List Byte
deriving DecidableEq, Repr

/-- EXP?. -/
def NumToken.expText (p : NumToken) : List Byte :=
  match p.expByte with
  | none => []
  | some e => e :: (p.expSign ++ p.expDigits)

/-- The token. -/
def NumToken.text (p : NumToken) : List Byte :=
  p.sign ++ p.whole ++ (if p.point then byteDot :: p.frac else []) ++ p.expText

/-- The grammar of 30_encoding.md R89. -/
structure NumToken.Legal (p : NumToken) : Prop where
  sign : IsSign p.sign
  whole : IsDigits p.whole
  frac : IsDigits p.frac
  mantissa : p.whole ≠ [] ∨ (p.point = true ∧ p.frac ≠ [])
  no_point : p.point = false → p.frac = []
  exp_byte : ∀ e, p.expByte = some e → (e = 0x65#8 ∨ e = 0x45#8) ∧ p.expDigits ≠ []
  exp_sign : IsSign p.expSign
  exp_digits : IsDigits p.expDigits

/-- The exponent it spells, 0 without EXP. -/
def NumToken.exponent (p : NumToken) : Int :=
  match p.expByte with
  | none => 0
  | some _ => if p.expSign = [byteMinus] then -(digitsNumber p.expDigits : Int) else digitsNumber p.expDigits

/-- The magnitude of the exact decimal rational it spells. -/
def NumToken.magnitude (p : NumToken) : ℚ :=
  digitsNumber (p.whole ++ p.frac) * (10 : ℚ) ^ (p.exponent - p.frac.length)

/-- The exact decimal rational it spells. -/
def NumToken.value (p : NumToken) : ℚ := if p.sign = [byteMinus] then -p.magnitude else p.magnitude

/-- An argument that fails its grammar: INT, BARG or NUM by the mnemonic's kind (30_encoding.md R85, R91). -/
def ArgumentFails (m : Mnemonic) (tok : List Byte) : Prop :=
  match m with
  | .COLOR => parseInt tok = none
  | .PIX => parseInt tok = none
  | .BRIGHT => parseBright tok = none
  | .GAMMA => parseNum tok = none
  | .SMOOTH => parseNum tok = none
  | .SHOW => False
  | .CLEAR => False
  | .STATUS => False

/-! ## What a command leaves when its section ends -/

/-- The value for channel index j of one color for every LED (43_commands.md R220, 00_scope.md R12). -/
def channelOf (r g b : F32) (j : Nat) : F32 := if j % 3 = 0 then r else if j % 3 = 1 then g else b

/-- Byte j of flat(px) (30_encoding.md R98). -/
def frameByte (px : List Pixel) (j : Nat) : Byte :=
  match px[j / 3]? with
  | none => 0#8
  | some (r, g, b) => if j % 3 = 0 then r else if j % 3 = 1 then g else b

/-- Every output byte is shape of its target (41_color_state.md R144). -/
def Reshaped (c : ColorState) : Prop :=
  ∀ j t, memRead .t j c.mem = some (.real t) → memRead .o j c.mem = some (.byte (shape c.mem.lut c.bright t))

/-- c' is c with target j changed from t to `target j t`, every output reshaped, and nothing else changed. -/
structure Retargeted (n : Nat) (target : Nat → F32 → F32) (c c' : ColorState) : Prop where
  gamma : c'.gamma = c.gamma
  bright : c'.bright = c.bright
  alpha : c'.alpha = c.alpha
  lengths : c'.mem.wf n = true
  lut : ∀ i, memRead .lut i c'.mem = memRead .lut i c.mem
  targets : ∀ j t, memRead .t j c.mem = some (.real t) → memRead .t j c'.mem = some (.real (target j t))
  outputs : Reshaped c'

/-- t is s but for Color State, EVLOG, LOCK, the bus, and agent a's own progress: its command stands at j, a channel's BUSY is
`busy`, and FS is in WAIT_BUS. -/
structure OnlyAgentMoves (a : Agent) (busy : Bool) (j : Job) (s t : State) : Prop where
  params : t.params = s.params
  mode : t.mode = s.mode
  channels : t.channels = s.channels.map fun c => if Agent.ch c.id = a then { c with busy := busy, job := j } else c
  frame_sequencer : t.fs = if a = .fs then { s.fs with state := .waitBus, job := j } else s.fs
  buslog : t.buslog = s.buslog
  sys_job : t.sysJob = s.sysJob
  device : t.device = s.device
  actor : t.actor = s.actor
  choices : t.script = s.script ∧ t.drawn = s.drawn

/-- Agent a's transferring command has ended its section with the Color State of t: under IN_LOCK it holds LOCK and its
transfer of O is requested (42_bus_writer.md R181, R188); under SNAPSHOT LOCK is free and it waits for BUS_LOCK with O as its
snapshot (R189). -/
structure TransferStarted (a : Agent) (s t : State) : Prop where
  in_lock : s.params.busOrder = .inLock →
    t.lock = .held a ∧ t.bus = { s.bus with state := .xfer, frame := t.color.mem.o, client := some a } ∧
      OnlyAgentMoves a true .transfer s t
  by_snapshot : s.params.busOrder = .snapshot →
    t.lock = .free ∧ t.bus = s.bus ∧ OnlyAgentMoves a true (.waitBus t.color.mem.o) s t

/-- Agent a's non-transferring command is complete (43_commands.md R218). -/
structure PlainDone (a : Agent) (s t : State) : Prop where
  lock : t.lock = .free
  bus : t.bus = s.bus
  moves : OnlyAgentMoves a false .idle s t

/-- A transferring command may begin its section (20_memory.md R60, 42_bus_writer.md R181): LOCK is free and, under IN_LOCK,
the bus is IDLE. -/
def TransferMayBegin (s : State) : Prop := s.lock = .free ∧ (s.params.busOrder = .inLock → s.bus.state = .idle)

/-! ## Runs -/

/-- CH[k] is c, has no command in progress, and its first complete line decodes to i (43_commands.md R212-R214). -/
structure LineReady (k : Nat) (c : Channel) (i : Instr) (s : State) : Prop where
  channel : findChannel k s = some c
  no_job : c.job = .idle
  not_busy : c.busy = false
  complete : hasLF c.acc = true
  not_skipping : c.discard = false
  not_overlong : overLineMax s.params (beforeLF c.acc).length = false
  decodes : decodeLine (beforeLF c.acc) = .cmd i

/-- Nothing is in progress anywhere: no command, no lock held, the bus IDLE. -/
structure AllQuiet (s : State) : Prop where
  channels : ∀ c ∈ s.channels, c.busy = false ∧ c.job = .idle
  fs : s.fs.job = .idle ∧ s.fs.state ≠ .waitBus
  sys : s.sysJob = .idle
  lock : s.lock = .free
  bus : s.bus.state = .idle ∧ s.bus.client = none ∧ s.bus.lock = .free

/-- The step goes on: neither the fault of FAILED nor a refusal. -/
def goesOn (s : State) : Prop := ∃ t, step s = .next t

end Sys2Proof.Machine
end

