-- ==== Sys2Proof/Certificates/Slice0/Obligations.lean ====
section
/-! DEFINITION. The statements for the provers. Each docstring names the rule of spec/ it formalises; where a clause rests on a
choice of the model, it names the log entry. -/

open Sys2Proof Sys2Proof.Machine

/-! ## Encoding (30_encoding.md) -/

/-- Every command an encoding can carry is read back whole from its canonical spelling (R91, R95, R98). The exact-decimal
spelling of a NUM is the model's choice (log 16). -/
def Obligations.DecodeEncodeAgree : Prop := ∀ i : Instr, i.wf = true → decode (encode i) = .cmd i

/-- What a line decodes to is within the ranges of R88-R90 (an i32, a finite f32) and is never FRAME (R98). -/
def Obligations.DecodedCommandsAreWellFormed : Prop :=
  ∀ (line : List Byte) (i : Instr), decodeLine line = .cmd i → i.wf = true ∧ isFrame i = false

/-- The six example encodings of R97, byte for byte, each line ending in 0x0A. -/
def Obligations.ExampleEncodingsDecode : Prop :=
  decodeLine (beforeLF [0x43#8, 0x4F#8, 0x4C#8, 0x4F#8, 0x52#8, 0x20#8, 0x31#8, 0x30#8, 0x30#8, 0x20#8, 0x31#8, 0x35#8,
      0x30#8, 0x20#8, 0x32#8, 0x30#8, 0x30#8, 0x0A#8]) = .cmd (.color 100 150 200) ∧
    decodeLine (beforeLF [0x50#8, 0x49#8, 0x58#8, 0x20#8, 0x39#8, 0x39#8, 0x39#8, 0x39#8, 0x20#8, 0x31#8, 0x30#8, 0x20#8,
      0x31#8, 0x30#8, 0x20#8, 0x31#8, 0x30#8, 0x0A#8]) = .cmd (.pix 9999 10 10 10) ∧
    decodeLine (beforeLF [0x42#8, 0x52#8, 0x49#8, 0x47#8, 0x48#8, 0x54#8, 0x20#8, 0x38#8, 0x30#8, 0x0A#8]) =
      .cmd (.bright 0x3F4CCCCD#32) ∧
    decodeLine (beforeLF [0x42#8, 0x52#8, 0x49#8, 0x47#8, 0x48#8, 0x54#8, 0x20#8, 0x30#8, 0x2E#8, 0x38#8, 0x0A#8]) =
      .cmd (.bright 0x3F4CCCCD#32) ∧
    decodeLine (beforeLF [0x46#8, 0x4F#8, 0x4F#8, 0x0A#8]) = .drop .unknown ∧
    decodeLine (beforeLF [0x53#8, 0x48#8, 0x4F#8, 0x57#8, 0x0A#8]) = .cmd .showStrip

/-- The tokens of a line are its maximal runs of bytes outside the five whitespace bytes (R83, R84): a run is one token, a
whitespace byte anywhere cuts the line, and a trailing CR changes no verdict. -/
def Obligations.TokensAreMaximalRuns : Prop :=
  (∀ c : Byte, isSpaceByte c = true ↔ c = 0x20#8 ∨ c = 0x09#8 ∨ c = 0x0B#8 ∨ c = 0x0C#8 ∨ c = 0x0D#8) ∧
    tokens [] = [] ∧
    (∀ run : List Byte, run ≠ [] → (∀ c ∈ run, isSpaceByte c = false) → tokens run = [run]) ∧
    (∀ (a b : List Byte) (c : Byte), isSpaceByte c = true → tokens (a ++ c :: b) = tokens a ++ tokens b) ∧
    ∀ line : List Byte, decodeLine (line ++ [0x0D#8]) = decodeLine line

/-- The five formats of R87 (with R85's token bytes): field k is token k, and whatever follows the arity is ignored (R86). -/
def Obligations.LineFormats : Prop :=
  (∀ (line a b c : List Byte) (more : List (List Byte)) (r g bl : Int),
      tokens line = [0x43#8, 0x4F#8, 0x4C#8, 0x4F#8, 0x52#8] :: a :: b :: c :: more →
      parseInt a = some r → parseInt b = some g → parseInt c = some bl → decodeLine line = .cmd (.color r g bl)) ∧
    (∀ (line a b c d : List Byte) (more : List (List Byte)) (idx r g bl : Int),
      tokens line = [0x50#8, 0x49#8, 0x58#8] :: a :: b :: c :: d :: more →
      parseInt a = some idx → parseInt b = some r → parseInt c = some g → parseInt d = some bl →
      decodeLine line = .cmd (.pix idx r g bl)) ∧
    (∀ (line a : List Byte) (more : List (List Byte)) (x : F32),
      tokens line = [0x42#8, 0x52#8, 0x49#8, 0x47#8, 0x48#8, 0x54#8] :: a :: more → parseBright a = some x →
      decodeLine line = .cmd (.bright x)) ∧
    (∀ (line a : List Byte) (more : List (List Byte)) (x : F32),
      tokens line = [0x47#8, 0x41#8, 0x4D#8, 0x4D#8, 0x41#8] :: a :: more → parseNum a = some x →
      decodeLine line = .cmd (.gamma x)) ∧
    (∀ (line a : List Byte) (more : List (List Byte)) (x : F32),
      tokens line = [0x53#8, 0x4D#8, 0x4F#8, 0x4F#8, 0x54#8, 0x48#8] :: a :: more → parseNum a = some x →
      decodeLine line = .cmd (.smooth x)) ∧
    (∀ (line : List Byte) (more : List (List Byte)), tokens line = [0x53#8, 0x48#8, 0x4F#8, 0x57#8] :: more →
      decodeLine line = .cmd .showStrip) ∧
    (∀ (line : List Byte) (more : List (List Byte)), tokens line = [0x43#8, 0x4C#8, 0x45#8, 0x41#8, 0x52#8] :: more →
      decodeLine line = .cmd .clear) ∧
    ∀ (line : List Byte) (more : List (List Byte)),
      tokens line = [0x53#8, 0x54#8, 0x41#8, 0x54#8, 0x55#8, 0x53#8] :: more → decodeLine line = .cmd .status

/-- The checks of R91 in their order: no token, then an unknown token 0, then too few arguments or one that fails its grammar;
and a line that passes them all is a command. -/
def Obligations.DropVerdicts : Prop :=
  ∀ line : List Byte,
    (tokens line = [] → decodeLine line = .drop .empty) ∧
    ∀ (t : List Byte) (args : List (List Byte)), tokens line = t :: args →
      ((∀ m : Mnemonic, mnemonicBytes m ≠ t) → decodeLine line = .drop .unknown) ∧
      ∀ m : Mnemonic, mnemonicBytes m = t →
        (args.length < arity m → decodeLine line = .drop .args) ∧
        ((∃ k, k < arity m ∧ ArgumentFails m (args.getD k [])) → decodeLine line = .drop .args) ∧
        (arity m ≤ args.length → (∀ k, k < arity m → ¬ ArgumentFails m (args.getD k [])) →
          ∃ i, decodeLine line = .cmd i)

/-- INT (R88): SIGN? DIGIT+ in full, the decimal integer it spells, in i32 range. -/
def Obligations.IntegerTokens : Prop :=
  ∀ (tok : List Byte) (v : Int), parseInt tok = some v ↔
    ∃ sign ds : List Byte, IsSign sign ∧ ds ≠ [] ∧ IsDigits ds ∧ tok = sign ++ ds ∧
      v = (if sign = [byteMinus] then -(digitsNumber ds : Int) else digitsNumber ds) ∧
      -2147483648 ≤ v ∧ v ≤ 2147483647

/-- NUM (R89): a token that matches the grammar is the binary32 value nearest to the decimal rational it spells, ties to even,
with the token's sign; it is invalid exactly when that rounds to an infinity; and no other token is a NUM. -/
def Obligations.NumberTokens : Prop :=
  (∀ p : NumToken, p.Legal →
      (|p.value| < overflowBound →
        ∃ x, parseNum p.text = some x ∧ NearestEven p.value x ∧ f32Sign x = decide (p.sign = [byteMinus])) ∧
      (overflowBound ≤ |p.value| → parseNum p.text = none)) ∧
    ∀ (tok : List Byte) (x : F32), parseNum tok = some x → ∃ p : NumToken, p.Legal ∧ p.text = tok

/-- BARG (R92): with a `.` the token is a NUM; without one it is an INT, a percentage when above 1, itself otherwise. The sign
is the integer's, so 0 and `-0` give +0.0 (95_test_vectors.md). -/
def Obligations.BrightTokens : Prop :=
  ∀ tok : List Byte,
    (0x2E#8 ∈ tok → parseBright tok = parseNum tok) ∧
    (0x2E#8 ∉ tok →
      (parseInt tok = none → parseBright tok = none) ∧
      ∀ v : Int, parseInt tok = some v →
        ∃ x, parseBright tok = some x ∧ f32Sign x = decide (v < 0) ∧
          NearestEven (if 1 < v then (v : ℚ) / 100 else v) x)

/-! ## Arithmetic and shaping (00_scope.md, 40_gamma_lut.md, 41_color_state.md) -/

/-- `f32(r)` (00_scope.md R10) of r = ±num/den: the nearest binary32 value, ties to even, with r's sign; an infinity from
2^128 - 2^103 on (30_encoding.md R89). -/
def Obligations.RoundingIsNearestEven : Prop :=
  ∀ (neg : Bool) (num den : Nat), 0 < den →
    f32Sign (f32Round neg num den) = neg ∧
    ((num : ℚ) / den < overflowBound →
      NearestEven (if neg then -((num : ℚ) / den) else (num : ℚ) / den) (f32Round neg num den)) ∧
    (overflowBound ≤ (num : ℚ) / den → f32Round neg num den = (if neg then 0xFF800000#32 else 0x7F800000#32))

/-- fadd, fsub and fmul round their exact result once, to nearest with ties to even, and f32 of an integer is its nearest
binary32 value, exact up to 2^24 in magnitude (00_scope.md R10). From 2^128 - 2^103 on (30_encoding.md R89) the result is the
infinity of its sign. As IEEE 754 has it, an exact zero sum is +0.0 unless both addends are -0.0, and a product has the
exclusive or of its operands' signs, a zero product too. -/
def Obligations.ArithmeticRoundsOnce : Prop :=
  (∀ a b : F32, f32Finite a = true → f32Finite b = true →
      RoundsTo (f32Value a + f32Value b)
        (if f32Value a + f32Value b = 0 then decide (a = f32NegZero ∧ b = f32NegZero)
         else decide (f32Value a + f32Value b < 0)) (fadd a b) ∧
      RoundsTo (f32Value a - f32Value b)
        (if f32Value a - f32Value b = 0 then decide (a = f32NegZero ∧ b = f32Zero)
         else decide (f32Value a - f32Value b < 0)) (fsub a b) ∧
      RoundsTo (f32Value a * f32Value b) (f32Sign a != f32Sign b) (fmul a b)) ∧
    ∀ v : Int, RoundsTo (v : ℚ) (decide (v < 0)) (f32OfInt v) ∧ (v.natAbs ≤ 2 ^ 24 → f32Value (f32OfInt v) = v)

/-- build(g) is the exact-real rule of 40_gamma_lut.md R121 in all 256 entries, with real(g) as the exponent (R126). -/
def Obligations.LutIsTheExactRealTable : Prop :=
  ∀ g : F32, gammaLegal g = true → (buildLut g).length = 256 ∧
    ∀ i : Nat, i < 256 →
      ((lutLookup (buildLut g) i).toNat : ℤ) = ⌊255 * ((i : ℝ) / 255) ^ ((f32Value g : ℚ) : ℝ) + 1 / 2⌋

/-- The table properties of 40_gamma_lut.md R125. -/
def Obligations.LutProperties : Prop :=
  ∀ g : F32, gammaLegal g = true →
    lutLookup (buildLut g) 0 = 0#8 ∧ lutLookup (buildLut g) 255 = 255#8 ∧
    (∀ i i' : Nat, i ≤ i' → i' ≤ 255 → (lutLookup (buildLut g) i).toNat ≤ (lutLookup (buildLut g) i').toNat) ∧
    (g = 0x3F800000#32 → ∀ i : Nat, i ≤ 255 → (lutLookup (buildLut g) i).toNat = i)

/-- shape (41_color_state.md R144, 00_scope.md R14): the index and the byte are the exact-real roundings of the rule. -/
def Obligations.ShapeIsExact : Prop :=
  ∀ (lut : List Byte) (b t : F32), unitLegal b = true → f32Finite t = true →
    let i : ℤ := ⌊max 0 (min 255 (f32Value t)) + 1 / 2⌋
    let o : ℤ := ⌊((lutLookup lut i.toNat).toNat : ℚ) * f32Value b + 1 / 2⌋
    0 ≤ i ∧ i ≤ 255 ∧ ((shape lut b t).toNat : ℤ) = max 0 (min 255 o)

/-- The brightness bound of 41_color_state.md R153: no output exceeds its table entry, and BRIGHT = 0 gives 0. -/
def Obligations.BrightnessBound : Prop :=
  ∀ (lut : List Byte) (b t : F32), unitLegal b = true →
    (shape lut b t).toNat ≤ (lutLookup lut (shapeIndex t)).toNat ∧ (f32Value b = 0 → shape lut b t = 0#8)

/-- One smoothing step at the ends of ALPHA's range (41_color_state.md R143, R152): ALPHA = 0 leaves every finite target that is
not -0.0; ALPHA = 1 gives the new value when its difference to the target is exact. -/
def Obligations.SmoothingEndpoints : Prop :=
  ∀ t n : F32, f32Finite t = true → f32Finite n = true → |f32Value n - f32Value t| < overflowBound →
    (t ≠ f32NegZero → ∀ a : F32, f32Value a = 0 → f32Finite a = true → fadd t (fmul a (fsub n t)) = t) ∧
    (n ≠ f32NegZero → f32Value (fsub n t) = f32Value n - f32Value t → fadd t (fmul f32One (fsub n t)) = n)

/-! ## A step runs the decoded instruction -/

/-- A step of CH[k] with a complete line that decodes to i (43_commands.md R212, R214) is exec of i for CH[k], in the state
where the line and its 0x0A are removed and CH[k] is BUSY with i; the action `chStart k` leaves that state itself, i waiting
for LOCK (20_memory.md R60). That the line is taken and its section begun in one step, and that `chStart` is the action that
parts them, is the model's (log 1, log 7). -/
def Obligations.StepRunsTheDecodedLine : Prop :=
  ∀ (s : State) (k : Nat) (c : Channel) (i : Instr), s.mode = .run → LineReady k c i s →
    let started : State :=
      { consume s with
        channels := s.channels.map fun d =>
          if d.id = k then { d with acc := afterLF d.acc, discard := false, busy := true, job := .waitLock i } else d }
    (nextAction s = .ch k → step s = exec i { started with actor := .ch k }) ∧
      (nextAction s = .chStart k → step s = .next started)

/-- A step of FS in REQ, answered px (44_frame_port.md R260, R261), is exec of FRAME(px) with FS in WAIT_BUS; the action
`fsStart px` leaves that state itself, FRAME waiting for LOCK (20_memory.md R60). WAIT_BUS while FRAME waits for LOCK is the
model's (log 9), and so are the form of the two actions (log 1, log 7) and the request and its answer in one step (log 27). -/
def Obligations.StepRunsTheUpstreamFrame : Prop :=
  ∀ (s : State) (px : List Pixel), s.mode = .run → s.fs.state = .req →
    let started : State := { consume s with fs := { s.fs with state := .waitBus, job := .waitLock (.frame px) } }
    (nextAction s = .fs px → step s = exec (.frame px) { started with actor := .fs }) ∧
      (nextAction s = .fsStart px → step s = .next started)

/-- A command that has started and waits for LOCK is run again by its agent's next step, in SHUTDOWN too (20_memory.md R60,
43_commands.md R217, 44_frame_port.md R265). That the start and the section are two such steps is the model's (log 1, log 7). -/
def Obligations.StepRetriesTheWaitingCommand : Prop :=
  ∀ (s : State) (i : Instr), s.mode = .run ∨ s.mode = .shutdown →
    (∀ (k : Nat) (c : Channel), nextAction s = .ch k → findChannel k s = some c → c.job = .waitLock i →
      step s = exec i { consume s with actor := .ch k }) ∧
    (∀ px : List Pixel, nextAction s = .fs px → s.fs.state = .waitBus → s.fs.job = .waitLock i →
      step s = exec i { consume s with actor := .fs })

/-- While LOCK is held no command begins its section (20_memory.md R60): exec changes nothing. The form of the wait is the
model's (log 23). -/
def Obligations.CommandsWaitForTheLock : Prop :=
  ∀ (i : Instr) (s : State) (a : Agent), i.wf = true → s.lock = .held a → exec i s = .next s

/-! ## What each command does -/

/-- COLOR (43_commands.md R220, 41_color_state.md R143, R144): every target moves one smoothing step toward the color, every
output is reshaped, the transfer starts, and nothing else changes. That all this is one step is the model's (log 1), and so
are the fields that say where the command stands (log 7). -/
def Obligations.ColorResult : Prop :=
  ∀ (r g b : Int) (s : State) (k : Nat), s.color.mem.wf s.params.n = true → s.actor = .ch k → TransferMayBegin s →
    ∃ t, exec (.color r g b) s = .next t ∧ TransferStarted (.ch k) s t ∧
      Retargeted s.params.n
        (fun j x => fadd x (fmul s.color.alpha (fsub (channelOf (f32OfInt r) (f32OfInt g) (f32OfInt b) j) x)))
        s.color t.color ∧
      t.evlog = s.evlog

/-- PIX (43_commands.md R221, 41_color_state.md R142): the three targets of LED idx take the values, unsmoothed; for idx
outside [0, N) no target changes; every output is reshaped, the transfer starts, and nothing else changes. That all this is
one step is the model's (log 1), and so are the fields that say where the command stands (log 7). -/
def Obligations.PixResult : Prop :=
  ∀ (idx r g b : Int) (s : State) (k : Nat), s.color.mem.wf s.params.n = true → s.actor = .ch k → TransferMayBegin s →
    ∃ t, exec (.pix idx r g b) s = .next t ∧ TransferStarted (.ch k) s t ∧
      Retargeted s.params.n
        (fun j x =>
          if (j : Int) = 3 * idx then f32OfInt r else if (j : Int) = 3 * idx + 1 then f32OfInt g
          else if (j : Int) = 3 * idx + 2 then f32OfInt b else x)
        s.color t.color ∧
      (idx < 0 ∨ (s.params.n : Int) ≤ idx → ∀ j, memRead .t j t.color.mem = memRead .t j s.color.mem) ∧
      t.evlog = s.evlog

/-- BRIGHT (43_commands.md R222, 10_state.md R26): BRIGHT takes clamp(b, 0, 1), a legal value (for a b that is a number, as
every decoded one is); every output is reshaped under it, the transfer starts, and nothing else changes. That all this is one
step is the model's (log 1), and so are the fields that say where the command stands (log 7). -/
def Obligations.BrightResult : Prop :=
  ∀ (b : F32) (s : State) (k : Nat), s.color.mem.wf s.params.n = true → s.actor = .ch k → TransferMayBegin s →
    ∃ t, exec (.bright b) s = .next t ∧ TransferStarted (.ch k) s t ∧
      t.color.bright = (if f32Lt b f32Zero then f32Zero else if f32Lt f32One b then f32One else b) ∧
      (f32IsNan b = false → unitLegal t.color.bright = true) ∧
      Retargeted s.params.n (fun _ x => x) { s.color with bright := t.color.bright } t.color ∧
      t.evlog = s.evlog

/-- GAMMA with a legal exponent (43_commands.md R223, 41_color_state.md R145): GAMMA takes g, the whole table is build(g),
every output is reshaped, the transfer starts, and nothing else changes. That all this is one step is the model's (log 1), and
so are the fields that say where the command stands (log 7). -/
def Obligations.GammaResult : Prop :=
  ∀ (g : F32) (s : State) (k : Nat), gammaLegal g = true → s.color.mem.wf s.params.n = true → s.actor = .ch k →
    TransferMayBegin s →
    ∃ t, exec (.gamma g) s = .next t ∧ TransferStarted (.ch k) s t ∧ t.color.gamma = g ∧
      (∀ i, memRead .lut i t.color.mem = (buildLut g)[i]?.map .byte) ∧
      t.color.bright = s.color.bright ∧ t.color.alpha = s.color.alpha ∧ t.color.mem.wf s.params.n = true ∧
      (∀ j, memRead .t j t.color.mem = memRead .t j s.color.mem) ∧ Reshaped t.color ∧ t.evlog = s.evlog

/-- The silently ignored class (60_exceptions.md R285): PIX outside [0, N) and GAMMA with g ≤ f32(0.01) emit nothing and, with
O = shape(T) before, leave all of Color State as it was; both still transfer. That all this is one step is the model's (log
1), and so are the fields that say where the command stands (log 7). -/
def Obligations.SilentlyIgnoredCommands : Prop :=
  ∀ (i : Instr) (s : State) (k : Nat),
    (∃ idx r g b, i = .pix idx r g b ∧ (idx < 0 ∨ (s.params.n : Int) ≤ idx)) ∨
      (∃ g, i = .gamma g ∧ f32Finite g = true ∧ f32Le g f32Hundredth = true) →
    s.color.mem.wf s.params.n = true → s.actor = .ch k → TransferMayBegin s →
    ∃ t, exec i s = .next t ∧ TransferStarted (.ch k) s t ∧ Retargeted s.params.n (fun _ x => x) s.color t.color ∧
      (Reshaped s.color → t.color = s.color) ∧ t.evlog = s.evlog

/-- SMOOTH (43_commands.md R224, 10_state.md R27): ALPHA takes clamp(a, 0, 1), a legal value (for an a that is a number, as
every decoded one is); no other state changes: no reshape, no transfer, and the command is complete. That all this is one step
is the model's (log 1), and so are the fields that say where the command stands (log 7). -/
def Obligations.SmoothResult : Prop :=
  ∀ (a : F32) (s : State) (k : Nat), s.actor = .ch k → s.lock = .free →
    ∃ t, exec (.smooth a) s = .next t ∧ PlainDone (.ch k) s t ∧
      t.color.alpha = (if f32Lt a f32Zero then f32Zero else if f32Lt f32One a then f32One else a) ∧
      (f32IsNan a = false → unitLegal t.color.alpha = true) ∧ t.color = { s.color with alpha := t.color.alpha } ∧ t.evlog = s.evlog

/-- SHOW (43_commands.md R225): every output is reshaped, the transfer starts, and nothing else changes. That all this is one
step is the model's (log 1), and so are the fields that say where the command stands (log 7). -/
def Obligations.ShowResult : Prop :=
  ∀ (s : State) (k : Nat), s.color.mem.wf s.params.n = true → s.actor = .ch k → TransferMayBegin s →
    ∃ t, exec .showStrip s = .next t ∧ TransferStarted (.ch k) s t ∧ Retargeted s.params.n (fun _ x => x) s.color t.color ∧
      t.evlog = s.evlog

/-- CLEAR (43_commands.md R226, 41_color_state.md R148): every target is +0.0 and every output 0, the transfer of 3N zero
bytes starts, and nothing else changes. That all this is one step is the model's (log 1), and so are the fields that say where
the command stands (log 7). -/
def Obligations.ClearResult : Prop :=
  ∀ (s : State) (k : Nat), s.color.mem.wf s.params.n = true → s.actor = .ch k → TransferMayBegin s →
    ∃ t, exec .clear s = .next t ∧ TransferStarted (.ch k) s t ∧
      t.color.gamma = s.color.gamma ∧ t.color.bright = s.color.bright ∧ t.color.alpha = s.color.alpha ∧
      t.color.mem.wf s.params.n = true ∧ (∀ i, memRead .lut i t.color.mem = memRead .lut i s.color.mem) ∧
      (∀ j, j < 3 * s.params.n →
        memRead .t j t.color.mem = some (.real 0x00000000#32) ∧ memRead .o j t.color.mem = some (.byte 0#8)) ∧
      t.evlog = s.evlog

/-- STATUS (43_commands.md R227, 60_exceptions.md R282): one E_STATUS record with GAMMA, BRIGHT, ALPHA and N; no transfer, and
nothing else changes. That all this is one step is the model's (log 1), and so are the fields that say where the command
stands (log 7). -/
def Obligations.StatusResult : Prop :=
  ∀ (s : State) (k : Nat), s.actor = .ch k → s.lock = .free →
    ∃ t, exec .status s = .next t ∧ PlainDone (.ch k) s t ∧ t.color = s.color ∧
      t.evlog = s.evlog ++
        [{ code := .status, agent := .ch k, info := .config s.color.gamma s.color.bright s.color.alpha s.params.n }]

/-- FRAME of N triples (44_frame_port.md R262, 30_encoding.md R98): every target moves one smoothing step toward its byte,
every output is reshaped, the transfer starts for FS, and nothing else changes. That all this is one step is the model's (log
1), and so are the fields that say where the command stands (log 7). -/
def Obligations.FrameResult : Prop :=
  ∀ (px : List Pixel) (s : State), px.length = s.params.n → s.color.mem.wf s.params.n = true → TransferMayBegin s →
    ∃ t, exec (.frame px) s = .next t ∧ TransferStarted .fs s t ∧
      Retargeted s.params.n
        (fun j x => fadd x (fmul s.color.alpha (fsub (f32OfInt (frameByte px j).toNat) x))) s.color t.color ∧
      t.evlog = s.evlog

/-- FRAME of any other length (44_frame_port.md R263): E_FRAME_LEN with 3M, no target changes, and the rest still runs. That
all this is one step is the model's (log 1), and so are the fields that say where the command stands (log 7). -/
def Obligations.FrameLengthMismatch : Prop :=
  ∀ (px : List Pixel) (s : State), px.length ≠ s.params.n → s.color.mem.wf s.params.n = true → TransferMayBegin s →
    ∃ t, exec (.frame px) s = .next t ∧ TransferStarted .fs s t ∧ Retargeted s.params.n (fun _ x => x) s.color t.color ∧
      t.evlog = s.evlog ++ [{ code := .frameLen, agent := .fs, info := .length (3 * px.length) }]

/-! ## The bus sequencer (42_bus_writer.md) -/

/-- Under SNAPSHOT (R189) a waiting command, of a channel or of FS, takes BUS_LOCK and requests its transfer once BUS_LOCK is
free and the bus IDLE, and waits while BUS_LOCK is held. R189 writes the taking and the request as two lines; that they are one
step is the model's (log 1), and so are the fields that say where a command stands (log 7). -/
def Obligations.SnapshotTakesBusLock : Prop :=
  ∀ (s : State) (bytes : List Byte), s.mode = .run ∨ s.mode = .shutdown →
    (∀ (k : Nat) (c : Channel), nextAction s = .ch k → findChannel k s = some c → c.job = .waitBus bytes →
      (s.bus.lock = .free → s.bus.state = .idle →
        step s = .next
          { consume s with
            bus := { s.bus with state := .xfer, frame := bytes, client := some (.ch k), lock := .held (.ch k) }
            channels := s.channels.map fun d => if d.id = k then { d with busy := true, job := .transfer } else d }) ∧
      ∀ a, s.bus.lock = .held a → step s = .next (consume s)) ∧
    (∀ px, nextAction s = .fs px → s.fs.state = .waitBus → s.fs.job = .waitBus bytes →
      (s.bus.lock = .free → s.bus.state = .idle →
        step s = .next
          { consume s with
            bus := { s.bus with state := .xfer, frame := bytes, client := some .fs, lock := .held .fs }
            fs := { s.fs with job := .transfer } }) ∧
      ∀ a, s.bus.lock = .held a → step s = .next (consume s))

/-- The transfer step (R182, R184): one BUSLOG record of BUS_FRAME and the answer; E_BUS_PARTIAL for fewer than 3N bytes,
E_BUS_ERROR for an ioerror; LATCH with LATCH_LEFT = T_LATCH; the strip receives the first k bytes. -/
def Obligations.TransferStep : Prop :=
  ∀ s : State, s.mode = .run ∨ s.mode = .shutdown → s.bus.state = .xfer →
    (∀ k, nextAction s = .bus (.done k) → k ≤ 3 * s.params.n →
      step s = .next
        { consume s with
          buslog := s.buslog ++ [{ bytes := s.bus.frame, result := .done k }]
          evlog :=
            if k < 3 * s.params.n then
              s.evlog ++ [{ code := .busPartial, agent := .bus, info := .partialWrite k (3 * s.params.n) }]
            else s.evlog
          bus := { s.bus with state := .latch, latchLeft := s.params.tLatch } } ∧
      receivedBytes { bytes := s.bus.frame, result := .done k } = some (s.bus.frame.take k)) ∧
    (nextAction s = .bus .ioerror →
      step s = .next
        { consume s with
          buslog := s.buslog ++ [{ bytes := s.bus.frame, result := .ioerror }]
          evlog := s.evlog ++ [{ code := .busError, agent := .bus, info := .none }]
          bus := { s.bus with state := .latch, latchLeft := s.params.tLatch } })

/-- The latch (R185; 70_reset_and_hazards.md R327): BUS ends it only when LATCH_LEFT is 0, to IDLE, its client released; in any
mode, every step but the reset input leaves BUS_STATE in LATCH unless it is that step of BUS, so no agent, host input or
elapsed time ends the latch; LATCH_LEFT falls by the elapsed time (a `tick`, log 5) and no other step but the reset input
changes it. -/
def Obligations.LatchStep : Prop :=
  ∀ s : State, s.bus.state = .latch →
    (s.mode = .run ∨ s.mode = .shutdown → ∀ res, nextAction s = .bus res →
      (s.bus.latchLeft = 0 →
        step s = .next { consume s with bus := { s.bus with state := .idle, frame := [], client := none } }) ∧
      (0 < s.bus.latchLeft → step s = .next (consume s))) ∧
    ∀ t, step s = .next t → nextAction s ≠ .reset →
      (t.bus.state = .latch ∨ ∃ res, nextAction s = .bus res ∧ s.bus.latchLeft = 0 ∧ t.bus.state = .idle) ∧
      (s.mode = .run ∨ s.mode = .shutdown →
        t.bus.latchLeft = s.bus.latchLeft - (match nextAction s with | .tick d => d | _ => 0))

/-- No interleaving (R180, R187; 20_memory.md R63): in any state, any step but the reset input leaves BUS_STATE alone or moves it
IDLE to XFER, XFER to LATCH or LATCH to IDLE; and while it is XFER or LATCH the frame and the client stay. -/
def Obligations.BusTransitions : Prop :=
  ∀ s t : State, step s = .next t → nextAction s ≠ .reset →
    (t.bus.state = s.bus.state ∨ (s.bus.state = .idle ∧ t.bus.state = .xfer) ∨
      (s.bus.state = .xfer ∧ t.bus.state = .latch) ∨ (s.bus.state = .latch ∧ t.bus.state = .idle)) ∧
    (s.bus.state ≠ .idle → t.bus.state ≠ .idle → t.bus.frame = s.bus.frame ∧ t.bus.client = s.bus.client)

/-- Under IN_LOCK the bytes in transfer are the output buffer as it stands (20_memory.md R62, 42_bus_writer.md R188): every step
keeps this, together with an idle bus during INIT. -/
def Obligations.InLockTransfersTheOutput : Prop :=
  ∀ s t : State, LockInv s → s.params.busOrder = .inLock → (s.mode = .init → s.bus.state = .idle) →
    (s.bus.state ≠ .idle → s.bus.frame = s.color.mem.o) → step s = .next t →
    (t.mode = .init → t.bus.state = .idle) ∧ (t.bus.state ≠ .idle → t.bus.frame = t.color.mem.o)

/-- A command goes on once BUS has released its agent (R185, R188, R189; 43_commands.md R214, 44_frame_port.md R264, R265):
its lock is released and it is complete, a channel no longer BUSY, FS asleep for T_FRAME or, in SHUTDOWN, halted. Until then
it waits. The fields that say where a command stands are the model's (log 7), and so are the release and the completion in one
step (log 1) and FS_TIMER's keeping its value when FS halts in place of sleeping (log 24). -/
def Obligations.FinishReleasesTheLock : Prop :=
  ∀ s : State, s.mode = .run ∨ s.mode = .shutdown →
    (∀ (k : Nat) (c : Channel), nextAction s = .ch k → findChannel k s = some c → c.job = .transfer →
      (s.bus.client = some (.ch k) → step s = .next (consume s)) ∧
      (s.bus.client ≠ some (.ch k) →
        step s = .next
          { consume s with
            lock := (match s.params.busOrder with | .inLock => .free | .snapshot => s.lock)
            bus := { s.bus with lock := (match s.params.busOrder with | .inLock => s.bus.lock | .snapshot => .free) }
            channels := s.channels.map fun d => if d.id = k then { d with busy := false, job := .idle } else d })) ∧
    (∀ px, nextAction s = .fs px → s.fs.state = .waitBus → s.fs.job = .transfer →
      (s.bus.client = some .fs → step s = .next (consume s)) ∧
      (s.bus.client ≠ some .fs →
        step s = .next
          { consume s with
            lock := (match s.params.busOrder with | .inLock => .free | .snapshot => s.lock)
            bus := { s.bus with lock := (match s.params.busOrder with | .inLock => s.bus.lock | .snapshot => .free) }
            fs := (if s.mode = .run then { state := .sleep, timer := s.params.tFrame, job := .idle }
                   else { s.fs with state := .halt, job := .idle }) }))

/-- The order of the bits of a transfer on the wire, for 8-bit words (20_memory.md R53, R54; 42_bus_writer.md R183): byte n
before byte n + 1, and of each byte the most significant bit first unless SPI_LSB_FIRST. -/
def Obligations.WireOrder : Prop :=
  ∀ (p : Params) (bytes : List Byte), p.spiWordBits = 8 →
    ∃ bits, wireOf p bytes = some bits ∧ bits.length = 8 * bytes.length ∧
      ∀ (n m : Nat) (x : Byte), m < 8 → bytes[n]? = some x →
        bits[8 * n + m]? = some (x.getLsbD (if p.spiLsbFirst then m else 7 - m))

/-! ## Channels (43_commands.md) -/

/-- A complete line that starts no command (R212, R213, R216): the tail of an overlong line leaves no event, a line longer than
LINE_MAX leaves E_LINE_OVERLONG, a dropped line leaves the event of its verdict (60_exceptions.md R282); the line is removed and
nothing else changes. So for both actions that take a line, `ch` and `chStart`; that there are two is the model's (log 1), and so
is the `job` field that says no command is in progress (log 7). -/
def Obligations.LinesThatStartNoCommand : Prop :=
  ∀ (s : State) (k : Nat) (c : Channel), nextAction s = .ch k ∨ nextAction s = .chStart k → s.mode = .run →
    findChannel k s = some c →
    c.job = .idle → c.busy = false → hasLF c.acc = true →
    let removed : State :=
      { consume s with
        channels := s.channels.map fun d => if d.id = k then { d with acc := afterLF d.acc, discard := false } else d }
    (c.discard = true → step s = .next removed) ∧
    (c.discard = false → overLineMax s.params (beforeLF c.acc).length = true →
      step s = .next { removed with evlog := s.evlog ++ [{ code := .lineOverlong, agent := .ch k, info := .none }] }) ∧
    ∀ v, c.discard = false → overLineMax s.params (beforeLF c.acc).length = false →
      decodeLine (beforeLF c.acc) = .drop v →
      step s = .next
        { removed with
          evlog := s.evlog ++
            [{ code := (match v with | .empty => .cmdEmpty | .unknown => .cmdUnknown | .args => .cmdArgs)
               agent := .ch k
               info := .none }] }

/-- Opening and closing (R211): OPEN_CH makes an empty open channel in RUN when there is room and the id is new (93 I15), and
otherwise, in INIT, SHUTDOWN and STOPPED too (70_reset_and_hazards.md R324), does nothing (log 8, log 15; FAILED is terminal,
log 12). In RUN and in SHUTDOWN CLOSE_CH sets `closing`, and a closing channel with no complete line and no command is removed
by its next step; that the removal is a step of its own is the model's (log 11). -/
def Obligations.OpenAndCloseChannels : Prop :=
  ∀ (s : State) (k : Nat),
    (nextAction s = .openCh k → s.mode = .run → (∀ m, s.params.maxChannels = some m → s.channels.length < m) →
      findChannel k s = none →
      ∃ cs, step s = .next { consume s with channels := cs } ∧
        cs.find? (fun c => c.id == k) =
          some { id := k, openState := .opened, acc := [], discard := false, busy := false, job := .idle } ∧
        (channelsWf s.channels = true → channelsWf cs = true) ∧
        ∀ j, j ≠ k → cs.find? (fun c => c.id == j) = findChannel j s) ∧
    (nextAction s = .openCh k → s.mode = .run →
      (∃ m, s.params.maxChannels = some m ∧ m ≤ s.channels.length) ∨ findChannel k s ≠ none → step s = .next (consume s)) ∧
    (nextAction s = .openCh k → s.mode = .init ∨ s.mode = .shutdown ∨ s.mode = .stopped → step s = .next (consume s)) ∧
    (nextAction s = .closeCh k → s.mode = .run ∨ s.mode = .shutdown →
      step s = .next
        { consume s with channels := s.channels.map fun d => if d.id = k then { d with openState := .closing } else d }) ∧
    ∀ c, nextAction s = .ch k → s.mode = .run ∨ s.mode = .shutdown → findChannel k s = some c →
      c.openState = .closing → c.busy = false → c.job = .idle → hasLF c.acc = false →
      step s = .next { consume s with channels := s.channels.filter fun d => decide (d.id ≠ k) }

/-- Receiving (R212, R213): an open channel appends the bytes; while an overlong line is skipped, those before its 0x0A are
discarded; more than LINE_MAX bytes with no 0x0A leave E_LINE_OVERLONG and start the skipping; a closing channel receives
nothing. In SHUTDOWN the same, but the complete lines are discarded as they arrive, with no event, and a partial line stays:
they never run (R217), and that they go at once is the model's (log 10). -/
def Obligations.ReceivedBytesAreAppended : Prop :=
  ∀ (s : State) (k : Nat) (bytes : List Byte) (c : Channel), nextAction s = .recv k bytes →
    s.mode = .run ∨ s.mode = .shutdown → findChannel k s = some c →
    (c.openState = .closing → step s = .next (consume s)) ∧
    (c.openState = .opened → channelsWf s.channels = true →
      let late : Bool := c.discard && !hasLF c.acc
      let acc : List Byte := c.acc ++ (if late then bytes.dropWhile (fun x => decide (x ≠ 0x0A#8)) else bytes)
      let tooLong : Prop := hasLF acc = false ∧ c.discard = false ∧ ∃ m, s.params.lineMax = some m ∧ m < acc.length
      (tooLong → step s = .next
        { consume s with
          channels := s.channels.map fun d => if d.id = k then { d with acc := [], discard := true } else d
          evlog := s.evlog ++ [{ code := .lineOverlong, agent := .ch k, info := .none }] }) ∧
      (¬ tooLong → s.mode = .run ∨ hasLF acc = false → step s = .next
        { consume s with channels := s.channels.map fun d => if d.id = k then { d with acc := acc } else d }) ∧
      (s.mode = .shutdown → hasLF acc = true → ∃ lines rest, acc = lines ++ 0x0A#8 :: rest ∧ hasLF rest = false ∧
        step s = .next
          { consume s with
            channels := s.channels.map fun d => if d.id = k then { d with acc := rest, discard := false } else d }))

/-- Reassembly (R212, R231): with no line bound, bytes received in two pieces leave what they leave in one; and a piece with no
0x0A completes no line. -/
def Obligations.LinesAreReassembled : Prop :=
  ∀ (s : State) (k : Nat) (a b : List Byte) (rest : List Action), s.mode = .run → s.params.lineMax = none →
    Sys2Proof.core.run 2 { s with script := .recv k a :: .recv k b :: rest } =
        Sys2Proof.core.run 1 { s with script := .recv k (a ++ b) :: rest } ∧
      ∀ t c d, Sys2Proof.core.run 1 { s with script := .recv k a :: rest } = .next t → findChannel k s = some c →
        findChannel k t = some d → hasLF c.acc = false → 0x0A#8 ∉ a → hasLF d.acc = false

/-- Only CH[k] and the host's actions on k touch CH[k]'s state (60_exceptions.md R294): no step of another channel, of FS or of
BUS, no step of SYS but its stop, which removes every channel (70_reset_and_hazards.md R324), no host action on another
channel, and no elapsed time changes it. -/
def Obligations.ChannelsAreIsolated : Prop :=
  ∀ (s t : State) (k : Nat), step s = .next t →
    (match nextAction s with
      | .ch j => j ≠ k
      | .chStart j => j ≠ k
      | .openCh j => j ≠ k
      | .closeCh j => j ≠ k
      | .recv j _ => j ≠ k
      | .fs _ => True
      | .fsStart _ => True
      | .bus _ => True
      | .tick _ => True
      | .sys _ => s.mode ≠ .shutdown ∨ s.sysJob ≠ .transfer ∨ s.bus.client = some .sys
      | .shutdownReq => False
      | .reset => False) →
    findChannel k t = findChannel k s

/-! ## The frame sequencer, SYS and the modes -/

/-- The sleep of FS (44_frame_port.md R260, R264): FS_TIMER falls by the elapsed time (a `tick`, log 5), and FS goes back to REQ
in RUN once it is 0. Every step from SLEEP but the reset input and SHUTDOWN_REQ leaves FS in SLEEP, FS_TIMER lowered by the
elapsed time only, unless it is that step of FS; and FS in HALT stays there until the reset input, with no further request
(R265). -/
def Obligations.FrameSequencerSleeps : Prop :=
  (∀ s : State, s.mode = .run → s.fs.state = .sleep →
    (∀ px, nextAction s = .fs px →
      (s.fs.timer = 0 → step s = .next { consume s with fs := { s.fs with state := .req } }) ∧
      (0 < s.fs.timer → step s = .next (consume s))) ∧
    ∀ d, nextAction s = .tick d →
      step s = .next
        { consume s with
          fs := { s.fs with timer := s.fs.timer - d }
          bus := { s.bus with latchLeft := s.bus.latchLeft - d } }) ∧
  ∀ s t : State, CommandInv s → step s = .next t → nextAction s ≠ .reset →
    (s.fs.state = .sleep → nextAction s ≠ .shutdownReq →
      (t.fs.state = .sleep ∨ ∃ px, nextAction s = .fs px ∧ s.mode = .run ∧ s.fs.timer = 0 ∧ t.fs.state = .req) ∧
      t.fs.job = s.fs.job ∧
      (s.mode = .run ∨ s.mode = .shutdown →
        t.fs.timer = s.fs.timer - (match nextAction s with | .tick d => d | _ => 0))) ∧
    (s.fs.state = .halt → t.fs.state = .halt ∧ t.fs.job = s.fs.job)

/-- MODE changes only so (10_state.md R23; 70_reset_and_hazards.md R320, R321, R324): INIT to RUN or FAILED by the boot, RUN to
SHUTDOWN by the request, SHUTDOWN to STOPPED by SYS after its final transfer, anything to INIT by the reset input. -/
def Obligations.ModeTransitions : Prop :=
  ∀ s t : State, step s = .next t →
    t.mode = s.mode ∨
    (s.mode = .init ∧ nextAction s = .sys .ok ∧ t.mode = .run) ∨
    (s.mode = .init ∧ nextAction s = .sys .fail ∧ t.mode = .failed) ∨
    (s.mode = .run ∧ nextAction s = .shutdownReq ∧ t.mode = .shutdown) ∨
    (s.mode = .shutdown ∧ (∃ r, nextAction s = .sys r) ∧ s.sysJob = .transfer ∧ s.bus.client ≠ some .sys ∧
      t.mode = .stopped) ∨
    (nextAction s = .reset ∧ t.mode = .init)

/-- The logs (10_state.md R38, R39; 42_bus_writer.md R182): any step but the reset input leaves EVLOG with something appended,
and BUSLOG as it was, or with the one record of a transfer step of BUS. -/
def Obligations.LogsOnlyGrow : Prop :=
  ∀ s t : State, step s = .next t → nextAction s ≠ .reset →
    (∃ more, t.evlog = s.evlog ++ more) ∧
    (t.buslog = s.buslog ∨
      ∃ res, nextAction s = .bus res ∧ s.bus.state = .xfer ∧ t.buslog = s.buslog ++ [{ bytes := s.bus.frame, result := res }])

/-- N is fixed, and T, O and LUT never change length (10_state.md R33); no parameter changes in any step. -/
def Obligations.LengthsNeverChange : Prop :=
  ∀ s t : State, step s = .next t → t.params = s.params ∧
    (s.color.mem.wf s.params.n = true → t.color.mem.wf t.params.n = true)

/-- The boot (70_reset_and_hazards.md R321, 42_bus_writer.md R190, R191): LUT = build(GAMMA), T and O zeroed; with DEV_OPEN = ok the
device configured and MODE = RUN, with fail E_BUS_OPEN and MODE = FAILED; no bus transfer (R322); and during INIT no action but
SYS's and the reset input changes anything. That the boot is one step is the model's (log 13). -/
def Obligations.BootSequence : Prop :=
  ∀ s : State, s.mode = .init → paramsLegal s.params = true →
    let booted : State :=
      { consume s with
        color := { s.color with
          mem := { lut := buildLut s.color.gamma
                   t := List.replicate (3 * s.params.n) 0x00000000#32
                   o := List.replicate (3 * s.params.n) 0#8 } } }
    (nextAction s = .sys .ok → step s = .next
      { booted with
        mode := .run
        device := some
          { mode := s.params.spiMode, wordBits := s.params.spiWordBits, clockHz := s.params.spiClockHz } }) ∧
    (nextAction s = .sys .fail → step s = .next
      { booted with mode := .failed, evlog := s.evlog ++ [{ code := .busOpen, agent := .sys, info := .none }] }) ∧
    ((∀ r, nextAction s ≠ .sys r) → nextAction s ≠ .reset → step s = .next (consume s))

/-- The reset input (70_reset_and_hazards.md R320) sets every piece of state to its value in the table of 10_state.md R42, in every
mode, whatever was in progress. -/
def Obligations.ResetSetsEveryState : Prop :=
  ∀ s : State, nextAction s = .reset → ∃ t, step s = .next t ∧
    t.params = s.params ∧ t.mode = .init ∧
    t.color.gamma = s.params.gammaInit ∧ t.color.bright = s.params.brightInit ∧ t.color.alpha = s.params.alphaInit ∧
    t.color.mem.lut = buildLut s.params.gammaInit ∧
    t.color.mem.t = List.replicate (3 * s.params.n) 0x00000000#32 ∧ t.color.mem.o = List.replicate (3 * s.params.n) 0#8 ∧
    t.lock = .free ∧ t.bus = { state := .idle, frame := [], client := none, latchLeft := 0, lock := .free } ∧
    t.fs.state = .req ∧ t.fs.timer = 0 ∧ t.channels = [] ∧ t.evlog = [] ∧ t.buslog = []

/-- The two ends (60_exceptions.md R283, 70_reset_and_hazards.md R325, 93 I20): in FAILED every action but the reset input meets the
fault, in STOPPED none changes anything, and no other mode faults. That FAILED answers with a fault and STOPPED with an unchanged
state is the model's form (log 12). -/
def Obligations.FailedAndStoppedAreTerminal : Prop :=
  (∀ s : State, s.mode = .failed → nextAction s ≠ .reset → step s = .fault .deviceOpenFailed) ∧
    (∀ s : State, s.mode = .stopped → nextAction s ≠ .reset → step s = .next (consume s)) ∧
    ∀ (s : State) (f : Fault), step s = .fault f → s.mode = .failed ∧ nextAction s ≠ .reset

/-- SHUTDOWN_REQ (70_reset_and_hazards.md R324): accepted only in RUN; a FRAME in progress goes on, otherwise FS halts
(44_frame_port.md R265); the complete lines of every channel are discarded without an event, a partial line stays
(43_commands.md R217); nothing else changes. That it happens at once is the model's (log 10), and so is it that no request of
FS is outstanding then (log 27). -/
def Obligations.ShutdownRequest : Prop :=
  ∀ s : State, nextAction s = .shutdownReq →
    (s.mode = .run → ∃ cs, step s = .next
        { consume s with
          mode := .shutdown
          fs := (if s.fs.state = .waitBus then s.fs else { s.fs with state := .halt })
          channels := cs } ∧
      cs.length = s.channels.length ∧
      ∀ (n : Nat) (c d : Channel), s.channels[n]? = some c → cs[n]? = some d →
        (hasLF c.acc = false → d = c) ∧
        (hasLF c.acc = true → ∃ lines, c.acc = lines ++ 0x0A#8 :: d.acc ∧ hasLF d.acc = false ∧
          d = { c with acc := d.acc, discard := false })) ∧
    (s.mode = .init ∨ s.mode = .shutdown ∨ s.mode = .stopped → step s = .next (consume s))

/-! ## Invariants that every step keeps -/

/-- With legal parameters and waiting commands that their sources can carry (30_encoding.md R90, R98), every step outside FAILED
goes on (60_exceptions.md R280) and keeps this. -/
def Obligations.StepsGoOnAndKeepCommandInv : Prop :=
  ∀ s : State, CommandInv s →
    (s.mode ≠ .failed → goesOn s) ∧ ∀ t, step s = .next t → CommandInv t

/-- The invariant of 10_state.md R32 with R24-R27 and R29-R33: after every step, whatever the agents, host and oracles do,
O = shape(T), LUT = build(GAMMA), and the registers hold legal values. -/
def Obligations.StepKeepsColorInv : Prop :=
  ∀ s t : State, CommandInv s → ColorInv s.params s.color → step s = .next t → ColorInv t.params t.color

/-- The lock discipline (20_memory.md R60, R63; 42_bus_writer.md R187-R189; 43_commands.md R214) is kept by every step. These
clauses of it are the model's: the fields that say where a command stands (log 7); a LOCK that is free under SNAPSHOT unless
SYS holds it, since a section is one step (log 1); SYS's final transfer without BUS_LOCK (log 24); and WAIT_BUS just while a
FRAME is in progress, its wait for LOCK too (log 9). -/
def Obligations.StepKeepsLockInv : Prop := ∀ s t : State, CommandInv s → LockInv s → step s = .next t → LockInv t

/-- No target ever becomes a NaN or an infinity (41_color_state.md R154), nor -0.0 (R143). -/
def Obligations.StepKeepsTargetsFinite : Prop :=
  ∀ s t : State, CommandInv s → ColorInv s.params s.color → TargetsFinite s.color.mem → step s = .next t →
    TargetsFinite t.color.mem

/-- Every frame in transfer, every waiting snapshot and every BUSLOG record has exactly 3N bytes, and every answer in BUSLOG is one
DEV_XFER can give (30_encoding.md R99, 00_scope.md R6, 41_color_state.md R149). -/
def Obligations.StepKeepsTransferInv : Prop :=
  ∀ s t : State, s.color.mem.wf s.params.n = true → TransferInv s → step s = .next t → TransferInv t

/-- The state after reset meets every invariant, in every legal configuration, with nothing in progress and no device open
(log 7, log 19); State.reset's configuration (log 4, DESIGN CHOICE) is one. -/
def Obligations.ResetMeetsTheInvariants : Prop :=
  (∀ p : Params, paramsLegal p = true →
      CommandInv (State.resetWith p) ∧ ColorInv p (State.resetWith p).color ∧ LockInv (State.resetWith p) ∧
      TargetsFinite (State.resetWith p).color.mem ∧ TransferInv (State.resetWith p) ∧
      (State.resetWith p).fs.job = .idle ∧ (State.resetWith p).sysJob = .idle ∧ (State.resetWith p).device = none) ∧
    paramsLegal State.reset.params = true ∧ State.reset = State.resetWith State.reset.params

/-! ## Whole commands and the whole shutdown -/

/-- A transferring line command from its line to its completion (43_commands.md R214, R218; 42_bus_writer.md R182, R185, R188,
R189), the device answering done(3N) and at least T_LATCH passing: one BUSLOG record, the O its section left; the line gone,
the channel free again, both locks free, the bus IDLE, no event. Under SNAPSHOT the channel takes one step more, for BUS_LOCK.
The cut into steps is the model's (log 1, log 5, log 7). -/
def Obligations.TransferringCommandRuns : Prop :=
  ∀ (s : State) (k d : Nat) (c : Channel) (i : Instr) (x y : XferResult) (rest : List Action),
    s.mode = .run → LineReady k c i s → transfers i = true → s.lock = .free → s.bus.state = .idle → s.bus.client = none →
    s.bus.lock = .free → s.params.tLatch ≤ d →
    let done : Action := .bus (.done (3 * s.params.n))
    let steps : List Action :=
      match s.params.busOrder with
      | .inLock => [.ch k, done, .tick d, .bus x, .ch k]
      | .snapshot => [.ch k, .ch k, done, .tick d, .bus y, .ch k]
    s.script = steps ++ rest →
    ∃ t, Sys2Proof.core.run steps.length s = .next t ∧
      t.buslog = s.buslog ++ [{ bytes := t.color.mem.o, result := .done (3 * s.params.n) }] ∧
      findChannel k t = some { c with acc := afterLF c.acc } ∧
      t.lock = .free ∧ t.bus.lock = .free ∧ t.bus.state = .idle ∧ t.bus.client = none ∧ t.mode = .run ∧
      t.evlog = s.evlog ∧ t.script = rest

/-- The whole shutdown from a quiet RUN (70_reset_and_hazards.md R324, R325): the request, the final clear, its transfer with
any answer of the device, its latch, and the stop: every target +0.0, every output 0, one more BUSLOG record of 3N zero bytes,
no channel, no device, LOCK free, FS halted, MODE = STOPPED. The cut into steps is the model's (log 1, log 5, log 24). -/
def Obligations.ShutdownRuns : Prop :=
  ∀ (s : State) (d : Nat) (r r' : DevOpen) (res x : XferResult) (rest : List Action),
    s.mode = .run → AllQuiet s → s.params.tLatch ≤ d → xferAnswerLegal s.params.n res = true →
    s.script = [.shutdownReq, .sys r, .bus res, .tick d, .bus x, .sys r'] ++ rest →
    ∃ t, Sys2Proof.core.run 6 s = .next t ∧ t.mode = .stopped ∧
      t.color.mem.t = List.replicate (3 * s.params.n) 0x00000000#32 ∧
      t.color.mem.o = List.replicate (3 * s.params.n) 0#8 ∧ t.color.mem.lut = s.color.mem.lut ∧
      t.buslog = s.buslog ++ [{ bytes := List.replicate (3 * s.params.n) 0#8, result := res }] ∧
      t.channels = [] ∧ t.device = none ∧ t.lock = .free ∧ t.bus.state = .idle ∧ t.fs.state = .halt ∧ t.script = rest

/-- In SHUTDOWN nothing new starts (43_commands.md R217, 44_frame_port.md R265, 70_reset_and_hazards.md R324): whatever the agents
and the host do, a channel with no command in progress takes none up, so that no complete line there runs (those that arrive
are discarded, log 10), no channel comes into being (R211), and FS with no FRAME in progress begins none. That FS has no request
outstanding, whose answer could still come, is the model's (log 27), and so are the `job` fields (log 7). -/
def Obligations.NothingStartsInShutdown : Prop :=
  ∀ s t : State, CommandInv s → s.mode = .shutdown → step s = .next t →
    (∀ (k : Nat) (c d : Channel), findChannel k s = some c → c.job = .idle → findChannel k t = some d →
      d.job = .idle ∧ d.busy = c.busy) ∧
    (∀ k, findChannel k s = none → findChannel k t = none) ∧
    (s.fs.job = .idle → t.fs.job = .idle)
end

