-- ==== Sys2Proof/Laws/GammaLut.lean ====
section
/-! SUPPORT. The table that buildLut makes is the one of the exact comparison (40_gamma_lut.md R121, R126): `buildLut_eq`. The
enclosures only decide faster what `reaches` says. -/

namespace Sys2Proof.Machine

/-! ## Enclosures -/

@[simp] theorem force_eq {α : Type} (n : Nat) (k : Nat → α) : force n k = k n := by
  cases n <;> rfl

/-- The number lies in the enclosure. -/
def Encloses (e : Enclosure) (v : Nat) : Prop := e.lo * 2 ^ e.ex ≤ v ∧ v ≤ e.hi * 2 ^ e.ex

theorem encShift_encloses {lo hi ex v : Nat} (s : Nat) (h : Encloses ⟨lo, hi, ex⟩ v) :
    Encloses (encShift s lo hi ex) v := by
  obtain ⟨hl, hh⟩ := h
  simp only [encShift, force_eq, Encloses] at *
  have e : 2 ^ (ex + s) = 2 ^ s * 2 ^ ex := by rw [pow_add, mul_comm]
  refine ⟨le_trans ?_ hl, le_trans hh ?_⟩
  · rw [e, ← mul_assoc, Nat.shiftRight_eq_div_pow]
    exact Nat.mul_le_mul_right _ (Nat.div_mul_le_self lo (2 ^ s))
  · rw [e, ← mul_assoc, Nat.shiftRight_eq_div_pow]
    refine Nat.mul_le_mul_right _ ?_
    have := Nat.lt_div_mul_add (a := hi) (b := 2 ^ s) (by positivity)
    nlinarith

theorem encNorm_encloses {lo hi ex v : Nat} (h : Encloses ⟨lo, hi, ex⟩ v) : Encloses (encNorm lo hi ex) v := by
  unfold encNorm
  cases Nat.blt hi (2 ^ 192) <;> cases Nat.blt hi (2 ^ 256) <;> cases Nat.blt hi (2 ^ 320) <;>
    cases Nat.blt hi (2 ^ 384) <;> simp only [cond_true, cond_false] <;> first | exact h | exact encShift_encloses _ h

theorem encMul_encloses {x y : Enclosure} {v w : Nat} (hx : Encloses x v) (hy : Encloses y w) :
    Encloses (encMul x y) (v * w) := by
  obtain ⟨lo, hi, ex⟩ := x
  obtain ⟨lo', hi', ex'⟩ := y
  simp only [encMul, force_eq]
  apply encNorm_encloses
  obtain ⟨a, b⟩ := hx
  obtain ⟨c, d⟩ := hy
  simp only [Encloses, pow_add] at *
  constructor
  · calc lo * lo' * (2 ^ ex * 2 ^ ex') = lo * 2 ^ ex * (lo' * 2 ^ ex') := by ring
      _ ≤ v * w := Nat.mul_le_mul a c
  · calc v * w ≤ hi * 2 ^ ex * (hi' * 2 ^ ex') := Nat.mul_le_mul b d
      _ = hi * hi' * (2 ^ ex * 2 ^ ex') := by ring

theorem encPow_encloses (b fuel : Nat) : ∀ e, e < 2 ^ fuel → Encloses (encPow b fuel e) (b ^ e) := by
  induction fuel with
  | zero =>
    intro e h
    have : e = 0 := by simpa using h
    subst this
    simp [encPow, Encloses]
  | succ fuel ih =>
    intro e h
    by_cases h0 : e = 0
    · subst h0
      simp [encPow, Encloses]
    · have hh := ih (e / 2) (by rw [pow_succ] at h; omega)
      have sq := encMul_encloses hh hh
      have hz : Nat.beq e 0 = false := by rw [← Bool.not_eq_true, Nat.beq_eq]; exact h0
      simp only [encPow, force_eq, hz, cond_false]
      rcases Nat.mod_two_eq_zero_or_one e with hm | hm
      · have he : b ^ (e / 2) * b ^ (e / 2) = b ^ e := by rw [← pow_add]; congr 1; omega
        have hb : Nat.beq 0 1 = false := rfl
        rw [hm, hb, cond_false, ← he]
        exact sq
      · have he : b ^ (e / 2) * b ^ (e / 2) * b = b ^ e := by rw [← pow_add, ← pow_succ]; congr 1; omega
        have one : Encloses ⟨b, b, 0⟩ b := by simp [Encloses]
        have hb : Nat.beq 1 1 = true := rfl
        rw [hm, hb, cond_true, ← he]
        exact encMul_encloses sq one

theorem encLt_sound {x y : Enclosure} {v w : Nat} (hx : Encloses x v) (hy : Encloses y w)
    (h : encLt x y = true) : v < w := by
  obtain ⟨lo, hi, ex⟩ := x
  obtain ⟨lo', hi', ex'⟩ := y
  refine lt_of_le_of_lt hx.2 (lt_of_lt_of_le ?_ hy.1)
  simp only [encLt] at h
  have key : ∀ a c : Nat, a < c → a * 2 ^ ex < c * 2 ^ ex := fun a c h => by gcongr
  rcases hb : Nat.ble ex ex' with _ | _
  · have hlt : ¬ ex ≤ ex' := fun hle => by simp [Nat.ble_eq.mpr hle] at hb
    simp only [hb, cond_false, Bool.and_eq_true, Nat.blt_eq] at h
    calc hi * 2 ^ ex = hi * 2 ^ (ex - ex') * 2 ^ ex' := by rw [mul_assoc, ← pow_add]; congr 2; omega
      _ < lo' * 2 ^ ex' := by have := h.2; gcongr
  · have hle : ex ≤ ex' := Nat.ble_eq.mp hb
    simp only [hb, cond_true, Nat.blt_eq] at h
    have h2 : hi < lo' * 2 ^ (ex' - ex) :=
      lt_of_lt_of_le h (Nat.mul_le_mul_left _ (Nat.pow_le_pow_right (by norm_num) (min_le_left _ _)))
    calc hi * 2 ^ ex < lo' * 2 ^ (ex' - ex) * 2 ^ ex := key _ _ h2
      _ = lo' * 2 ^ ex' := by rw [mul_assoc, ← pow_add]; congr 2; omega

/-- The enclosures decide what the exact comparison says. -/
theorem reachesEnc_eq {p q n i : Nat} {b a : Enclosure} (hb : Encloses b ((2 * n - 1) ^ q * 255 ^ p))
    (ha : Encloses a (i ^ p * 510 ^ q)) : reachesEnc p q n i b a = reaches p q n i := by
  unfold reachesEnc
  rcases h : encLt a b with _ | _
  · rcases h' : encLt b a with _ | _
    · simp
    · have := encLt_sound hb ha h'
      simp [reaches, this.le]
  · have := encLt_sound ha hb h
    simp [reaches, this]

/-! ## The exact comparison -/

theorem reaches_mono_index {p q n i i' : Nat} (h : reaches p q n i = true) (hi : i ≤ i') : reaches p q n i' = true := by
  simp only [reaches, decide_eq_true_eq] at *
  exact le_trans h (Nat.mul_le_mul_right _ (Nat.pow_le_pow_left hi p))

theorem reaches_anti_threshold {p q n n' i : Nat} (h : reaches p q n' i = true) (hn : n ≤ n') :
    reaches p q n i = true := by
  simp only [reaches, decide_eq_true_eq] at *
  exact le_trans (Nat.mul_le_mul_right _ (Nat.pow_le_pow_left (by omega) q)) h

/-- Entry i of R121: how many n in 1..255 it reaches. -/
def lutCount (p q i : Nat) : Nat := ((List.range 255).filter fun k => reaches p q (k + 1) i).length

theorem lutCount_le (p q i : Nat) : lutCount p q i ≤ 255 := by
  simpa [lutCount] using List.length_filter_le (fun k => reaches p q (k + 1) i) (List.range 255)

/-- Entry i is the v for which it reaches 1..v and no more. -/
theorem lutCount_iff (p q i n : Nat) (hn : n < 255) : n < lutCount p q i ↔ reaches p q (n + 1) i = true := by
  have gen : ∀ m, ∀ n < m, (n < ((List.range m).filter fun k => reaches p q (k + 1) i).length ↔
      reaches p q (n + 1) i = true) := by
    intro m
    induction m with
    | zero => intro n h; omega
    | succ m ih =>
      intro n h
      rw [List.range_succ, List.filter_append, List.length_append]
      rcases hr : reaches p q (m + 1) i with _ | _
      · simp only [hr, Bool.false_eq_true, not_false_eq_true, List.filter_cons_of_neg, List.filter_nil,
          List.length_nil, add_zero]
        rcases Nat.lt_succ_iff_lt_or_eq.mp h with h | h
        · exact ih n h
        · subst h
          have : ((List.range n).filter fun k => reaches p q (k + 1) i).length ≤ n := by
            simpa using List.length_filter_le (fun k => reaches p q (k + 1) i) (List.range n)
          simp [hr, Nat.not_lt.mpr this]
      · have all : ∀ k ∈ List.range m, reaches p q (k + 1) i = true := fun k hk =>
          reaches_anti_threshold hr (by have := List.mem_range.mp hk; omega)
        have hf : (List.range m).filter (fun k => reaches p q (k + 1) i) = List.range m :=
          List.filter_eq_self.mpr all
        simp only [hr, hf, List.filter_cons_of_pos, List.filter_nil, List.length_range, List.length_cons, List.length_nil]
        constructor
        · intro _
          exact reaches_anti_threshold hr (by omega)
        · intro _; omega
  exact gen 255 n hn

/-! ## The sweep -/

/-- Every pair of the list carries an enclosure of its number's threshold side. -/
def ThresholdsOk (p q : Nat) (ts : List (Nat × Enclosure)) : Prop :=
  ∀ t ∈ ts, Encloses t.2 ((2 * t.1 - 1) ^ q * 255 ^ p)

theorem dropReached_eq {p q i : Nat} {a : Enclosure} (ha : Encloses a (i ^ p * 510 ^ q)) :
    ∀ ts, ThresholdsOk p q ts → dropReached p q i a ts = ts.dropWhile fun t => reaches p q t.1 i := by
  intro ts
  induction ts with
  | nil => intro _; rfl
  | cons t ts ih =>
    intro h
    obtain ⟨n, b⟩ := t
    have hb := h (n, b) (by simp)
    have ht : ThresholdsOk p q ts := fun t ht => h t (by simp [ht])
    rcases hr : reaches p q n i with _ | _ <;>
      simp [dropReached, reachesEnc_eq hb ha, hr, ih ht]

theorem thresholdsOk_dropWhile {p q : Nat} {ts : List (Nat × Enclosure)} (f : Nat × Enclosure → Bool)
    (h : ThresholdsOk p q ts) : ThresholdsOk p q (ts.dropWhile f) :=
  fun t ht => h t ((List.dropWhile_suffix f).subset ht)

/-- Dropping what a lower index reaches first changes nothing. -/
theorem dropWhile_reached {p q i i' : Nat} (hi : i ≤ i') : ∀ ts : List (Nat × Enclosure),
    (ts.dropWhile fun t => reaches p q t.1 i).dropWhile (fun t => reaches p q t.1 i') =
      ts.dropWhile fun t => reaches p q t.1 i' := by
  intro ts
  induction ts with
  | nil => rfl
  | cons t ts ih =>
    rcases hr : reaches p q t.1 i with _ | _
    · simp [List.dropWhile_cons, hr]
    · simp [hr, reaches_mono_index hr hi, ih]

theorem sweepEntries_eq {p q : Nat} {all : List (Nat × Enclosure)} (side : Nat → Enclosure)
    (hs : ∀ i, Encloses (side i) (i ^ p * 510 ^ q)) : ∀ (is : List Nat) (ts : List (Nat × Enclosure)),
    is.Pairwise (· ≤ ·) → ThresholdsOk p q ts →
    (∀ i ∈ is, (ts.dropWhile fun t => reaches p q t.1 i) = all.dropWhile fun t => reaches p q t.1 i) →
    sweepEntries p q (is.map fun i => (i, side i)) ts =
      is.map fun i => BitVec.ofNat 8 (255 - (all.dropWhile fun t => reaches p q t.1 i).length) := by
  intro is
  induction is with
  | nil => intros; rfl
  | cons i is ih =>
    intro ts hp hok hall
    have hd := dropReached_eq (hs i) ts hok
    simp only [List.map_cons, sweepEntries, hd, List.pairwise_cons] at *
    rw [hall i (by simp)]
    congr 1
    refine ih _ hp.2 ?_ ?_
    · rw [← hall i (by simp)]; exact thresholdsOk_dropWhile _ hok
    · intro j hj
      exact dropWhile_reached (hp.1 j hj) all

/-- In a list whose flags only ever go from true to false, what is left after dropping the true ones is what is false. -/
theorem length_dropWhile_add_filter {α : Type} (f : α → Bool) : ∀ l : List α,
    l.Pairwise (fun x y => f y = true → f x = true) → (l.dropWhile f).length + (l.filter f).length = l.length := by
  intro l
  induction l with
  | nil => intro _; rfl
  | cons x l ih =>
    intro h
    rw [List.pairwise_cons] at h
    rcases hx : f x with _ | _
    · have none : l.filter f = [] := List.filter_eq_nil_iff.mpr fun y hy hf => by simp [h.1 y hy hf] at hx
      simp [hx, none]
    · have := ih h.2
      simp [hx]
      omega

theorem thresholdSides_count (p q i : Nat) :
    255 - ((thresholdSides p q).dropWhile fun t => reaches p q t.1 i).length = lutCount p q i := by
  have hp : (thresholdSides p q).Pairwise fun x y => reaches p q y.1 i = true → reaches p q x.1 i = true := by
    unfold thresholdSides
    rw [List.pairwise_map]
    exact List.pairwise_lt_range.imp fun hlt h => reaches_anti_threshold h (by dsimp only; omega)
  have hlen := length_dropWhile_add_filter _ _ hp
  have hf : ((thresholdSides p q).filter fun t => reaches p q t.1 i).length = lutCount p q i := by
    unfold thresholdSides lutCount
    rw [List.filter_map, List.length_map]
    rfl
  have hl : (thresholdSides p q).length = 255 := by simp [thresholdSides]
  omega

/-! ## The table -/

theorem f32Mag_lt (x : F32) : f32Mag x < 2 ^ 280 := by
  unfold f32Mag
  have hf : f32Frac x < 2 ^ 23 := Nat.mod_lt _ (by norm_num)
  have he : f32Exp x < 256 := Nat.mod_lt _ (by norm_num)
  rcases h : (f32Exp x == 0) with _ | _
  · simp only [cond_false]
    calc (2 ^ 23 + f32Frac x) * 2 ^ (f32Exp x - 1) < 2 ^ 24 * 2 ^ 255 :=
          Nat.mul_lt_mul_of_lt_of_le (by omega) (Nat.pow_le_pow_right (by norm_num) (by omega)) (by positivity)
      _ = 2 ^ 279 := by rw [← pow_add]
      _ ≤ 2 ^ 280 := Nat.pow_le_pow_right (by norm_num) (by norm_num)
  · simp only [cond_true]
    exact lt_of_lt_of_le hf (Nat.pow_le_pow_right (by norm_num) (by norm_num))

theorem f32Scale_pos : 0 < f32Scale := by unfold f32Scale; positivity

theorem gammaRatio_lt (g : F32) : (gammaRatio g).1 < 2 ^ powFuel ∧ (gammaRatio g).2 < 2 ^ powFuel := by
  have h149 : f32Scale < 2 ^ 280 := Nat.pow_lt_pow_right (by norm_num) (by norm_num)
  exact ⟨lt_of_le_of_lt (Nat.div_le_self _ _) (f32Mag_lt g), lt_of_le_of_lt (Nat.div_le_self _ _) h149⟩

/-- p/q is real(g): p·2^149 = q·(the units of g), and q is not 0. -/
theorem gammaRatio_spec (g : F32) :
    (gammaRatio g).1 * f32Scale = (gammaRatio g).2 * f32Mag g ∧ 0 < (gammaRatio g).2 := by
  have hd : 0 < Nat.gcd (f32Mag g) f32Scale := Nat.gcd_pos_of_pos_right _ f32Scale_pos
  obtain ⟨a, ha⟩ := Nat.gcd_dvd_left (f32Mag g) f32Scale
  obtain ⟨b, hb⟩ := Nat.gcd_dvd_right (f32Mag g) f32Scale
  simp only [gammaRatio]
  refine ⟨?_, Nat.div_pos (Nat.le_of_dvd f32Scale_pos (Nat.gcd_dvd_right _ _)) hd⟩
  calc f32Mag g / Nat.gcd (f32Mag g) f32Scale * f32Scale
      = f32Mag g * f32Scale / Nat.gcd (f32Mag g) f32Scale := by
        rw [Nat.div_mul_right_comm (Nat.gcd_dvd_left _ _)]
    _ = f32Scale / Nat.gcd (f32Mag g) f32Scale * f32Mag g := by
        rw [mul_comm, Nat.div_mul_right_comm (Nat.gcd_dvd_right _ _)]

/-- What build writes (40_gamma_lut.md R121): entry i is the count of the thresholds that i reaches, decided exactly. -/
theorem buildLut_eq (g : F32) :
    buildLut g = (List.range 256).map fun i => BitVec.ofNat 8 (lutCount (gammaRatio g).1 (gammaRatio g).2 i) := by
  obtain ⟨hp, hq⟩ := gammaRatio_lt g
  unfold buildLut
  generalize gammaRatio g = r at *
  obtain ⟨p, q⟩ := r
  simp only at hp hq ⊢
  have side : ∀ i, Encloses (encMul (encPow i powFuel p) (encPow 510 powFuel q)) (i ^ p * 510 ^ q) := fun i =>
    encMul_encloses (encPow_encloses i _ p hp) (encPow_encloses 510 _ q hq)
  have hok : ThresholdsOk p q (thresholdSides p q) := by
    intro t ht
    obtain ⟨k, -, rfl⟩ := List.mem_map.mp ht
    exact encMul_encloses (encPow_encloses (2 * k + 1) _ q hq) (encPow_encloses 255 _ p hp)
  have sorted : (List.range 256).Pairwise (· ≤ ·) := List.pairwise_lt_range.imp fun h => h.le
  have := sweepEntries_eq (all := thresholdSides p q) _ side (List.range 256) (thresholdSides p q) sorted hok
    (fun _ _ => rfl)
  unfold entrySides
  rw [this]
  simp only [thresholdSides_count]

@[simp] theorem buildLut_length (g : F32) : (buildLut g).length = 256 := by simp [buildLut_eq]

/-- lookup(i) of a table just built. -/
theorem lutLookup_buildLut (g : F32) {i : Nat} (hi : i < 256) :
    (lutLookup (buildLut g) i).toNat = lutCount (gammaRatio g).1 (gammaRatio g).2 i := by
  have := lutCount_le (gammaRatio g).1 (gammaRatio g).2 i
  simp [lutLookup, buildLut_eq, List.getD_eq_getElem?_getD, hi]
  omega

end Sys2Proof.Machine
end

