-- ==== Sys2Proof/Laws/Binary32.lean ====
section
/-! SUPPORT. Rounding to binary32: where the last place stands (`roundShift_spec`), the rounded quotient
(`divNearestEven_spec`), that a binary32 value rounds to itself (`f32Round_self`), and that the decoder's shortcuts for
extreme exponents change nothing (`decimalF32_eq`). -/

namespace Sys2Proof.Machine

/-! ## The last place -/

/-- Each step of the halving search is at most one more than all the steps after it. -/
def Halving : List Nat → Prop
  | [] => True
  | k :: ks => k ≤ 1 + ks.sum ∧ Halving ks

theorem roundShift_search (q : Nat) : ∀ (ks : List Nat) (s : Nat), Halving ks →
    (s ≤ roundShift q ks s ∧ roundShift q ks s ≤ s + ks.sum) ∧
      (roundShift q ks s = s ∨ 2 ^ (23 + roundShift q ks s) ≤ q) ∧
      (roundShift q ks s = s + ks.sum ∨ q < 2 ^ (24 + roundShift q ks s)) := by
  intro ks
  induction ks with
  | nil => intro s _; simp [roundShift]
  | cons k ks ih =>
    intro s ⟨hk, hks⟩
    simp only [roundShift, List.sum_cons]
    rcases hb : Nat.ble (2 ^ (23 + (s + k))) q with _ | _
    · have hlt : q < 2 ^ (23 + (s + k)) := by
        by_contra h
        simp [Nat.ble_eq.mpr (Nat.le_of_not_lt h)] at hb
      obtain ⟨⟨h1, h2⟩, h3, h4⟩ := ih s hks
      refine ⟨⟨h1, by simp only [cond_false]; omega⟩, h3, .inr ?_⟩
      simp only [cond_false]
      rcases h4 with h4 | h4
      · exact lt_of_lt_of_le hlt (Nat.pow_le_pow_right (by norm_num) (by omega))
      · exact h4
    · have hle : 2 ^ (23 + (s + k)) ≤ q := Nat.ble_eq.mp hb
      obtain ⟨⟨h1, h2⟩, h3, h4⟩ := ih (s + k) hks
      simp only [cond_true]
      refine ⟨⟨by omega, by omega⟩, .inr ?_, ?_⟩
      · rcases h3 with h3 | h3
        · rw [h3]; exact hle
        · exact h3
      · rcases h4 with h4 | h4
        · exact .inl (by omega)
        · exact .inr h4

theorem halvingSteps_halving : Halving halvingSteps := by simp [Halving, halvingSteps]

/-- The shift s: at most 255; 0 or with 2^(23+s) ≤ q; 255 or with q < 2^(24+s). -/
theorem roundShift_spec (q : Nat) :
    roundShift q halvingSteps 0 ≤ 255 ∧ (roundShift q halvingSteps 0 = 0 ∨ 2 ^ (23 + roundShift q halvingSteps 0) ≤ q) ∧
      (roundShift q halvingSteps 0 = 255 ∨ q < 2 ^ (24 + roundShift q halvingSteps 0)) := by
  have := roundShift_search q halvingSteps 0 halvingSteps_halving
  simpa [halvingSteps] using ⟨this.1.2, this.2⟩

/-- There is only one such shift. -/
theorem roundShift_unique {q s : Nat} (h1 : s ≤ 255) (h2 : s = 0 ∨ 2 ^ (23 + s) ≤ q) (h3 : s = 255 ∨ q < 2 ^ (24 + s)) :
    roundShift q halvingSteps 0 = s := by
  obtain ⟨r1, r2, r3⟩ := roundShift_spec q
  generalize roundShift q halvingSteps 0 = r at *
  have clash : ∀ a b : Nat, a < b → 2 ^ (23 + b) ≤ q → q < 2 ^ (24 + a) → False := by
    intro a b hab hb ha
    have : 2 ^ (24 + a) ≤ 2 ^ (23 + b) := Nat.pow_le_pow_right (by norm_num) (by omega)
    omega
  rcases lt_trichotomy r s with h | h | h
  · exact (clash r s h (h2.resolve_left (by omega)) (r3.resolve_left (by omega))).elim
  · exact h
  · exact (clash s r h (r2.resolve_left (by omega)) (h3.resolve_left (by omega))).elim

/-! ## The rounded quotient -/

/-- a / d rounded: nearest, and even when two are nearest. -/
theorem divNearestEven_spec (a : Nat) {d : Nat} (hd : 0 < d) :
    2 * (divNearestEven a d * d) ≤ 2 * a + d ∧ 2 * a ≤ 2 * (divNearestEven a d * d) + d ∧
      ((2 * (divNearestEven a d * d) = 2 * a + d ∨ 2 * a = 2 * (divNearestEven a d * d) + d) →
        divNearestEven a d % 2 = 0) := by
  have hdiv := Nat.div_add_mod a d
  have hmod := Nat.mod_lt a hd
  rw [mul_comm] at hdiv
  unfold divNearestEven
  generalize a / d = m at *
  generalize a % d = r at *
  rcases hc : (Nat.blt d (2 * r) || (2 * r == d && m % 2 == 1)) with _ | _
  · simp only [Bool.or_eq_false_iff, Bool.and_eq_false_iff, beq_eq_false_iff_ne] at hc
    have h1 : ¬ d < 2 * r := fun h => by simp [Nat.blt_eq.mpr h] at hc
    simp only [cond_false]
    refine ⟨by omega, by omega, fun h => ?_⟩
    rcases hc.2 with h2 | h2 <;> omega
  · simp only [Bool.or_eq_true, Nat.blt_eq, Bool.and_eq_true, beq_iff_eq] at hc
    simp only [cond_true, add_mul, one_mul]
    refine ⟨by omega, by omega, fun h => by omega⟩

theorem divNearestEven_exact (m : Nat) {d : Nat} (hd : 0 < d) : divNearestEven (m * d) d = m := by
  have h0 : m * d % d = 0 := Nat.mul_mod_left m d
  have h1 : m * d / d = m := Nat.mul_div_cancel m hd
  unfold divNearestEven
  rw [h0, h1]
  have : (Nat.blt d (2 * 0) || (2 * 0 == d && m % 2 == 1)) = false := by
    rw [Bool.or_eq_false_iff, Bool.and_eq_false_iff, beq_eq_false_iff_ne, ← Bool.not_eq_true (Nat.blt _ _), Nat.blt_eq]
    exact ⟨by omega, .inl (by omega)⟩
  rw [this]
  rfl

/-- A quotient under one half rounds to 0. -/
theorem divNearestEven_small {a d : Nat} (h : 2 * a < d) : divNearestEven a d = 0 := by
  have h0 : a % d = a := Nat.mod_eq_of_lt (by omega)
  have h1 : a / d = 0 := Nat.div_eq_of_lt (by omega)
  unfold divNearestEven
  rw [h0, h1]
  have : Nat.blt d (2 * a) = false := by rw [← Bool.not_eq_true, Nat.blt_eq]; omega
  simp [this]

/-! ## Values and bits -/

/-- The magnitude bits of x (bits 30:0). -/
def f32Low (x : F32) : Nat := x.toNat % 2 ^ 31

theorem f32Low_eq (x : F32) : f32Low x = f32Exp x * 2 ^ 23 + f32Frac x := by
  have := x.isLt
  unfold f32Low f32Exp f32Frac
  omega

theorem f32_bits (x : F32) : x.toNat = (bif f32Sign x then 2 ^ 31 else 0) + f32Low x := by
  have := x.isLt
  unfold f32Sign f32Low
  rcases h : Nat.ble (2 ^ 31) x.toNat with _ | _
  · have : ¬ 2 ^ 31 ≤ x.toNat := fun hle => by rw [Nat.ble_eq.mpr hle] at h; cases h
    simp only [cond_false]; omega
  · have : 2 ^ 31 ≤ x.toNat := Nat.ble_eq.mp h
    simp only [cond_true]; omega

/-- The magnitude of a value: significand times its last place. -/
theorem f32Mag_eq (x : F32) : f32Mag x = (f32Low x - (f32Exp x - 1) * 2 ^ 23) * 2 ^ (f32Exp x - 1) := by
  have hl := f32Low_eq x
  unfold f32Mag
  rcases h : (f32Exp x == 0) with _ | _
  · have h0 : f32Exp x ≠ 0 := by simpa using h
    simp only [cond_false]
    congr 1
    have : f32Exp x * 2 ^ 23 = (f32Exp x - 1) * 2 ^ 23 + 2 ^ 23 := by
      conv_lhs => rw [← Nat.sub_add_cancel (Nat.one_le_iff_ne_zero.mpr h0)]
      ring
    omega
  · have h0 : f32Exp x = 0 := by simpa using h
    simp [hl, h0]

/-- A finite value rounds to its own magnitude bits. -/
theorem roundMag_self {x : F32} (hx : f32Finite x = true) : roundMag (f32Mag x) f32Scale = f32Low x := by
  have hfin : f32Exp x ≠ 255 := by simpa [f32Finite] using hx
  have he : f32Exp x < 256 := Nat.mod_lt _ (by norm_num)
  have hf : f32Frac x < 2 ^ 23 := Nat.mod_lt _ (by norm_num)
  have hl := f32Low_eq x
  have hq : f32Mag x * f32Scale / f32Scale = f32Mag x := Nat.mul_div_cancel _ f32Scale_pos
  have hm := f32Mag_eq x
  set s := f32Exp x - 1 with hs
  set m := f32Low x - s * 2 ^ 23 with hmdef
  have hmlt : m < 2 ^ 24 := by
    rcases Nat.eq_zero_or_pos (f32Exp x) with h | h
    · simp [hmdef, hs, hl, h]; omega
    · have : f32Exp x * 2 ^ 23 = s * 2 ^ 23 + 2 ^ 23 := by omega
      omega
  have hmge : s = 0 ∨ 2 ^ 23 ≤ m := by
    rcases Nat.lt_or_ge (f32Exp x) 2 with h | h
    · left; omega
    · right
      have : f32Exp x * 2 ^ 23 = s * 2 ^ 23 + 2 ^ 23 := by omega
      omega
  have hlow : s * 2 ^ 23 + m = f32Low x := by
    have : s * 2 ^ 23 ≤ f32Low x := by rw [hl]; nlinarith [Nat.sub_le (f32Exp x) 1]
    omega
  have hshift : roundShift (f32Mag x) halvingSteps 0 = s := by
    refine roundShift_unique (by omega) ?_ (.inr ?_)
    · rcases hmge with h | h
      · exact .inl h
      · exact .inr (by rw [hm, pow_add]; exact Nat.mul_le_mul_right _ h)
    · rw [hm, pow_add]
      exact Nat.mul_lt_mul_of_pos_right hmlt (by positivity)
  have hround : divNearestEven (f32Mag x * f32Scale) (f32Scale * 2 ^ s) = m := by
    have e : f32Mag x * f32Scale = m * (f32Scale * 2 ^ s) := by rw [hm]; ring
    rw [e]
    exact divNearestEven_exact m (Nat.mul_pos f32Scale_pos (by positivity))
  unfold roundMag
  simp only [hq, hshift, hround, hlow]
  refine Nat.min_eq_left ?_
  have : f32Exp x ≤ 254 := by omega
  rw [hl]
  omega

/-- A finite value rounds to itself. -/
theorem f32Round_self {x : F32} (hx : f32Finite x = true) : f32Round (f32Sign x) (f32Mag x) f32Scale = x := by
  unfold f32Round
  rw [roundMag_self hx, ← f32_bits x]
  simp

/-! ## The decoder's shortcuts -/

theorem roundMag_zero (den : Nat) : roundMag 0 den = 0 := by
  have h : roundShift 0 halvingSteps 0 = 0 := roundShift_unique (by omega) (.inl rfl) (.inr (by positivity))
  rcases Nat.eq_zero_or_pos den with hd | hd
  · subst hd; simp [roundMag, h, divNearestEven, Nat.blt]; rfl
  · have := divNearestEven_exact 0 hd
    rw [zero_mul] at this
    simp [roundMag, h, this]

/-- A value too small to round to anything but zero. -/
theorem roundMag_tiny {num den : Nat} (h : 2 * (num * f32Scale) < den) : roundMag num den = 0 := by
  have hq : num * f32Scale / den = 0 := Nat.div_eq_of_lt (by omega)
  have hs : roundShift 0 halvingSteps 0 = 0 := roundShift_unique (by omega) (.inl rfl) (.inr (by positivity))
  simp [roundMag, hq, hs, divNearestEven_small h]

/-- A value of 2^129 or more rounds to an infinity. -/
theorem roundMag_huge {num den : Nat} (hd : 0 < den) (h : 2 ^ 129 * den ≤ num) : roundMag num den = 0x7F800000 := by
  have hp : (2 : Nat) ^ (23 + 255) = 2 ^ 129 * f32Scale := by
    unfold f32Scale
    rw [← pow_add]
  have hq : 2 ^ (23 + 255) ≤ num * f32Scale / den := by
    rw [Nat.le_div_iff_mul_le hd, hp, mul_right_comm]
    exact Nat.mul_le_mul_right _ h
  have hs : roundShift (num * f32Scale / den) halvingSteps 0 = 255 :=
    roundShift_unique (le_refl 255) (Or.inr hq) (Or.inl rfl)
  clear hq hp h
  unfold roundMag
  simp only [hs]
  exact Nat.min_eq_right (by omega)

/-- What decimalF32 says without its shortcuts (30_encoding.md R89): the rounded value, none if it is an infinity. -/
def decimalPlain (neg : Bool) (D : Nat) (E : Int) : Option F32 :=
  if 0x7F800000 ≤ roundMag (D * 10 ^ E.toNat) (10 ^ (-E).toNat) then none
  else some (f32Round neg (D * 10 ^ E.toNat) (10 ^ (-E).toNat))

theorem decimalPlain_of_finite {neg : Bool} {D : Nat} {E : Int}
    (h : ¬ 0x7F800000 ≤ roundMag (D * 10 ^ E.toNat) (10 ^ (-E).toNat)) :
    decimalPlain neg D E = some (f32Round neg (D * 10 ^ E.toNat) (10 ^ (-E).toNat)) := if_neg h

theorem decimalPlain_of_zero {neg : Bool} {D : Nat} {E : Int}
    (h : roundMag (D * 10 ^ E.toNat) (10 ^ (-E).toNat) = 0) : decimalPlain neg D E = some (f32Round neg 0 1) := by
  rw [decimalPlain_of_finite (by rw [h]; norm_num)]
  unfold f32Round
  rw [h, roundMag_zero]

/-- A number of `len` digits at an exponent that leaves it under 10^-46 rounds to zero. -/
theorem roundMag_small_exponent {len D : Nat} {E : Int} (hD : D < 10 ^ len) (h : E + len ≤ -46) :
    roundMag (D * 10 ^ E.toNat) (10 ^ (-E).toNat) = 0 := by
  have hE : E.toNat = 0 := by omega
  have hscale : 2 * f32Scale ≤ 10 ^ 46 := by unfold f32Scale; norm_num
  refine roundMag_tiny ?_
  rw [hE, pow_zero, mul_one]
  calc 2 * (D * f32Scale) = D * (2 * f32Scale) := by ring
    _ ≤ D * 10 ^ 46 := Nat.mul_le_mul_left _ hscale
    _ < 10 ^ len * 10 ^ 46 := Nat.mul_lt_mul_of_pos_right hD (by positivity)
    _ = 10 ^ (len + 46) := (pow_add ..).symm
    _ ≤ 10 ^ (-E).toNat := Nat.pow_le_pow_right (by norm_num) (by omega)

/-- A number that is not 0, at an exponent of 39 or more, rounds to an infinity. -/
theorem roundMag_large_exponent {D : Nat} {E : Int} (hD : 0 < D) (h : 39 ≤ E) :
    roundMag (D * 10 ^ E.toNat) (10 ^ (-E).toNat) = 0x7F800000 := by
  have hE : (-E).toNat = 0 := by omega
  have h39 : 2 ^ 129 ≤ 10 ^ 39 := by norm_num
  refine roundMag_huge (by positivity) ?_
  rw [hE, pow_zero, mul_one]
  exact h39.trans ((Nat.pow_le_pow_right (by norm_num) (by omega)).trans (Nat.le_mul_of_pos_left _ hD))

/-- The shortcuts for extreme exponents change nothing. -/
theorem decimalF32_eq (neg : Bool) {len D : Nat} (E : Int) (hD : D < 10 ^ len) :
    decimalF32 neg len D E = decimalPlain neg D E := by
  unfold decimalF32
  rcases h0 : (D == 0) with _ | _
  · rcases h1 : decide (39 ≤ E) with _ | _
    · rcases h2 : decide (E + len ≤ -46) with _ | _
      · rcases h3 : Nat.ble 0x7F800000 (roundMag (D * 10 ^ E.toNat) (10 ^ (-E).toNat)) with _ | _
        · refine (decimalPlain_of_finite fun h => ?_).symm
          rw [Nat.ble_eq.mpr h] at h3
          cases h3
        · exact (if_pos (Nat.ble_eq.mp h3)).symm
      · exact (decimalPlain_of_zero (roundMag_small_exponent hD (of_decide_eq_true h2))).symm
    · have hD0 : 0 < D := Nat.pos_of_ne_zero (by simpa using h0)
      exact (if_pos (le_of_eq (roundMag_large_exponent hD0 (of_decide_eq_true h1)).symm)).symm
  · have hD0 : D = 0 := by simpa using h0
    exact (decimalPlain_of_zero (by rw [hD0, zero_mul, roundMag_zero])).symm

end Sys2Proof.Machine
end

