-- ==== Sys2Proof/Laws/State.lean ====
section
/-! SUPPORT. For each update of State and each field, what the field is after the update: so that no proof unfolds a record
update. -/

namespace Sys2Proof.Machine

@[simp] theorem State.withMode_params (m : Mode) (s : State) : (s.withMode m).params = s.params := rfl
@[simp] theorem State.withMode_mode (m : Mode) (s : State) : (s.withMode m).mode = m := rfl
@[simp] theorem State.withMode_color (m : Mode) (s : State) : (s.withMode m).color = s.color := rfl
@[simp] theorem State.withMode_lock (m : Mode) (s : State) : (s.withMode m).lock = s.lock := rfl
@[simp] theorem State.withMode_bus (m : Mode) (s : State) : (s.withMode m).bus = s.bus := rfl
@[simp] theorem State.withMode_fs (m : Mode) (s : State) : (s.withMode m).fs = s.fs := rfl
@[simp] theorem State.withMode_channels (m : Mode) (s : State) : (s.withMode m).channels = s.channels := rfl
@[simp] theorem State.withMode_evlog (m : Mode) (s : State) : (s.withMode m).evlog = s.evlog := rfl
@[simp] theorem State.withMode_buslog (m : Mode) (s : State) : (s.withMode m).buslog = s.buslog := rfl
@[simp] theorem State.withMode_sysJob (m : Mode) (s : State) : (s.withMode m).sysJob = s.sysJob := rfl
@[simp] theorem State.withMode_device (m : Mode) (s : State) : (s.withMode m).device = s.device := rfl
@[simp] theorem State.withMode_actor (m : Mode) (s : State) : (s.withMode m).actor = s.actor := rfl
@[simp] theorem State.withMode_script (m : Mode) (s : State) : (s.withMode m).script = s.script := rfl
@[simp] theorem State.withMode_drawn (m : Mode) (s : State) : (s.withMode m).drawn = s.drawn := rfl

@[simp] theorem State.withColor_params (c : ColorState) (s : State) : (s.withColor c).params = s.params := rfl
@[simp] theorem State.withColor_mode (c : ColorState) (s : State) : (s.withColor c).mode = s.mode := rfl
@[simp] theorem State.withColor_color (c : ColorState) (s : State) : (s.withColor c).color = c := rfl
@[simp] theorem State.withColor_lock (c : ColorState) (s : State) : (s.withColor c).lock = s.lock := rfl
@[simp] theorem State.withColor_bus (c : ColorState) (s : State) : (s.withColor c).bus = s.bus := rfl
@[simp] theorem State.withColor_fs (c : ColorState) (s : State) : (s.withColor c).fs = s.fs := rfl
@[simp] theorem State.withColor_channels (c : ColorState) (s : State) : (s.withColor c).channels = s.channels := rfl
@[simp] theorem State.withColor_evlog (c : ColorState) (s : State) : (s.withColor c).evlog = s.evlog := rfl
@[simp] theorem State.withColor_buslog (c : ColorState) (s : State) : (s.withColor c).buslog = s.buslog := rfl
@[simp] theorem State.withColor_sysJob (c : ColorState) (s : State) : (s.withColor c).sysJob = s.sysJob := rfl
@[simp] theorem State.withColor_device (c : ColorState) (s : State) : (s.withColor c).device = s.device := rfl
@[simp] theorem State.withColor_actor (c : ColorState) (s : State) : (s.withColor c).actor = s.actor := rfl
@[simp] theorem State.withColor_script (c : ColorState) (s : State) : (s.withColor c).script = s.script := rfl
@[simp] theorem State.withColor_drawn (c : ColorState) (s : State) : (s.withColor c).drawn = s.drawn := rfl

@[simp] theorem State.withLock_params (l : Lock) (s : State) : (s.withLock l).params = s.params := rfl
@[simp] theorem State.withLock_mode (l : Lock) (s : State) : (s.withLock l).mode = s.mode := rfl
@[simp] theorem State.withLock_color (l : Lock) (s : State) : (s.withLock l).color = s.color := rfl
@[simp] theorem State.withLock_lock (l : Lock) (s : State) : (s.withLock l).lock = l := rfl
@[simp] theorem State.withLock_bus (l : Lock) (s : State) : (s.withLock l).bus = s.bus := rfl
@[simp] theorem State.withLock_fs (l : Lock) (s : State) : (s.withLock l).fs = s.fs := rfl
@[simp] theorem State.withLock_channels (l : Lock) (s : State) : (s.withLock l).channels = s.channels := rfl
@[simp] theorem State.withLock_evlog (l : Lock) (s : State) : (s.withLock l).evlog = s.evlog := rfl
@[simp] theorem State.withLock_buslog (l : Lock) (s : State) : (s.withLock l).buslog = s.buslog := rfl
@[simp] theorem State.withLock_sysJob (l : Lock) (s : State) : (s.withLock l).sysJob = s.sysJob := rfl
@[simp] theorem State.withLock_device (l : Lock) (s : State) : (s.withLock l).device = s.device := rfl
@[simp] theorem State.withLock_actor (l : Lock) (s : State) : (s.withLock l).actor = s.actor := rfl
@[simp] theorem State.withLock_script (l : Lock) (s : State) : (s.withLock l).script = s.script := rfl
@[simp] theorem State.withLock_drawn (l : Lock) (s : State) : (s.withLock l).drawn = s.drawn := rfl

@[simp] theorem State.withBus_params (b : Bus) (s : State) : (s.withBus b).params = s.params := rfl
@[simp] theorem State.withBus_mode (b : Bus) (s : State) : (s.withBus b).mode = s.mode := rfl
@[simp] theorem State.withBus_color (b : Bus) (s : State) : (s.withBus b).color = s.color := rfl
@[simp] theorem State.withBus_lock (b : Bus) (s : State) : (s.withBus b).lock = s.lock := rfl
@[simp] theorem State.withBus_bus (b : Bus) (s : State) : (s.withBus b).bus = b := rfl
@[simp] theorem State.withBus_fs (b : Bus) (s : State) : (s.withBus b).fs = s.fs := rfl
@[simp] theorem State.withBus_channels (b : Bus) (s : State) : (s.withBus b).channels = s.channels := rfl
@[simp] theorem State.withBus_evlog (b : Bus) (s : State) : (s.withBus b).evlog = s.evlog := rfl
@[simp] theorem State.withBus_buslog (b : Bus) (s : State) : (s.withBus b).buslog = s.buslog := rfl
@[simp] theorem State.withBus_sysJob (b : Bus) (s : State) : (s.withBus b).sysJob = s.sysJob := rfl
@[simp] theorem State.withBus_device (b : Bus) (s : State) : (s.withBus b).device = s.device := rfl
@[simp] theorem State.withBus_actor (b : Bus) (s : State) : (s.withBus b).actor = s.actor := rfl
@[simp] theorem State.withBus_script (b : Bus) (s : State) : (s.withBus b).script = s.script := rfl
@[simp] theorem State.withBus_drawn (b : Bus) (s : State) : (s.withBus b).drawn = s.drawn := rfl

@[simp] theorem State.withFs_params (f : FrameSeq) (s : State) : (s.withFs f).params = s.params := rfl
@[simp] theorem State.withFs_mode (f : FrameSeq) (s : State) : (s.withFs f).mode = s.mode := rfl
@[simp] theorem State.withFs_color (f : FrameSeq) (s : State) : (s.withFs f).color = s.color := rfl
@[simp] theorem State.withFs_lock (f : FrameSeq) (s : State) : (s.withFs f).lock = s.lock := rfl
@[simp] theorem State.withFs_bus (f : FrameSeq) (s : State) : (s.withFs f).bus = s.bus := rfl
@[simp] theorem State.withFs_fs (f : FrameSeq) (s : State) : (s.withFs f).fs = f := rfl
@[simp] theorem State.withFs_channels (f : FrameSeq) (s : State) : (s.withFs f).channels = s.channels := rfl
@[simp] theorem State.withFs_evlog (f : FrameSeq) (s : State) : (s.withFs f).evlog = s.evlog := rfl
@[simp] theorem State.withFs_buslog (f : FrameSeq) (s : State) : (s.withFs f).buslog = s.buslog := rfl
@[simp] theorem State.withFs_sysJob (f : FrameSeq) (s : State) : (s.withFs f).sysJob = s.sysJob := rfl
@[simp] theorem State.withFs_device (f : FrameSeq) (s : State) : (s.withFs f).device = s.device := rfl
@[simp] theorem State.withFs_actor (f : FrameSeq) (s : State) : (s.withFs f).actor = s.actor := rfl
@[simp] theorem State.withFs_script (f : FrameSeq) (s : State) : (s.withFs f).script = s.script := rfl
@[simp] theorem State.withFs_drawn (f : FrameSeq) (s : State) : (s.withFs f).drawn = s.drawn := rfl

@[simp] theorem State.withChannels_params (cs : List Channel) (s : State) : (s.withChannels cs).params = s.params := rfl
@[simp] theorem State.withChannels_mode (cs : List Channel) (s : State) : (s.withChannels cs).mode = s.mode := rfl
@[simp] theorem State.withChannels_color (cs : List Channel) (s : State) : (s.withChannels cs).color = s.color := rfl
@[simp] theorem State.withChannels_lock (cs : List Channel) (s : State) : (s.withChannels cs).lock = s.lock := rfl
@[simp] theorem State.withChannels_bus (cs : List Channel) (s : State) : (s.withChannels cs).bus = s.bus := rfl
@[simp] theorem State.withChannels_fs (cs : List Channel) (s : State) : (s.withChannels cs).fs = s.fs := rfl
@[simp] theorem State.withChannels_channels (cs : List Channel) (s : State) : (s.withChannels cs).channels = cs := rfl
@[simp] theorem State.withChannels_evlog (cs : List Channel) (s : State) : (s.withChannels cs).evlog = s.evlog := rfl
@[simp] theorem State.withChannels_buslog (cs : List Channel) (s : State) : (s.withChannels cs).buslog = s.buslog := rfl
@[simp] theorem State.withChannels_sysJob (cs : List Channel) (s : State) : (s.withChannels cs).sysJob = s.sysJob := rfl
@[simp] theorem State.withChannels_device (cs : List Channel) (s : State) : (s.withChannels cs).device = s.device := rfl
@[simp] theorem State.withChannels_actor (cs : List Channel) (s : State) : (s.withChannels cs).actor = s.actor := rfl
@[simp] theorem State.withChannels_script (cs : List Channel) (s : State) : (s.withChannels cs).script = s.script := rfl
@[simp] theorem State.withChannels_drawn (cs : List Channel) (s : State) : (s.withChannels cs).drawn = s.drawn := rfl

@[simp] theorem State.withEvlog_params (es : List Event) (s : State) : (s.withEvlog es).params = s.params := rfl
@[simp] theorem State.withEvlog_mode (es : List Event) (s : State) : (s.withEvlog es).mode = s.mode := rfl
@[simp] theorem State.withEvlog_color (es : List Event) (s : State) : (s.withEvlog es).color = s.color := rfl
@[simp] theorem State.withEvlog_lock (es : List Event) (s : State) : (s.withEvlog es).lock = s.lock := rfl
@[simp] theorem State.withEvlog_bus (es : List Event) (s : State) : (s.withEvlog es).bus = s.bus := rfl
@[simp] theorem State.withEvlog_fs (es : List Event) (s : State) : (s.withEvlog es).fs = s.fs := rfl
@[simp] theorem State.withEvlog_channels (es : List Event) (s : State) : (s.withEvlog es).channels = s.channels := rfl
@[simp] theorem State.withEvlog_evlog (es : List Event) (s : State) : (s.withEvlog es).evlog = es := rfl
@[simp] theorem State.withEvlog_buslog (es : List Event) (s : State) : (s.withEvlog es).buslog = s.buslog := rfl
@[simp] theorem State.withEvlog_sysJob (es : List Event) (s : State) : (s.withEvlog es).sysJob = s.sysJob := rfl
@[simp] theorem State.withEvlog_device (es : List Event) (s : State) : (s.withEvlog es).device = s.device := rfl
@[simp] theorem State.withEvlog_actor (es : List Event) (s : State) : (s.withEvlog es).actor = s.actor := rfl
@[simp] theorem State.withEvlog_script (es : List Event) (s : State) : (s.withEvlog es).script = s.script := rfl
@[simp] theorem State.withEvlog_drawn (es : List Event) (s : State) : (s.withEvlog es).drawn = s.drawn := rfl

@[simp] theorem State.withBuslog_params (bs : List BusRecord) (s : State) : (s.withBuslog bs).params = s.params := rfl
@[simp] theorem State.withBuslog_mode (bs : List BusRecord) (s : State) : (s.withBuslog bs).mode = s.mode := rfl
@[simp] theorem State.withBuslog_color (bs : List BusRecord) (s : State) : (s.withBuslog bs).color = s.color := rfl
@[simp] theorem State.withBuslog_lock (bs : List BusRecord) (s : State) : (s.withBuslog bs).lock = s.lock := rfl
@[simp] theorem State.withBuslog_bus (bs : List BusRecord) (s : State) : (s.withBuslog bs).bus = s.bus := rfl
@[simp] theorem State.withBuslog_fs (bs : List BusRecord) (s : State) : (s.withBuslog bs).fs = s.fs := rfl
@[simp] theorem State.withBuslog_channels (bs : List BusRecord) (s : State) : (s.withBuslog bs).channels = s.channels := rfl
@[simp] theorem State.withBuslog_evlog (bs : List BusRecord) (s : State) : (s.withBuslog bs).evlog = s.evlog := rfl
@[simp] theorem State.withBuslog_buslog (bs : List BusRecord) (s : State) : (s.withBuslog bs).buslog = bs := rfl
@[simp] theorem State.withBuslog_sysJob (bs : List BusRecord) (s : State) : (s.withBuslog bs).sysJob = s.sysJob := rfl
@[simp] theorem State.withBuslog_device (bs : List BusRecord) (s : State) : (s.withBuslog bs).device = s.device := rfl
@[simp] theorem State.withBuslog_actor (bs : List BusRecord) (s : State) : (s.withBuslog bs).actor = s.actor := rfl
@[simp] theorem State.withBuslog_script (bs : List BusRecord) (s : State) : (s.withBuslog bs).script = s.script := rfl
@[simp] theorem State.withBuslog_drawn (bs : List BusRecord) (s : State) : (s.withBuslog bs).drawn = s.drawn := rfl

@[simp] theorem State.withSysJob_params (j : Job) (s : State) : (s.withSysJob j).params = s.params := rfl
@[simp] theorem State.withSysJob_mode (j : Job) (s : State) : (s.withSysJob j).mode = s.mode := rfl
@[simp] theorem State.withSysJob_color (j : Job) (s : State) : (s.withSysJob j).color = s.color := rfl
@[simp] theorem State.withSysJob_lock (j : Job) (s : State) : (s.withSysJob j).lock = s.lock := rfl
@[simp] theorem State.withSysJob_bus (j : Job) (s : State) : (s.withSysJob j).bus = s.bus := rfl
@[simp] theorem State.withSysJob_fs (j : Job) (s : State) : (s.withSysJob j).fs = s.fs := rfl
@[simp] theorem State.withSysJob_channels (j : Job) (s : State) : (s.withSysJob j).channels = s.channels := rfl
@[simp] theorem State.withSysJob_evlog (j : Job) (s : State) : (s.withSysJob j).evlog = s.evlog := rfl
@[simp] theorem State.withSysJob_buslog (j : Job) (s : State) : (s.withSysJob j).buslog = s.buslog := rfl
@[simp] theorem State.withSysJob_sysJob (j : Job) (s : State) : (s.withSysJob j).sysJob = j := rfl
@[simp] theorem State.withSysJob_device (j : Job) (s : State) : (s.withSysJob j).device = s.device := rfl
@[simp] theorem State.withSysJob_actor (j : Job) (s : State) : (s.withSysJob j).actor = s.actor := rfl
@[simp] theorem State.withSysJob_script (j : Job) (s : State) : (s.withSysJob j).script = s.script := rfl
@[simp] theorem State.withSysJob_drawn (j : Job) (s : State) : (s.withSysJob j).drawn = s.drawn := rfl

@[simp] theorem State.withDevice_params (d : Option SpiConfig) (s : State) : (s.withDevice d).params = s.params := rfl
@[simp] theorem State.withDevice_mode (d : Option SpiConfig) (s : State) : (s.withDevice d).mode = s.mode := rfl
@[simp] theorem State.withDevice_color (d : Option SpiConfig) (s : State) : (s.withDevice d).color = s.color := rfl
@[simp] theorem State.withDevice_lock (d : Option SpiConfig) (s : State) : (s.withDevice d).lock = s.lock := rfl
@[simp] theorem State.withDevice_bus (d : Option SpiConfig) (s : State) : (s.withDevice d).bus = s.bus := rfl
@[simp] theorem State.withDevice_fs (d : Option SpiConfig) (s : State) : (s.withDevice d).fs = s.fs := rfl
@[simp] theorem State.withDevice_channels (d : Option SpiConfig) (s : State) : (s.withDevice d).channels = s.channels := rfl
@[simp] theorem State.withDevice_evlog (d : Option SpiConfig) (s : State) : (s.withDevice d).evlog = s.evlog := rfl
@[simp] theorem State.withDevice_buslog (d : Option SpiConfig) (s : State) : (s.withDevice d).buslog = s.buslog := rfl
@[simp] theorem State.withDevice_sysJob (d : Option SpiConfig) (s : State) : (s.withDevice d).sysJob = s.sysJob := rfl
@[simp] theorem State.withDevice_device (d : Option SpiConfig) (s : State) : (s.withDevice d).device = d := rfl
@[simp] theorem State.withDevice_actor (d : Option SpiConfig) (s : State) : (s.withDevice d).actor = s.actor := rfl
@[simp] theorem State.withDevice_script (d : Option SpiConfig) (s : State) : (s.withDevice d).script = s.script := rfl
@[simp] theorem State.withDevice_drawn (d : Option SpiConfig) (s : State) : (s.withDevice d).drawn = s.drawn := rfl

@[simp] theorem State.withActor_params (a : Agent) (s : State) : (s.withActor a).params = s.params := rfl
@[simp] theorem State.withActor_mode (a : Agent) (s : State) : (s.withActor a).mode = s.mode := rfl
@[simp] theorem State.withActor_color (a : Agent) (s : State) : (s.withActor a).color = s.color := rfl
@[simp] theorem State.withActor_lock (a : Agent) (s : State) : (s.withActor a).lock = s.lock := rfl
@[simp] theorem State.withActor_bus (a : Agent) (s : State) : (s.withActor a).bus = s.bus := rfl
@[simp] theorem State.withActor_fs (a : Agent) (s : State) : (s.withActor a).fs = s.fs := rfl
@[simp] theorem State.withActor_channels (a : Agent) (s : State) : (s.withActor a).channels = s.channels := rfl
@[simp] theorem State.withActor_evlog (a : Agent) (s : State) : (s.withActor a).evlog = s.evlog := rfl
@[simp] theorem State.withActor_buslog (a : Agent) (s : State) : (s.withActor a).buslog = s.buslog := rfl
@[simp] theorem State.withActor_sysJob (a : Agent) (s : State) : (s.withActor a).sysJob = s.sysJob := rfl
@[simp] theorem State.withActor_device (a : Agent) (s : State) : (s.withActor a).device = s.device := rfl
@[simp] theorem State.withActor_actor (a : Agent) (s : State) : (s.withActor a).actor = a := rfl
@[simp] theorem State.withActor_script (a : Agent) (s : State) : (s.withActor a).script = s.script := rfl
@[simp] theorem State.withActor_drawn (a : Agent) (s : State) : (s.withActor a).drawn = s.drawn := rfl

@[simp] theorem State.withScript_params (as : List Action) (n : Nat) (s : State) : (s.withScript as n).params = s.params := rfl
@[simp] theorem State.withScript_mode (as : List Action) (n : Nat) (s : State) : (s.withScript as n).mode = s.mode := rfl
@[simp] theorem State.withScript_color (as : List Action) (n : Nat) (s : State) : (s.withScript as n).color = s.color := rfl
@[simp] theorem State.withScript_lock (as : List Action) (n : Nat) (s : State) : (s.withScript as n).lock = s.lock := rfl
@[simp] theorem State.withScript_bus (as : List Action) (n : Nat) (s : State) : (s.withScript as n).bus = s.bus := rfl
@[simp] theorem State.withScript_fs (as : List Action) (n : Nat) (s : State) : (s.withScript as n).fs = s.fs := rfl
@[simp] theorem State.withScript_channels (as : List Action) (n : Nat) (s : State) : (s.withScript as n).channels = s.channels := rfl
@[simp] theorem State.withScript_evlog (as : List Action) (n : Nat) (s : State) : (s.withScript as n).evlog = s.evlog := rfl
@[simp] theorem State.withScript_buslog (as : List Action) (n : Nat) (s : State) : (s.withScript as n).buslog = s.buslog := rfl
@[simp] theorem State.withScript_sysJob (as : List Action) (n : Nat) (s : State) : (s.withScript as n).sysJob = s.sysJob := rfl
@[simp] theorem State.withScript_device (as : List Action) (n : Nat) (s : State) : (s.withScript as n).device = s.device := rfl
@[simp] theorem State.withScript_actor (as : List Action) (n : Nat) (s : State) : (s.withScript as n).actor = s.actor := rfl
@[simp] theorem State.withScript_script (as : List Action) (n : Nat) (s : State) : (s.withScript as n).script = as := rfl
@[simp] theorem State.withScript_drawn (as : List Action) (n : Nat) (s : State) : (s.withScript as n).drawn = n := rfl

end Sys2Proof.Machine
end

