-- ==== Sys2Proof/Laws/Memory.lean ====
section
/-! SUPPORT. The storage spaces keep their form (`Memory.wf`) under every datapath operation, and have it at reset; and what one
element reads as after each operation. -/

namespace Sys2Proof.Machine

theorem memory_wf_iff (n : Nat) (m : Memory) :
    m.wf n = true ↔ m.lut.length = 256 ∧ m.t.length = 3 * n ∧ m.o.length = 3 * n := by
  simp [Memory.wf, and_assoc]

@[simp] theorem repeatColor_length (n : Nat) (r g b : F32) : (repeatColor n r g b).length = 3 * n := by
  induction n with
  | zero => rfl
  | succ n ih => simp [repeatColor, ih]; omega

@[simp] theorem flat_length (px : List Pixel) : (flat px).length = 3 * px.length := by
  induction px with
  | nil => rfl
  | cons p px ih => obtain ⟨r, g, b⟩ := p; simp [flat, ih]; omega

@[simp] theorem frameInput_length (px : List Pixel) : (frameInput px).length = 3 * px.length := by simp [frameInput]

/-- The three channels of LED i of a repeated color (00_scope.md R12). -/
theorem repeatColor_getElem? {n i : Nat} (r g b : F32) (hi : i < n) :
    (repeatColor n r g b)[3 * i]? = some r ∧ (repeatColor n r g b)[3 * i + 1]? = some g ∧
      (repeatColor n r g b)[3 * i + 2]? = some b := by
  induction n generalizing i with
  | zero => omega
  | succ n ih =>
    cases i with
    | zero => simp [repeatColor]
    | succ i =>
      have := ih (i := i) (by omega)
      simpa [repeatColor, Nat.mul_add] using this

/-! ## Each operation keeps the form -/

theorem setAll_wf {n : Nat} {c : ColorState} (r g b : Int) (h : c.mem.wf n = true) :
    (setAll n r g b c).mem.wf n = true := by
  rw [memory_wf_iff] at *; simpa [setAll] using ⟨h.1, h.2.2⟩

theorem setPixel_wf {n : Nat} {c : ColorState} (i r g b : Int) (h : c.mem.wf n = true) :
    (setPixel n i r g b c).mem.wf n = true := by
  rw [memory_wf_iff] at *
  unfold setPixel
  cases decide (0 ≤ i) && decide (i < n) <;> simpa [writeT] using h

theorem smoothAll_wf {n : Nat} {c : ColorState} {new : List F32} (hn : new.length = 3 * n) (h : c.mem.wf n = true) :
    (smoothAll new c).mem.wf n = true := by
  rw [memory_wf_iff] at *; simpa [smoothAll, hn, h.2.1] using ⟨h.1, h.2.2⟩

theorem reshape_wf {n : Nat} {c : ColorState} (h : c.mem.wf n = true) : (reshape c).mem.wf n = true := by
  rw [memory_wf_iff] at *; simpa [reshape] using ⟨h.1, h.2.1⟩

theorem setGamma_wf {n : Nat} {c : ColorState} (g : F32) (h : c.mem.wf n = true) : (setGamma g c).mem.wf n = true := by
  unfold setGamma
  cases gammaRefused g
  · apply reshape_wf
    rw [memory_wf_iff] at *
    exact ⟨by simp, h.2⟩
  · exact h

theorem setBrightness_wf {n : Nat} {c : ColorState} (b : F32) (h : c.mem.wf n = true) :
    (setBrightness b c).mem.wf n = true := reshape_wf h

theorem setSmoothingAlpha_wf {n : Nat} {c : ColorState} (a : F32) (h : c.mem.wf n = true) :
    (setSmoothingAlpha a c).mem.wf n = true := h

theorem clearColor_wf {n : Nat} {c : ColorState} (h : c.mem.wf n = true) : (clearColor n c).mem.wf n = true := by
  rw [memory_wf_iff] at *; simpa [clearColor] using h.1

theorem applySmoothing_wf {s : State} (a : Agent) (new : List F32) (h : s.color.mem.wf s.params.n = true) :
    (applySmoothing a new s).color.mem.wf s.params.n = true := by
  unfold applySmoothing
  rcases hn : (new.length == 3 * s.params.n) with _ | _
  · simpa [emit] using h
  · simpa [onColor] using smoothAll_wf (by simpa using hn) h

theorem resetWith_wf (p : Params) : (State.resetWith p).color.mem.wf p.n = true := by
  simp [memory_wf_iff, State.resetWith]

theorem reset_wf : State.reset.color.mem.wf State.reset.params.n = true := resetWith_wf Config.params

/-! ## One element after an operation -/

/-- Every output byte after reshape is the shape of its target (41_color_state.md R144). -/
theorem reshape_o (c : ColorState) (j : Nat) :
    (reshape c).mem.o[j]? = (c.mem.t[j]?).map (shape c.mem.lut c.bright) := by
  simp [reshape]

@[simp] theorem reshape_t (c : ColorState) : (reshape c).mem.t = c.mem.t := rfl
@[simp] theorem reshape_lut (c : ColorState) : (reshape c).mem.lut = c.mem.lut := rfl
@[simp] theorem reshape_gamma (c : ColorState) : (reshape c).gamma = c.gamma := rfl
@[simp] theorem reshape_bright (c : ColorState) : (reshape c).bright = c.bright := rfl
@[simp] theorem reshape_alpha (c : ColorState) : (reshape c).alpha = c.alpha := rfl

/-- Every target after a smoothing step (41_color_state.md R143). -/
theorem smoothAll_t (c : ColorState) (new : List F32) {j : Nat} {t v : F32} (ht : c.mem.t[j]? = some t)
    (hv : new[j]? = some v) : (smoothAll new c).mem.t[j]? = some (emaStep c.alpha t v) := by
  simp [smoothAll, List.getElem?_zipWith, ht, hv]

/-- setPixel outside the strip does nothing (41_color_state.md R142). -/
theorem setPixel_outside {n : Nat} {i : Int} (r g b : Int) (c : ColorState) (h : i < 0 ∨ (n : Int) ≤ i) :
    setPixel n i r g b c = c := by
  have : (decide (0 ≤ i) && decide (i < n)) = false := by
    rcases h with h | h <;> simp <;> omega
  simp [setPixel, this]

/-- setPixel inside the strip writes the LED's three targets and no other. -/
theorem setPixel_t {n : Nat} {i : Int} (r g b : Int) (c : ColorState) (h0 : 0 ≤ i) (h1 : i < n) (j : Nat)
    (hj : j < c.mem.t.length) :
    (setPixel n i r g b c).mem.t[j]? =
      if j = 3 * i.toNat then some (f32OfInt r)
      else if j = 3 * i.toNat + 1 then some (f32OfInt g)
      else if j = 3 * i.toNat + 2 then some (f32OfInt b)
      else c.mem.t[j]? := by
  have : (decide (0 ≤ i) && decide (i < n)) = true := by simp [h0, h1]
  simp only [setPixel, this, cond_true, writeT, channelIndex, List.getElem?_set, List.length_set]
  split_ifs <;> first | rfl | omega

end Sys2Proof.Machine
end

