-- ==== Sys2Proof/Laws/Ops.lean ====
section
/-! SUPPORT. For each shared operation, once: what it can answer and what it leaves alone. -/

namespace Sys2Proof.Machine

/-! ## Small facts -/

@[simp] theorem emit_evlog (code : EventCode) (a : Agent) (info : EventInfo) (s : State) :
    (emit code a info s).evlog = s.evlog ++ [{ code := code, agent := a, info := info }] := rfl

/-- emit writes EVLOG only. -/
theorem emit_eq (code : EventCode) (a : Agent) (info : EventInfo) (s : State) :
    emit code a info s = s.withEvlog (s.evlog ++ [{ code := code, agent := a, info := info }]) := rfl

/-- onColor writes Color State only. -/
theorem onColor_eq (f : ColorState → ColorState) (s : State) : onColor f s = s.withColor (f s.color) := rfl

theorem lockFree_iff (l : Lock) : lockFree l = true ↔ l = .free := by cases l <;> simp [lockFree]

theorem busIdle_iff (s : State) : busIdle s = true ↔ s.bus.state = .idle := by simp [busIdle]

theorem lockHolder_none (l : Lock) : lockHolder l = none ↔ l = .free := by cases l <;> simp [lockHolder]

/-! ## Channels as a list -/

/-- Reading a channel after an update of CH[k] that keeps ids. -/
theorem findChannel_updateChannel (k j : Nat) (f : Channel → Channel) (hf : ∀ c, (f c).id = c.id) (s : State) :
    findChannel j (updateChannel k f s) = (findChannel j s).map fun c => bif c.id == k then f c else c := by
  have hid : ∀ c : Channel, (bif c.id == k then f c else c).id = c.id := by
    intro c; cases c.id == k <;> simp [hf]
  simp only [findChannel, updateChannel, State.withChannels_channels]
  induction s.channels with
  | nil => rfl
  | cons c cs ih =>
    rcases h : (c.id == j) with _ | _
    · simp [hid, h, ih]
    · simp [hid, h]

/-- The channel found has the id asked for. -/
theorem findChannel_id {k : Nat} {s : State} {c : Channel} (h : findChannel k s = some c) : c.id = k := by
  have := List.find?_some h
  simpa using this

theorem findChannel_mem {k : Nat} {s : State} {c : Channel} (h : findChannel k s = some c) : c ∈ s.channels :=
  List.mem_of_find?_eq_some h

/-- An update of CH[k] leaves every other channel alone (60_exceptions.md R294). -/
theorem findChannel_updateChannel_ne {k j : Nat} (hkj : j ≠ k) (f : Channel → Channel) (hf : ∀ c, (f c).id = c.id)
    (s : State) : findChannel j (updateChannel k f s) = findChannel j s := by
  rw [findChannel_updateChannel k j f hf]
  rcases h : findChannel j s with _ | c
  · rfl
  · have : (c.id == k) = false := by simpa [findChannel_id h] using hkj
    simp [this]

theorem findChannel_updateChannel_self {k : Nat} (f : Channel → Channel) (hf : ∀ c, (f c).id = c.id) (s : State) :
    findChannel k (updateChannel k f s) = (findChannel k s).map f := by
  rw [findChannel_updateChannel k k f hf]
  rcases h : findChannel k s with _ | c
  · rfl
  · simp [findChannel_id h]

/-! ## Commands in progress -/

theorem jobOf_setJob_fs (j : Job) (s : State) : jobOf .fs (setJob .fs j s) = j := rfl
theorem jobOf_setJob_sys (j : Job) (s : State) : jobOf .sys (setJob .sys j s) = j := rfl

theorem jobOf_setJob_ch {k : Nat} {c : Channel} (j : Job) {s : State} (h : findChannel k s = some c) :
    jobOf (.ch k) (setJob (.ch k) j s) = j := by
  simp [jobOf, setJob, findChannel_updateChannel_self, h]

/-- setJob moves one agent's command and no other. -/
theorem jobOf_setJob_ne {a b : Agent} (hab : b ≠ a) (j : Job) (s : State) : jobOf b (setJob a j s) = jobOf b s := by
  cases a <;> cases b <;> first
    | rfl
    | exact absurd rfl hab
    | (rename_i k l
       have hkl : l ≠ k := fun h => hab (by rw [h])
       simp only [jobOf, setJob]
       rw [findChannel_updateChannel_ne hkl]
       exact fun _ => rfl)

/-- completeJob moves one agent's command and no other. -/
theorem jobOf_completeJob_ne {a b : Agent} (hab : b ≠ a) (s : State) : jobOf b (completeJob a s) = jobOf b s := by
  cases a <;> cases b <;> first
    | rfl
    | exact absurd rfl hab
    | (rename_i k l
       have hkl : l ≠ k := fun h => hab (by rw [h])
       simp only [jobOf, completeJob]
       rw [findChannel_updateChannel_ne hkl]
       exact fun _ => rfl)

theorem fsAfterFrame_job (s : State) : (fsAfterFrame s).job = .idle := by unfold fsAfterFrame; cases s.mode <;> rfl

/-- completeJob ends the agent's command. -/
theorem jobOf_completeJob (a : Agent) (s : State) : jobOf a (completeJob a s) = .idle := by
  cases a with
  | ch k =>
    simp only [jobOf, completeJob]
    rw [findChannel_updateChannel_self]
    · rcases findChannel k s with _ | c <;> rfl
    · exact fun _ => rfl
  | fs => exact fsAfterFrame_job s
  | bus => rfl
  | sys => rfl

/-- setJob writes only channels, FS and SYS's job. -/
theorem setJob_frame (a : Agent) (j : Job) (s : State) :
    (setJob a j s).params = s.params ∧ (setJob a j s).mode = s.mode ∧ (setJob a j s).color = s.color ∧
      (setJob a j s).lock = s.lock ∧ (setJob a j s).bus = s.bus ∧ (setJob a j s).evlog = s.evlog ∧
      (setJob a j s).buslog = s.buslog ∧ (setJob a j s).device = s.device ∧ (setJob a j s).actor = s.actor ∧
      (setJob a j s).script = s.script ∧ (setJob a j s).drawn = s.drawn := by
  cases a <;> simp [setJob, updateChannel]

/-- completeJob writes only channels, FS and SYS's job. -/
theorem completeJob_frame (a : Agent) (s : State) :
    (completeJob a s).params = s.params ∧ (completeJob a s).mode = s.mode ∧ (completeJob a s).color = s.color ∧
      (completeJob a s).lock = s.lock ∧ (completeJob a s).bus = s.bus ∧ (completeJob a s).evlog = s.evlog ∧
      (completeJob a s).buslog = s.buslog ∧ (completeJob a s).device = s.device ∧ (completeJob a s).actor = s.actor ∧
      (completeJob a s).script = s.script ∧ (completeJob a s).drawn = s.drawn := by
  cases a <;> simp [completeJob, updateChannel]

/-! ## The execution templates (43_commands.md R218) -/

/-- A transferring command runs its section or waits; it never stops. -/
theorem runTransferring_cases (a : Agent) (body : State → State) (s : State) :
    (mayBeginTransfer s = true ∧ runTransferring a body s = .next (endSection a (body s))) ∨
      (mayBeginTransfer s = false ∧ runTransferring a body s = .next s) := by
  unfold runTransferring
  rcases mayBeginTransfer s with _ | _ <;> simp

/-- A non-transferring command runs its section and completes, or waits; it never stops. -/
theorem runPlain_cases (a : Agent) (body : State → State) (s : State) :
    (s.lock = .free ∧ runPlain a body s = .next (completeJob a (body s))) ∨
      (s.lock ≠ .free ∧ runPlain a body s = .next s) := by
  unfold runPlain mayBegin
  rcases h : lockFree s.lock with _ | _
  · exact .inr ⟨fun hl => by simp [hl, lockFree] at h, rfl⟩
  · exact .inl ⟨(lockFree_iff _).mp h, rfl⟩

/-- When a transferring section may begin (20_memory.md R60, 42_bus_writer.md R181). -/
theorem mayBeginTransfer_iff (s : State) :
    mayBeginTransfer s = true ↔ s.lock = .free ∧ (s.params.busOrder = .inLock → s.bus.state = .idle) := by
  unfold mayBeginTransfer mayBegin
  cases s.params.busOrder <;> simp [lockFree_iff, busIdle_iff]

/-- Under IN_LOCK the section ends with LOCK held and the transfer of the snapshot requested (42_bus_writer.md R188). -/
theorem endSection_inLock {a : Agent} {s : State} (h : s.params.busOrder = .inLock) :
    endSection a s = setJob a .transfer
      ((s.withLock (.held a)).withBus { s.bus with state := .xfer, frame := s.color.mem.o, client := some a }) := by
  simp [endSection, h, requestTransfer, busTransfer, snapshot]

/-- Under SNAPSHOT the section ends with the command waiting for BUS_LOCK with its snapshot (42_bus_writer.md R189). -/
theorem endSection_snapshot {a : Agent} {s : State} (h : s.params.busOrder = .snapshot) :
    endSection a s = setJob a (.waitBus s.color.mem.o) s := by
  simp [endSection, h, snapshot]

/-- Taking BUS_LOCK (42_bus_writer.md R189): only when it is free and the bus IDLE. -/
theorem acquireBusLock_cases (a : Agent) (bytes : List Byte) (s : State) :
    (s.bus.lock = .free ∧ s.bus.state = .idle ∧
        acquireBusLock a bytes s = requestTransfer a bytes (s.withBus { s.bus with lock := .held a })) ∨
      acquireBusLock a bytes s = s := by
  unfold acquireBusLock
  rcases h : (lockFree s.bus.lock && busIdle s) with _ | _
  · exact .inr rfl
  · rw [Bool.and_eq_true] at h
    exact .inl ⟨(lockFree_iff _).mp h.1, (busIdle_iff _).mp h.2, rfl⟩

/-- Finishing (42_bus_writer.md R185, R188, R189): only once BUS has released the agent. -/
theorem finishTransfer_cases (a : Agent) (s : State) :
    (s.bus.client ≠ some a ∧ finishTransfer a s = completeJob a (releaseLock s)) ∨ finishTransfer a s = s := by
  unfold finishTransfer
  rcases h : (s.bus.client == some a) with _ | _
  · exact .inl ⟨by simpa using h, rfl⟩
  · exact .inr rfl

/-- Which lock is released. -/
theorem releaseLock_cases (s : State) :
    (s.params.busOrder = .inLock ∧ releaseLock s = s.withLock .free) ∨
      (s.params.busOrder = .snapshot ∧ releaseLock s = s.withBus { s.bus with lock := .free }) := by
  unfold releaseLock
  cases h : s.params.busOrder <;> simp

/-- A smoothing step, or its event (41_color_state.md R143). -/
theorem applySmoothing_cases (a : Agent) (new : List F32) (s : State) :
    (new.length = 3 * s.params.n ∧ applySmoothing a new s = s.withColor (smoothAll new s.color)) ∨
      (new.length ≠ 3 * s.params.n ∧ applySmoothing a new s = emit .frameLen a (.length new.length) s) := by
  unfold applySmoothing
  rcases h : (new.length == 3 * s.params.n) with _ | _
  · exact .inr ⟨by simpa using h, rfl⟩
  · exact .inl ⟨by simpa using h, rfl⟩

/-! ## The bus sequencer (42_bus_writer.md) -/

/-- A step of BUS (42_bus_writer.md R180, R182, R185): a transfer, the end of a latch, or nothing. -/
theorem busStep_cases (res : XferResult) (s : State) :
    (s.bus.state = .xfer ∧ xferAnswerLegal s.params.n res = true ∧ busStep res s = xferStep res s) ∨
      (s.bus.state = .latch ∧ s.bus.latchLeft = 0 ∧ busStep res s = latchEnd s) ∨ busStep res s = s := by
  unfold busStep
  rcases h : s.bus.state with _ | _ | _
  · simp
  · rcases h' : xferAnswerLegal s.params.n res with _ | _ <;> simp
  · rcases h' : (s.bus.latchLeft == 0) with _ | _
    · simp
    · exact .inr (.inl ⟨rfl, by simpa using h', rfl⟩)

/-- emitXferEvent writes EVLOG only, and at most one event (42_bus_writer.md R184, 60_exceptions.md R287). -/
theorem emitXferEvent_cases (res : XferResult) (s : State) :
    emitXferEvent res s = s ∨ ∃ e : Event, e.agent = .bus ∧ emitXferEvent res s = s.withEvlog (s.evlog ++ [e]) := by
  cases res with
  | done k =>
    simp only [emitXferEvent]
    rcases Nat.blt k (3 * s.params.n) with _ | _
    · exact .inl rfl
    · exact .inr ⟨_, rfl, rfl⟩
  | ioerror => exact .inr ⟨_, rfl, rfl⟩

/-! ## Channels and the host (43_commands.md) -/

/-- OPEN_CH (43_commands.md R211): a new channel in RUN, or nothing. -/
theorem openChannel_cases (k : Nat) (s : State) :
    (s.mode = .run ∧ roomForChannel s.params s.channels.length = true ∧ findChannel k s = none ∧
        openChannel k s = s.withChannels (insertChannel (newChannel k) s.channels)) ∨ openChannel k s = s := by
  unfold openChannel
  rcases h : (s.mode == .run && roomForChannel s.params s.channels.length && (findChannel k s).isNone) with _ | _
  · exact .inr rfl
  · simp only [Bool.and_eq_true, beq_iff_eq, Option.isNone_iff_eq_none] at h
    exact .inl ⟨h.1.1, h.1.2, h.2, rfl⟩

/-- RECV (43_commands.md R212, R213): the bytes appended, or the overlong line's event, or nothing. -/
theorem receive_cases (k : Nat) (bytes : List Byte) (s : State) :
    (∃ c, findChannel k s = some c ∧ c.openState = .opened ∧ accOverlong s.params (appendBytes bytes c) = true ∧
        receive k bytes s = emit .lineOverlong (.ch k) .none
          (updateChannel k (fun c => { c with acc := [], discard := true }) s)) ∨
      (∃ c, findChannel k s = some c ∧ c.openState = .opened ∧ accOverlong s.params (appendBytes bytes c) = false ∧
        receive k bytes s = updateChannel k (fun c => settleLines s.mode (appendBytes bytes c)) s) ∨
      receive k bytes s = s := by
  unfold receive
  rcases hf : findChannel k s with _ | c
  · simp
  · rcases ho : c.openState with _ | _
    · rcases h : accOverlong s.params (appendBytes bytes c) with _ | _
      · exact .inr (.inl ⟨c, rfl, ho, h, by simp [ho, h]⟩)
      · exact .inl ⟨c, rfl, ho, h, by simp [ho, h]⟩
    · simp [ho]

/-- What a line comes to (43_commands.md R212-R214, R216). -/
theorem lineFate_command {p : Params} {c : Channel} {i : Instr} (h : lineFate p c = .command i) :
    decodeLine (beforeLF c.acc) = .cmd i ∧ c.discard = false := by
  unfold lineFate at h
  rcases hd : c.discard with _ | _
  · rcases ho : overLineMax p (beforeLF c.acc).length with _ | _
    · rcases hdec : decodeLine (beforeLF c.acc) with j | d <;> simp [hd, ho, hdec] at h
      exact ⟨by rw [h], rfl⟩
    · simp [hd, ho] at h
  · simp [hd] at h

/-! ## SYS (70_reset_and_hazards.md) -/

/-- The boot (70_reset_and_hazards.md R321, R323). -/
theorem boot_cases (r : DevOpen) (s : State) :
    (paramsLegal s.params = true ∧ r = .ok ∧
        boot r s = .next (((bootColor s).withDevice (some (openedDevice s.params))).withMode .run)) ∨
      (paramsLegal s.params = true ∧ r = .fail ∧ boot r s = .next (failOpen (bootColor s))) ∨
      (paramsLegal s.params = false ∧ boot r s = .refused .illegalParameters) := by
  unfold boot
  rcases paramsLegal s.params with _ | _ <;> cases r <;> simp

/-- The shutdown sequence after its request (70_reset_and_hazards.md R324). -/
theorem shutdownStep_cases (s : State) :
    (s.sysJob = .idle ∧ quiescent s = true ∧ shutdownStep s = finalClear s) ∨
      (s.sysJob = .transfer ∧ s.bus.client ≠ some .sys ∧ shutdownStep s = stopBlock s) ∨ shutdownStep s = s := by
  unfold shutdownStep
  rcases h : s.sysJob with _ | _ | _ | _
  · rcases hq : quiescent s with _ | _ <;> simp
  · simp
  · simp
  · rcases hc : (s.bus.client == some .sys) with _ | _
    · exact .inr (.inl ⟨rfl, by simpa using hc, rfl⟩)
    · simp

/-! ## The step -/

@[simp] theorem consume_params (s : State) : (consume s).params = s.params := by unfold consume; split <;> rfl
@[simp] theorem consume_mode (s : State) : (consume s).mode = s.mode := by unfold consume; split <;> rfl
@[simp] theorem consume_color (s : State) : (consume s).color = s.color := by unfold consume; split <;> rfl
@[simp] theorem consume_lock (s : State) : (consume s).lock = s.lock := by unfold consume; split <;> rfl
@[simp] theorem consume_bus (s : State) : (consume s).bus = s.bus := by unfold consume; split <;> rfl
@[simp] theorem consume_fs (s : State) : (consume s).fs = s.fs := by unfold consume; split <;> rfl
@[simp] theorem consume_channels (s : State) : (consume s).channels = s.channels := by unfold consume; split <;> rfl
@[simp] theorem consume_evlog (s : State) : (consume s).evlog = s.evlog := by unfold consume; split <;> rfl
@[simp] theorem consume_buslog (s : State) : (consume s).buslog = s.buslog := by unfold consume; split <;> rfl
@[simp] theorem consume_sysJob (s : State) : (consume s).sysJob = s.sysJob := by unfold consume; split <;> rfl
@[simp] theorem consume_device (s : State) : (consume s).device = s.device := by unfold consume; split <;> rfl
@[simp] theorem consume_actor (s : State) : (consume s).actor = s.actor := by unfold consume; split <;> rfl

/-- A script's first action is the step's. -/
theorem step_script {s : State} {a : Action} {rest : List Action} (h : s.script = a :: rest) :
    step s = stepAction a (s.withScript rest s.drawn) := by
  simp [step, nextAction, consume, h]

/-- exec stops only on an exponent that is not finite (40_gamma_lut.md R122). -/
theorem exec_goes_on (i : Instr) (s : State) (h : i.wf = true) : ∃ t, exec i s = .next t := by
  cases i with
  | color r g b => rcases runTransferring_cases s.actor (colorSection r g b) s with h | h <;> exact ⟨_, h.2⟩
  | pix idx r g b => rcases runTransferring_cases s.actor (pixSection idx r g b) s with h | h <;> exact ⟨_, h.2⟩
  | bright b => rcases runTransferring_cases s.actor (brightSection b) s with h | h <;> exact ⟨_, h.2⟩
  | gamma g =>
    have hg : f32Finite g = true := h
    simp only [exec, execGamma, hg, cond_true]
    rcases runTransferring_cases s.actor (gammaSection g) s with h | h <;> exact ⟨_, h.2⟩
  | smooth a => rcases runPlain_cases s.actor (smoothSection a) s with h | h <;> exact ⟨_, h.2⟩
  | showStrip => rcases runTransferring_cases s.actor showSection s with h | h <;> exact ⟨_, h.2⟩
  | clear => rcases runTransferring_cases s.actor clearSection s with h | h <;> exact ⟨_, h.2⟩
  | status => rcases runPlain_cases s.actor statusSection s with h | h <;> exact ⟨_, h.2⟩
  | frame px => rcases runTransferring_cases .fs (frameSection px) s with h | h <;> exact ⟨_, h.2⟩

end Sys2Proof.Machine
end

