-- ==== Sys2Proof/Laws/PerInstr.lean ====
section
/-! SUPPORT. The per-instruction family `OneLine`: the canonical spelling of every command is one line, with no 0x0A in it
(30_encoding.md R82, R95), so that a channel takes it whole. -/

namespace Sys2Proof.Laws

open Machine

theorem hasLF_append (a b : List Byte) : hasLF (a ++ b) = (hasLF a || hasLF b) := by simp [hasLF]

theorem hasLF_cons (c : Byte) (b : List Byte) : hasLF (c :: b) = (c == byteLF || hasLF b) := by simp [hasLF]

theorem hasLF_flatten (l : List (List Byte)) (h : ∀ b ∈ l, hasLF b = false) : hasLF l.flatten = false := by
  induction l with
  | nil => rfl
  | cons b l ih =>
    rw [List.flatten_cons, hasLF_append, h b (by simp), ih fun c hc => h c (by simp [hc])]
    rfl

/-- A decimal digit is not 0x0A. -/
theorem digitByte_ne_LF {d : Nat} (h : d < 10) : (digitByte d == byteLF) = false := by
  rw [beq_eq_false_iff_ne]
  intro he
  have := congrArg BitVec.toNat he
  simp [digitByte, byteLF] at this
  omega

theorem natTextAux_hasLF (fuel : Nat) : ∀ (n : Nat) (acc : List Byte), hasLF acc = false →
    hasLF (natTextAux fuel n acc) = false := by
  induction fuel with
  | zero => intro n acc h; exact h
  | succ fuel ih =>
    intro n acc h
    have hd : hasLF (digitByte (n % 10) :: acc) = false := by
      rw [hasLF_cons, digitByte_ne_LF (Nat.mod_lt _ (by norm_num)), h]; rfl
    unfold natTextAux
    rcases (n / 10 == 0) with _ | _
    · exact ih _ _ hd
    · exact hd

theorem natText_hasLF (n : Nat) : hasLF (natText n) = false := natTextAux_hasLF _ _ _ rfl

theorem intText_hasLF (v : Int) : hasLF (intText v) = false := by
  unfold intText
  rcases decide (v < 0) with _ | _
  · exact natText_hasLF _
  · rw [cond_true, hasLF_cons, natText_hasLF]; rfl

theorem fracText_hasLF (fuel : Nat) : ∀ r, r < f32Scale → hasLF (fracText fuel r) = false := by
  induction fuel with
  | zero => intro r _; rfl
  | succ fuel ih =>
    intro r hr
    unfold fracText
    rcases (r == 0) with _ | _
    · have hd : r * 10 / f32Scale < 10 := Nat.div_lt_of_lt_mul (by omega)
      rw [cond_false, hasLF_cons, digitByte_ne_LF hd, ih _ (Nat.mod_lt _ f32Scale_pos)]; rfl
    · rfl

theorem numText_hasLF (x : F32) : hasLF (numText x) = false := by
  have hf := fracText_hasLF 149 (f32Mag x % f32Scale) (Nat.mod_lt _ f32Scale_pos)
  have hd : hasLF [digitByte 0] = false := rfl
  unfold numText
  generalize f32Mag x % f32Scale = r at *
  simp only [hasLF_append, hasLF_cons, natText_hasLF]
  cases f32Sign x <;> cases (r == 0) <;> simp only [cond_true, cond_false, hf, hd] <;> rfl

/-- A spelling whose arguments hold no 0x0A holds none. -/
theorem spell_hasLF (m : Mnemonic) (args : List (List Byte)) (h : ∀ a ∈ args, hasLF a = false) :
    hasLF (spell m args) = false := by
  have hm : hasLF (mnemonicBytes m) = false := by cases m <;> rfl
  have ha : hasLF ((args.map (byteSpace :: ·)).flatten) = false := by
    refine hasLF_flatten _ fun b hb => ?_
    obtain ⟨a, ha, rfl⟩ := List.mem_map.mp hb
    rw [hasLF_cons, h a ha]
    rfl
  rw [spell, hasLF_append, hm, ha]
  rfl

/-- The command's spelling, if a line spells it, holds no 0x0A. -/
def OneLine.Statement (i : Instr) : Prop := ∀ bytes, encode i = .line bytes → hasLF bytes = false

theorem OneLine.color (r g b : Int) : OneLine.Statement (.color r g b) := by
  rintro _ ⟨⟩
  exact spell_hasLF _ _ (by simp [intText_hasLF])

theorem OneLine.pix (idx r g b : Int) : OneLine.Statement (.pix idx r g b) := by
  rintro _ ⟨⟩
  exact spell_hasLF _ _ (by simp [intText_hasLF])

theorem OneLine.bright (b : F32) : OneLine.Statement (.bright b) := by
  rintro _ ⟨⟩
  exact spell_hasLF _ _ (by simp [numText_hasLF])

theorem OneLine.gamma (g : F32) : OneLine.Statement (.gamma g) := by
  rintro _ ⟨⟩
  exact spell_hasLF _ _ (by simp [numText_hasLF])

theorem OneLine.smooth (a : F32) : OneLine.Statement (.smooth a) := by
  rintro _ ⟨⟩
  exact spell_hasLF _ _ (by simp [numText_hasLF])

theorem OneLine.showStrip : OneLine.Statement .showStrip := by
  rintro _ ⟨⟩
  exact spell_hasLF _ _ (by simp)

theorem OneLine.clear : OneLine.Statement .clear := by
  rintro _ ⟨⟩
  exact spell_hasLF _ _ (by simp)

theorem OneLine.status : OneLine.Statement .status := by
  rintro _ ⟨⟩
  exact spell_hasLF _ _ (by simp)

theorem OneLine.frame (px : List Pixel) : OneLine.Statement (.frame px) := by
  rintro _ ⟨⟩

end Sys2Proof.Laws
end

