-- ==== Sys2Proof/Tests/Slice0.lean ====
section
/-! SUPPORT. Tests on fixed values, each expected result taken from the spec's own examples and tables, and for every statement
of Sys2Proof/Certificates/Slice0/Obligations.lean that has hypotheses a concrete case that meets them. -/

namespace Sys2Proof.Tests

open Machine

-- One theorem at a time: each evaluation by the kernel would otherwise hold a thread of its own.
set_option Elab.async false

/-! ## WellFormed refuses ill-formed terms (30_encoding.md R88, R89) -/

theorem test_wf_color_r : Instr.wf (.color 2147483648 0 0) = false := by decide
theorem test_wf_color_g : Instr.wf (.color 0 (-2147483649) 0) = false := by decide
theorem test_wf_color_b : Instr.wf (.color 0 0 2147483648) = false := by decide
theorem test_wf_pix_idx : Instr.wf (.pix 2147483648 0 0 0) = false := by decide
theorem test_wf_pix_r : Instr.wf (.pix 0 2147483648 0 0) = false := by decide
theorem test_wf_pix_g : Instr.wf (.pix 0 0 2147483648 0) = false := by decide
theorem test_wf_pix_b : Instr.wf (.pix 0 0 0 (-2147483649)) = false := by decide
theorem test_wf_bright : Instr.wf (.bright 0x7F800000#32) = false := by decide
theorem test_wf_gamma : Instr.wf (.gamma 0x7FC00000#32) = false := by decide
theorem test_wf_smooth : Instr.wf (.smooth 0xFF800000#32) = false := by decide

/-! ## Decoding: the bytes written out from the tables of 30_encoding.md R85, R97 -/

/-- R97: `COLOR 100 150 200`. -/
theorem test_decode_color :
    decodeLine [0x43#8, 0x4F#8, 0x4C#8, 0x4F#8, 0x52#8, 0x20#8, 0x31#8, 0x30#8, 0x30#8, 0x20#8, 0x31#8, 0x35#8, 0x30#8,
      0x20#8, 0x32#8, 0x30#8, 0x30#8] = .cmd (.color 100 150 200) := by decide +kernel

/-- R96: `PIX -1 0 0 0`. -/
theorem test_decode_pix :
    decodeLine [0x50#8, 0x49#8, 0x58#8, 0x20#8, 0x2D#8, 0x31#8, 0x20#8, 0x30#8, 0x20#8, 0x30#8, 0x20#8, 0x30#8] =
      .cmd (.pix (-1) 0 0 0) := by decide +kernel

/-- R92: `BRIGHT 2` is a percentage, f32(0.02) = 0x3CA3D70A. -/
theorem test_decode_bright_percent :
    decodeLine [0x42#8, 0x52#8, 0x49#8, 0x47#8, 0x48#8, 0x54#8, 0x20#8, 0x32#8] = .cmd (.bright 0x3CA3D70A#32) := by
  decide +kernel

/-- R92: `BRIGHT 2.0` is a fraction. -/
theorem test_decode_bright_fraction :
    decodeLine [0x42#8, 0x52#8, 0x49#8, 0x47#8, 0x48#8, 0x54#8, 0x20#8, 0x32#8, 0x2E#8, 0x30#8] =
      .cmd (.bright 0x40000000#32) := by decide +kernel

/-- `GAMMA 0.01` decodes to f32(0.01) = 0x3C23D70A (41_color_state.md R145). -/
theorem test_decode_gamma :
    decodeLine [0x47#8, 0x41#8, 0x4D#8, 0x4D#8, 0x41#8, 0x20#8, 0x30#8, 0x2E#8, 0x30#8, 0x31#8] =
      .cmd (.gamma 0x3C23D70A#32) := by decide +kernel

/-- R96: `SMOOTH -0.5`. -/
theorem test_decode_smooth :
    decodeLine [0x53#8, 0x4D#8, 0x4F#8, 0x4F#8, 0x54#8, 0x48#8, 0x20#8, 0x2D#8, 0x30#8, 0x2E#8, 0x35#8] =
      .cmd (.smooth 0xBF000000#32) := by decide +kernel

theorem test_decode_show : decodeLine [0x53#8, 0x48#8, 0x4F#8, 0x57#8] = .cmd .showStrip := by decide
theorem test_decode_clear : decodeLine [0x43#8, 0x4C#8, 0x45#8, 0x41#8, 0x52#8] = .cmd .clear := by decide
theorem test_decode_status : decodeLine [0x53#8, 0x54#8, 0x41#8, 0x54#8, 0x55#8, 0x53#8] = .cmd .status := by decide

/-- R98: a frame-port transaction is already decoded. -/
theorem test_decode_frame : decode (.frame [(200#8, 100#8, 0#8)]) = .cmd (.frame [(200#8, 100#8, 0#8)]) := by decide

/-- 43_commands.md R223: `GAMMA 1e39` overflows, so it is dropped. -/
theorem test_decode_overflow :
    decodeLine [0x47#8, 0x41#8, 0x4D#8, 0x4D#8, 0x41#8, 0x20#8, 0x31#8, 0x65#8, 0x33#8, 0x39#8] = .drop .args := by
  decide +kernel

/-- 43_commands.md R229: `BRIGHT 8e1` has no `.` and is no INT. -/
theorem test_decode_bright_exponent :
    decodeLine [0x42#8, 0x52#8, 0x49#8, 0x47#8, 0x48#8, 0x54#8, 0x20#8, 0x38#8, 0x65#8, 0x31#8] = .drop .args := by
  decide +kernel

/-- 43_commands.md R230: `\r` alone is an empty line. -/
theorem test_decode_empty : decodeLine [0x0D#8] = .drop .empty := by decide

/-- The canonical spelling (R95) of PIX. -/
theorem test_encode_pix :
    encode (.pix (-1) 20 0 7) = .line [0x50#8, 0x49#8, 0x58#8, 0x20#8, 0x2D#8, 0x31#8, 0x20#8, 0x32#8, 0x30#8, 0x20#8,
      0x30#8, 0x20#8, 0x37#8] := by decide +kernel

/-- The first bits of the table row SHOW, its token bytes from bit 0 up. -/
theorem test_decode_table_word : decodeTableWord 32 0x574F4853 = some .showStrip := by decide +kernel

/-! ## Arithmetic, the table and shaping -/

/-- 41_color_state.md R143: a = 1, t = f32(-0.3), n = 1.0 gives 0x3F7FFFFF. -/
theorem test_smoothing_inexact : emaStep f32One 0xBE99999A#32 f32One = 0x3F7FFFFF#32 := by decide +kernel

/-- 41_color_state.md R143: ALPHA = 0.5 from 0 toward 100 gives 50.0. -/
theorem test_smoothing_half : emaStep 0x3F000000#32 f32Zero 0x42C80000#32 = 0x42480000#32 := by decide +kernel

/-- 40_gamma_lut.md R121: build(2.0) gives LUT[128] = 64, LUT[0] = 0 and LUT[255] = 255. -/
theorem test_build_two :
    (lutLookup (buildLut 0x40000000#32) 128, lutLookup (buildLut 0x40000000#32) 0,
      lutLookup (buildLut 0x40000000#32) 255) = (64#8, 0#8, 255#8) := by decide +kernel

/-- 41_color_state.md R144: T = 127.5 gives index 128, T = 0.49999997 gives index 0. -/
theorem test_shape_index : (shapeIndex 0x42FF0000#32, shapeIndex 0x3EFFFFFF#32) = (128, 0) := by decide +kernel

/-- 41_color_state.md R144: BRIGHT = 0.5 takes 1 to 1 and 3 to 2; BRIGHT = f32(0.8) takes 255 to 204. -/
theorem test_scale :
    (scaleByte 0x3F000000#32 1#8, scaleByte 0x3F000000#32 3#8, scaleByte 0x3F4CCCCD#32 255#8) = (1#8, 2#8, 204#8) := by
  decide +kernel

/-- 41_color_state.md R141: setAll(1, 2, 3) with N = 2. -/
theorem test_set_all :
    (setAll 2 1 2 3 (State.resetWith { Config.params with n := 2 }).color).mem.t =
      [0x3F800000#32, 0x40000000#32, 0x40400000#32, 0x3F800000#32, 0x40000000#32, 0x40400000#32] := by decide +kernel

/-- The code numbers of 60_exceptions.md R282. -/
theorem test_event_numbers :
    [EventCode.cmdUnknown, .cmdArgs, .cmdEmpty, .lineOverlong, .frameLen, .busPartial, .busError, .busOpen, .status].map
      eventNumber = [0x01, 0x02, 0x03, 0x04, 0x05, 0x06, 0x07, 0x08, 0x09] := by decide

/-- 20_memory.md R54: 0x80 goes out most significant bit first, or last under SPI_LSB_FIRST. -/
theorem test_wire :
    wireOf Config.params [0x80#8] = some [true, false, false, false, false, false, false, false] ∧
      wireOf { Config.params with spiLsbFirst := true } [0x80#8] =
        some [false, false, false, false, false, false, false, true] := by decide

/-! ## One step of each command

The configuration of State.reset (N = 3, gamma 1, brightness 1, alpha 1), in RUN, with channel 0 open and acting. -/

/-- RUN with channel 0 open, CH[0] acting. -/
def runState : State := { State.reset with mode := .run, channels := [newChannel 0], actor := .ch 0 }

/-- The same under SNAPSHOT. -/
def snapState : State := { runState with params := { Config.params with busOrder := .snapshot } }

/-- What a command leaves, as seen by `f`. -/
def after {α : Type} (f : State → α) : Host.Outcome State Fault Refusal → Option α
  | .next s => some (f s)
  | .fault _ => none
  | .refused _ => none

/-- 43_commands.md R220: the frame of `COLOR 100 150 200` is requested for CH[0], LOCK held. -/
theorem test_color : after (fun s => (s.bus.frame, s.bus.client, s.lock)) (exec (.color 100 150 200) runState) =
    some ([100#8, 150#8, 200#8, 100#8, 150#8, 200#8, 100#8, 150#8, 200#8], some (.ch 0), .held (.ch 0)) := by
  decide +kernel

/-- 41_color_state.md R142: setPixel(1, 10, 20, 30) with N = 3. -/
theorem test_pix : after (fun s => s.color.mem.o) (exec (.pix 1 10 20 30) runState) =
    some [0#8, 0#8, 0#8, 10#8, 20#8, 30#8, 0#8, 0#8, 0#8] := by decide +kernel

/-- 41_color_state.md R142: i = N changes nothing; the transfer still starts (43_commands.md R221). -/
theorem test_pix_out_of_range : after (fun s => (s.color.mem.t, s.bus.state)) (exec (.pix 3 1 2 3) runState) =
    some (List.replicate 9 f32Zero, .xfer) := by decide +kernel

/-- 43_commands.md R222: -20 clamps to 0.0. -/
theorem test_bright : after (fun s => s.color.bright) (exec (.bright 0xC1A00000#32) runState) = some f32Zero := by
  decide +kernel

/-- 43_commands.md R223: T = 128 and GAMMA 2 give O = 64. -/
theorem test_gamma :
    after (fun s => s.color.mem.o) (exec (.gamma 0x40000000#32)
      { runState with
        color := { runState.color with mem := { runState.color.mem with t := List.replicate 9 0x43000000#32 } } }) =
      some (List.replicate 9 64#8) := by decide +kernel

/-- 43_commands.md R223: GAMMA 0.01 leaves GAMMA, and still transfers. -/
theorem test_gamma_refused : after (fun s => (s.color.gamma, s.bus.state)) (exec (.gamma 0x3C23D70A#32) runState) =
    some (f32One, .xfer) := by decide +kernel

/-- 43_commands.md R224: SMOOTH -0.5 stores 0.0; no transfer. -/
theorem test_smooth : after (fun s => (s.color.alpha, s.bus.state, s.lock)) (exec (.smooth 0xBF000000#32) runState) =
    some (f32Zero, .idle, .free) := by decide +kernel

/-- 43_commands.md R225, R189: under SNAPSHOT, SHOW leaves LOCK free and waits with its snapshot. -/
theorem test_show : after (fun s => (s.lock, s.channels.map (·.job))) (exec .showStrip snapState) =
    some (.free, [.waitBus (List.replicate 9 0#8)]) := by decide +kernel

/-- 43_commands.md R226. -/
theorem test_clear : after (fun s => (s.color.mem.t, s.bus.frame)) (exec .clear runState) =
    some (List.replicate 9 f32Zero, List.replicate 9 0#8) := by decide +kernel

/-- 43_commands.md R227, 60_exceptions.md R282. -/
theorem test_status : after (fun s => s.evlog) (exec .status runState) =
    some [{ code := .status, agent := .ch 0, info := .config f32One f32One f32One 3 }] := by decide +kernel

/-- 44_frame_port.md R262: N = 1, ALPHA = 0.5, T = [0, 0, 0], px = [(200, 100, 0)] give T = [100, 50, 0]. -/
theorem test_frame :
    after (fun s => s.color.mem.t) (exec (.frame [(200#8, 100#8, 0#8)])
      { runState with
        params := { Config.params with n := 1 }
        color := { runState.color with
          alpha := 0x3F000000#32
          mem := { runState.color.mem with t := List.replicate 3 f32Zero } } }) =
      some [0x42C80000#32, 0x42480000#32, f32Zero] := by decide +kernel

/-- 44_frame_port.md R263: M = 0 is a mismatch, logged with length 0. -/
theorem test_frame_mismatch : after (fun s => (s.evlog, s.bus.client)) (exec (.frame []) runState) =
    some ([{ code := .frameLen, agent := .fs, info := .length 0 }], some .fs) := by decide +kernel

/-- The first step after reset runs the instruction placed by withFetchWord (SHOW). -/
theorem test_fetch : after (fun s => (s.bus.state, s.bus.client)) (step (State.reset.withFetchWord 32 0x574F4853)) =
    some (.xfer, some (.ch 0)) := by decide +kernel

/-- 70_reset_and_hazards.md R321: the boot with DEV_OPEN = fail. -/
theorem test_boot_fail : after (fun s => (s.mode, s.evlog)) (step { State.reset with script := [.sys .fail] }) =
    some (.failed, [{ code := .busOpen, agent := .sys, info := .none }]) := by decide +kernel

/-! ## Cases that meet the hypotheses of the statements

Each theorem is named after its statement; a clause with hypotheses of its own has its case here, at a boundary of its range. -/

/-- runState with channel 0 as given and one action to come. -/
def withChannel (c : Channel) (a : Action) : State := { runState with channels := [c], script := [a] }

/-- `SHOW` and its 0x0A. -/
def showLine : List Byte := [0x53#8, 0x48#8, 0x4F#8, 0x57#8, 0x0A#8]

/-- Channel 0 with ACC = acc. -/
def chan (acc : List Byte) : Channel := { newChannel 0 with acc := acc }

/-- Channel 0 BUSY at job j. -/
def busyChan (j : Job) : Channel := { newChannel 0 with busy := true, job := j }

/-- runState with the bus at b and one action to come. -/
def withBusAt (st : BusState) (left : Nat) (a : Action) : State :=
  { runState with
    bus := { state := st, frame := List.replicate 9 1#8, client := some (.ch 0), latchLeft := left, lock := .free }
    lock := .held (.ch 0)
    channels := [busyChan .transfer]
    script := [a] }

theorem witness_DecodeEncodeAgree :
    Instr.wf (.pix (-2147483648) 2147483647 0 (-1)) = true ∧ Instr.wf (.gamma 0x7F7FFFFF#32) = true ∧
      Instr.wf (.smooth 0x80000000#32) = true ∧ Instr.wf (.frame []) = true := by decide

theorem witness_DecodedCommandsAreWellFormed : decodeLine (beforeLF showLine) = .cmd .showStrip := by decide

theorem witness_TokensAreMaximalRuns :
    ([0x41#8] : List Byte) ≠ [] ∧ (∀ c ∈ ([0x41#8] : List Byte), isSpaceByte c = false) ∧ isSpaceByte 0x0D#8 = true := by
  decide

theorem witness_LineFormats :
    tokens ([0x43#8, 0x4F#8, 0x4C#8, 0x4F#8, 0x52#8, 0x20#8, 0x31#8, 0x20#8, 0x32#8, 0x09#8, 0x33#8, 0x20#8, 0x21#8]) =
        [0x43#8, 0x4F#8, 0x4C#8, 0x4F#8, 0x52#8] :: [0x31#8] :: [0x32#8] :: [0x33#8] :: [[0x21#8]] ∧
      tokens ([0x50#8, 0x49#8, 0x58#8, 0x20#8, 0x31#8, 0x20#8, 0x32#8, 0x20#8, 0x33#8, 0x20#8, 0x31#8]) =
        [0x50#8, 0x49#8, 0x58#8] :: [0x31#8] :: [0x32#8] :: [0x33#8] :: [0x31#8] :: [] ∧
      parseInt [0x31#8] = some 1 ∧ parseInt [0x32#8] = some 2 ∧ parseInt [0x33#8] = some 3 ∧
      tokens ([0x42#8, 0x52#8, 0x49#8, 0x47#8, 0x48#8, 0x54#8, 0x20#8, 0x31#8]) =
        [0x42#8, 0x52#8, 0x49#8, 0x47#8, 0x48#8, 0x54#8] :: [0x31#8] :: [] ∧
      tokens ([0x47#8, 0x41#8, 0x4D#8, 0x4D#8, 0x41#8, 0x20#8, 0x31#8]) =
        [0x47#8, 0x41#8, 0x4D#8, 0x4D#8, 0x41#8] :: [0x31#8] :: [] ∧
      tokens ([0x53#8, 0x4D#8, 0x4F#8, 0x4F#8, 0x54#8, 0x48#8, 0x20#8, 0x31#8]) =
        [0x53#8, 0x4D#8, 0x4F#8, 0x4F#8, 0x54#8, 0x48#8] :: [0x31#8] :: [] ∧
      parseBright [0x31#8] = some f32One ∧ parseNum [0x31#8] = some f32One ∧
      tokens [0x53#8, 0x48#8, 0x4F#8, 0x57#8, 0x20#8, 0x31#8] = [0x53#8, 0x48#8, 0x4F#8, 0x57#8] :: [[0x31#8]] ∧
      tokens [0x43#8, 0x4C#8, 0x45#8, 0x41#8, 0x52#8] = [0x43#8, 0x4C#8, 0x45#8, 0x41#8, 0x52#8] :: [] ∧
      tokens [0x53#8, 0x54#8, 0x41#8, 0x54#8, 0x55#8, 0x53#8] = [0x53#8, 0x54#8, 0x41#8, 0x54#8, 0x55#8, 0x53#8] :: [] := by
  decide +kernel

theorem witness_DropVerdicts :
    tokens [0x20#8] = [] ∧ (∀ m : Mnemonic, mnemonicBytes m ≠ [0x46#8, 0x4F#8, 0x4F#8]) ∧
      ([] : List (List Byte)).length < arity .GAMMA ∧ ArgumentFails .GAMMA ([[0x61#8]].getD 0 []) ∧
      ¬ ArgumentFails .GAMMA ([[0x31#8]].getD 0 []) ∧ arity .SHOW ≤ ([] : List (List Byte)).length := by
  refine ⟨by decide, fun m => by cases m <;> decide, by decide, ?_, ?_, by decide⟩
  · show parseNum [0x61#8] = none
    decide +kernel
  · show ¬ parseNum [0x31#8] = none
    decide +kernel

/-- A token with a fraction and a negative exponent: `.5E-1`. -/
def halfToken : NumToken :=
  { sign := [], whole := [], point := true, frac := [0x35#8], expByte := some 0x45#8, expSign := [byteMinus]
    expDigits := [0x31#8] }

/-- A negative whole number of 39 digits, the last as given: with 8 it is -(2^128 - 2^103), the first value that rounds to an
infinity. -/
def boundToken (last : Byte) : NumToken :=
  { sign := [byteMinus]
    whole :=
      [0x33#8, 0x34#8, 0x30#8, 0x32#8, 0x38#8, 0x32#8, 0x33#8, 0x35#8, 0x36#8, 0x37#8, 0x37#8, 0x39#8, 0x37#8, 0x33#8,
        0x33#8, 0x36#8, 0x36#8, 0x31#8, 0x36#8, 0x33#8, 0x37#8, 0x35#8, 0x33#8, 0x39#8, 0x33#8, 0x39#8, 0x35#8, 0x34#8,
        0x35#8, 0x38#8, 0x31#8, 0x34#8, 0x32#8, 0x35#8, 0x36#8, 0x38#8, 0x34#8, 0x34#8, last]
    point := false
    frac := []
    expByte := none
    expSign := []
    expDigits := [] }

theorem boundToken_legal (last : Byte) (h : 0x30 ≤ last.toNat ∧ last.toNat ≤ 0x39) : (boundToken last).Legal :=
  ⟨by simp [boundToken, IsSign], by simpa [boundToken, IsDigits] using h, by simp [boundToken, IsDigits],
    by simp [boundToken], by simp [boundToken], by simp [boundToken], by simp [boundToken, IsSign],
    by simp [boundToken, IsDigits]⟩

/-- On the two sides of 2^128 - 2^103 (30_encoding.md R89): the largest finite value, and no value. -/
theorem witness_NumberTokens :
    halfToken.Legal ∧ |halfToken.value| < overflowBound ∧
      (boundToken 0x37#8).Legal ∧ |(boundToken 0x37#8).value| < overflowBound ∧
      parseNum (boundToken 0x37#8).text = some 0xFF7FFFFF#32 ∧
      (boundToken 0x38#8).Legal ∧ overflowBound ≤ |(boundToken 0x38#8).value| ∧ parseNum (boundToken 0x38#8).text = none := by
  refine ⟨⟨by simp [halfToken, IsSign], by simp [halfToken, IsDigits], by simp [halfToken, IsDigits],
      by simp [halfToken], by simp [halfToken], by simp [halfToken], by simp [halfToken, IsSign],
      by simp [halfToken, IsDigits]⟩, ?_, boundToken_legal _ (by decide), ?_, by decide +kernel,
    boundToken_legal _ (by decide), ?_, by decide +kernel⟩
  · norm_num [NumToken.value, NumToken.magnitude, NumToken.exponent, halfToken, digitsNumber, overflowBound, abs_lt,
      Nat.ofDigits, byteMinus]
  all_goals
    norm_num [NumToken.value, NumToken.magnitude, NumToken.exponent, boundToken, digitsNumber, overflowBound, abs_lt,
      abs_neg, Nat.ofDigits]

theorem witness_BrightTokens :
    0x2E#8 ∈ ([0x30#8, 0x2E#8, 0x38#8] : List Byte) ∧ 0x2E#8 ∉ ([0x31#8] : List Byte) ∧ parseInt [0x61#8] = none ∧
      parseInt [0x32#8] = some 2 ∧ parseInt [0x31#8] = some 1 ∧ parseInt [byteMinus, 0x30#8] = some 0 := by decide +kernel

/-- 95_test_vectors.md, the BARG table: `-0` is the integer 0, so +0.0. -/
theorem test_bright_minus_zero : parseBright [byteMinus, 0x30#8] = some f32Zero := by decide +kernel

theorem witness_RoundingIsNearestEven :
    ((1 : Nat) : ℚ) / (3 : Nat) < overflowBound ∧ overflowBound ≤ ((2 ^ 128 : Nat) : ℚ) / (1 : Nat) := by
  norm_num [overflowBound]

theorem f32Value_one : f32Value f32One = 1 := by
  have : f32Units f32One = 2 ^ 149 := by decide +kernel
  norm_num [f32Value, this]

/-- An exact zero sum, a zero product, and the largest finite value doubled. -/
theorem witness_ArithmeticRoundsOnce :
    f32Finite f32One = true ∧ f32Finite f32NegZero = true ∧ f32Finite 0x7F7FFFFF#32 = true ∧
      |f32Value f32One + f32Value f32One| < overflowBound ∧ f32Value f32One - f32Value f32One = 0 ∧
      |f32Value f32One * f32Value f32One| < overflowBound ∧
      overflowBound ≤ |f32Value 0x7F7FFFFF#32 + f32Value 0x7F7FFFFF#32| ∧
      |((-7 : Int) : ℚ)| < overflowBound ∧ (-7 : Int).natAbs ≤ 2 ^ 24 ∧ overflowBound ≤ |((2 ^ 128 : Int) : ℚ)| := by
  have h : f32Value 0x7F7FFFFF#32 = 2 ^ 128 - 2 ^ 104 := by
    have : f32Units 0x7F7FFFFF#32 = (2 ^ 24 - 1) * 2 ^ 253 := by decide +kernel
    norm_num [f32Value, this]
  refine ⟨by decide, by decide, by decide, ?_, ?_, ?_, ?_, ?_, by decide, ?_⟩ <;>
    norm_num [f32Value_one, overflowBound, h]

/-- IEEE 754 (00_scope.md R10): 1 - 1 is +0.0, -0.0 + -0.0 is -0.0, -0.0 - +0.0 is -0.0, -1 · +0.0 is -0.0, and the largest
finite value doubled is +∞. -/
theorem test_zero_signs_and_overflow :
    fsub f32One f32One = f32Zero ∧ fadd f32NegZero f32NegZero = f32NegZero ∧ fsub f32NegZero f32Zero = f32NegZero ∧
      fmul 0xBF800000#32 f32Zero = f32NegZero ∧ fadd 0x7F7FFFFF#32 0x7F7FFFFF#32 = 0x7F800000#32 := by decide +kernel

/-- The smallest legal exponent (40_gamma_lut.md R121) and 1.0. -/
theorem witness_LutIsTheExactRealTable : gammaLegal 0x3C23D70B#32 = true ∧ gammaLegal 0x3F800000#32 = true := by
  decide +kernel

theorem witness_LutProperties : gammaLegal 0x3F800000#32 = true ∧ (254 : Nat) ≤ 255 := by decide +kernel

theorem witness_ShapeIsExact :
    unitLegal f32NegZero = true ∧ unitLegal f32One = true ∧ f32Finite 0xC2C80000#32 = true := by decide +kernel

theorem witness_BrightnessBound : unitLegal f32NegZero = true ∧ f32Value f32NegZero = 0 := by
  refine ⟨by decide +kernel, ?_⟩
  have : f32Units f32NegZero = 0 := by decide +kernel
  norm_num [f32Value, this]

theorem witness_SmoothingEndpoints :
    f32Finite f32Zero = true ∧ f32Finite f32One = true ∧ |f32Value f32One - f32Value f32Zero| < overflowBound ∧
      f32Zero ≠ f32NegZero ∧ f32Value f32Zero = 0 ∧ f32One ≠ f32NegZero ∧
      f32Value (fsub f32One f32Zero) = f32Value f32One - f32Value f32Zero := by
  have h0 : f32Value f32Zero = 0 := by
    have : f32Units f32Zero = 0 := by decide +kernel
    norm_num [f32Value, this]
  have h1 : fsub f32One f32Zero = f32One := by decide +kernel
  refine ⟨by decide, by decide, ?_, by decide, h0, by decide, by rw [h1, h0, sub_zero]⟩
  norm_num [h0, f32Value_one, overflowBound]

theorem showLine_ready (s : State) (h : s.channels = [chan showLine]) (hp : s.params.lineMax = none) :
    LineReady 0 (chan showLine) .showStrip s := by
  refine ⟨by simp [findChannel, h, chan, newChannel], rfl, rfl, by decide, rfl, ?_, by decide⟩
  simp [overLineMax, hp]

theorem witness_StepRunsTheDecodedLine :
    (let s := withChannel (chan showLine) (.ch 0);
      nextAction s = .ch 0 ∧ s.mode = .run ∧ LineReady 0 (chan showLine) .showStrip s) ∧
    (let s := withChannel (chan showLine) (.chStart 0);
      nextAction s = .chStart 0 ∧ s.mode = .run ∧ LineReady 0 (chan showLine) .showStrip s ∧
        after (fun t => (t.lock, t.channels)) (step s) = some (.free, [busyChan (.waitLock .showStrip)])) :=
  ⟨⟨rfl, rfl, showLine_ready _ rfl rfl⟩, rfl, rfl, showLine_ready _ rfl rfl, by decide +kernel⟩

theorem witness_StepRunsTheUpstreamFrame :
    (let s := withChannel (chan []) (.fs []);
      nextAction s = .fs [] ∧ s.mode = .run ∧ s.fs.state = .req) ∧
    (let s := withChannel (chan []) (.fsStart []);
      nextAction s = .fsStart [] ∧ s.mode = .run ∧ s.fs.state = .req ∧
        after (fun t => (t.lock, t.fs.state, t.fs.job)) (step s) = some (.free, .waitBus, .waitLock (.frame []))) :=
  ⟨⟨rfl, rfl, rfl⟩, rfl, rfl, rfl, rfl⟩

/-- runState with FS at state st and job j, and one action to come. -/
def withFsAt (st : FsState) (timer : Nat) (j : Job) (a : Action) : State :=
  { runState with fs := { state := st, timer := timer, job := j }, script := [a] }

theorem witness_StepRetriesTheWaitingCommand :
    (let s := withChannel (busyChan (.waitLock .clear)) (.ch 0);
      s.mode = .run ∧ nextAction s = .ch 0 ∧ findChannel 0 s = some (busyChan (.waitLock .clear))) ∧
    (let s := { withFsAt .waitBus 0 (.waitLock (.frame [])) (.fs []) with mode := .shutdown };
      s.mode = .shutdown ∧ nextAction s = .fs [] ∧ s.fs.state = .waitBus ∧ s.fs.job = .waitLock (.frame [])) :=
  ⟨⟨rfl, rfl, rfl⟩, rfl, rfl, rfl, rfl⟩

theorem witness_CommandsWaitForTheLock :
    Instr.wf .clear = true ∧ (withBusAt .xfer 0 (.bus .ioerror)).lock = .held (.ch 0) := ⟨rfl, rfl⟩

theorem runState_wf : runState.color.mem.wf runState.params.n = true := reset_wf

theorem snapState_wf : snapState.color.mem.wf snapState.params.n = true := reset_wf

theorem runState_mayBegin : TransferMayBegin runState := ⟨rfl, fun _ => rfl⟩

theorem witness_ColorResult :
    runState.color.mem.wf runState.params.n = true ∧ runState.actor = .ch 0 ∧ TransferMayBegin runState :=
  ⟨runState_wf, rfl, runState_mayBegin⟩

/-- Also at the first index out of range, N = 3. -/
theorem witness_PixResult :
    runState.color.mem.wf runState.params.n = true ∧ runState.actor = .ch 0 ∧ TransferMayBegin runState ∧
      (runState.params.n : Int) ≤ 3 := ⟨runState_wf, rfl, runState_mayBegin, by decide⟩

theorem witness_BrightResult :
    f32IsNan 0x3FC00000#32 = false ∧ runState.color.mem.wf runState.params.n = true ∧ runState.actor = .ch 0 ∧
      TransferMayBegin runState := ⟨by decide, runState_wf, rfl, runState_mayBegin⟩

theorem witness_GammaResult :
    gammaLegal 0x3C23D70B#32 = true ∧ runState.color.mem.wf runState.params.n = true ∧ runState.actor = .ch 0 ∧
      TransferMayBegin runState := ⟨by decide +kernel, runState_wf, rfl, runState_mayBegin⟩

theorem reset_reshaped : Reshaped runState.color := by
  have ht : runState.color.mem.t = List.replicate 9 f32Zero := rfl
  have ho : runState.color.mem.o = List.replicate 9 0#8 := rfl
  have hs : shape runState.color.mem.lut runState.color.bright f32Zero = 0#8 := by decide +kernel
  intro j t h
  simp only [memRead, ht, ho, List.getElem?_replicate] at h ⊢
  split at h
  · simp only [Option.map_some, Option.some.injEq, Element.real.injEq] at h
    rw [← h, hs, if_pos ‹_›]
    rfl
  · simp at h

/-- PIX at idx = -1 and at idx = N; GAMMA at f32(0.01). -/
theorem witness_SilentlyIgnoredCommands :
    (-1 : Int) < 0 ∧ (runState.params.n : Int) ≤ 3 ∧ f32Finite f32Hundredth = true ∧ f32Le f32Hundredth f32Hundredth = true ∧
      runState.color.mem.wf runState.params.n = true ∧ runState.actor = .ch 0 ∧ TransferMayBegin runState ∧
      Reshaped runState.color :=
  ⟨by decide, by decide, by decide, by decide +kernel, runState_wf, rfl, runState_mayBegin, reset_reshaped⟩

theorem witness_SmoothResult : f32IsNan 0xBF000000#32 = false ∧ runState.actor = .ch 0 ∧ runState.lock = .free :=
  ⟨by decide, rfl, rfl⟩

theorem witness_ShowResult :
    snapState.color.mem.wf snapState.params.n = true ∧ snapState.actor = .ch 0 ∧ TransferMayBegin snapState :=
  ⟨snapState_wf, rfl, rfl, fun _ => rfl⟩

theorem witness_ClearResult :
    runState.color.mem.wf runState.params.n = true ∧ runState.actor = .ch 0 ∧ TransferMayBegin runState ∧
      8 < 3 * runState.params.n := ⟨runState_wf, rfl, runState_mayBegin, by decide⟩

theorem witness_StatusResult : runState.actor = .ch 0 ∧ runState.lock = .free := ⟨rfl, rfl⟩

theorem witness_FrameResult :
    (List.replicate 3 (1#8, 2#8, 3#8)).length = runState.params.n ∧ runState.color.mem.wf runState.params.n = true ∧
      TransferMayBegin runState := ⟨rfl, runState_wf, runState_mayBegin⟩

theorem witness_FrameLengthMismatch :
    ([] : List Pixel).length ≠ runState.params.n ∧ runState.color.mem.wf runState.params.n = true ∧
      TransferMayBegin runState := ⟨by decide, runState_wf, runState_mayBegin⟩

theorem witness_SnapshotTakesBusLock :
    (let s := { withChannel (busyChan (.waitBus [1#8])) (.ch 0) with params := snapState.params };
      s.mode = .run ∧ nextAction s = .ch 0 ∧ findChannel 0 s = some (busyChan (.waitBus [1#8])) ∧ s.bus.lock = .free ∧
        s.bus.state = .idle) ∧
    (let s := { withFsAt .waitBus 0 (.waitBus [1#8]) (.fs []) with mode := .shutdown };
      s.mode = .shutdown ∧ nextAction s = .fs [] ∧ s.fs.state = .waitBus ∧ s.fs.job = .waitBus [1#8] ∧
        s.bus.lock = .free ∧ s.bus.state = .idle) ∧
    (let s := { withFsAt .waitBus 0 (.waitBus [1#8]) (.fs []) with
        bus := { runState.bus with lock := .held (.ch 0) }, channels := [busyChan (.waitBus [1#8])] };
      s.fs.state = .waitBus ∧ findChannel 0 s = some (busyChan (.waitBus [1#8])) ∧ s.bus.lock = .held (.ch 0)) :=
  ⟨⟨rfl, rfl, rfl, rfl, rfl⟩, ⟨rfl, rfl, rfl, rfl, rfl, rfl⟩, rfl, rfl, rfl⟩

/-- A full answer, an empty one, and an ioerror. -/
theorem witness_TransferStep :
    (let s := withBusAt .xfer 0 (.bus (.done 9));
      s.mode = .run ∧ s.bus.state = .xfer ∧ nextAction s = .bus (.done 9) ∧ 9 ≤ 3 * s.params.n) ∧
    nextAction (withBusAt .xfer 0 (.bus (.done 0))) = .bus (.done 0) ∧
    nextAction (withBusAt .xfer 0 (.bus .ioerror)) = .bus .ioerror :=
  ⟨⟨rfl, rfl, rfl, by decide⟩, rfl, rfl⟩

theorem witness_LatchStep :
    (let s := withBusAt .latch 0 (.bus .ioerror);
      s.mode = .run ∧ s.bus.state = .latch ∧ nextAction s = .bus .ioerror ∧ s.bus.latchLeft = 0) ∧
    (let s := withBusAt .latch 1 (.bus .ioerror);
      s.bus.state = .latch ∧ nextAction s = .bus .ioerror ∧ 0 < s.bus.latchLeft) ∧
    step (withBusAt .latch 2 (.tick 1)) = .next { withBusAt .latch 1 (.tick 1) with script := [] } ∧
    nextAction (withBusAt .latch 2 (.tick 1)) ≠ .reset ∧
    (let s := { withBusAt .latch 0 (.tick 1) with mode := .stopped };
      s.bus.state = .latch ∧ step s = .next { s with script := [] }) :=
  ⟨⟨rfl, rfl, rfl, rfl⟩, ⟨rfl, rfl, by decide⟩, rfl, by decide, rfl, rfl⟩

theorem witness_BusTransitions :
    let s := withBusAt .latch 0 (.bus .ioerror);
    nextAction s ≠ .reset ∧ s.bus.state ≠ .idle ∧
      step s = .next { s with script := [], bus := { s.bus with state := .idle, frame := [], client := none } } :=
  ⟨by decide, by decide, rfl⟩

theorem witness_InLockTransfersTheOutput :
    let s := { withBusAt .xfer 0 (.tick 1) with bus := { (withBusAt .xfer 0 (.tick 1)).bus with frame := runState.color.mem.o } };
    LockInv s ∧ s.params.busOrder = .inLock ∧ (s.mode = .init → s.bus.state = .idle) ∧
      (s.bus.state ≠ .idle → s.bus.frame = s.color.mem.o) ∧ step s = .next { s with script := [] } := by
  refine ⟨⟨rfl, ?_, by decide, fun _ => ⟨rfl, by decide⟩, fun _ => ⟨rfl, ?_⟩, fun h => absurd h (by decide),
    fun h => absurd rfl h, ?_, by decide⟩, rfl, by decide, fun _ => rfl, rfl⟩
  · intro a
    cases a with
    | ch k =>
      rcases Nat.eq_zero_or_pos k with h | h
      · subst h; exact ⟨fun _ => rfl, fun _ => rfl⟩
      · have : ((0 : Nat) == k) = false := by simp; omega
        simp [jobOf, findChannel, withBusAt, busyChan, newChannel, this, transferHolder, runState, State.reset,
          State.resetWith, Config.params, lockHolder]
        omega
    | fs => decide
    | bus => decide
    | sys => decide
  · intro a bytes
    cases a with
    | ch k =>
      rcases Nat.eq_zero_or_pos k with h | h
      · subst h; exact nofun
      · have : ((0 : Nat) == k) = false := by simp; omega
        simp [jobOf, findChannel, withBusAt, busyChan, newChannel, this]
    | fs => exact nofun
    | bus => exact nofun
    | sys => exact nofun
  · intro c hc
    simp [withBusAt] at hc
    subst hc
    simp [busyChan]

theorem witness_FinishReleasesTheLock :
    (let s := withBusAt .latch 1 (.ch 0);
      s.mode = .run ∧ nextAction s = .ch 0 ∧ findChannel 0 s = some (busyChan .transfer) ∧ s.bus.client = some (.ch 0)) ∧
    (let s := { withBusAt .idle 0 (.ch 0) with bus := runState.bus };
      nextAction s = .ch 0 ∧ findChannel 0 s = some (busyChan .transfer) ∧ s.bus.client ≠ some (.ch 0)) ∧
    (let s := { withFsAt .waitBus 0 .transfer (.fs []) with bus := { runState.bus with client := some .fs } };
      nextAction s = .fs [] ∧ s.fs.state = .waitBus ∧ s.fs.job = .transfer ∧ s.bus.client = some .fs) ∧
    (let s := { withFsAt .waitBus 0 .transfer (.fs []) with mode := .shutdown };
      s.mode = .shutdown ∧ nextAction s = .fs [] ∧ s.fs.state = .waitBus ∧ s.fs.job = .transfer ∧ s.bus.client ≠ some .fs) :=
  ⟨⟨rfl, rfl, rfl, rfl⟩, ⟨rfl, rfl, by decide⟩, ⟨rfl, rfl, rfl, rfl⟩, rfl, rfl, rfl, rfl, by decide⟩

theorem witness_WireOrder : Config.params.spiWordBits = 8 ∧ [0x80#8][0]? = some 0x80#8 ∧ 7 < 8 := by decide

/-- LINE_MAX = 64 and a line of 65 bytes. -/
def longLine : List Byte := List.replicate 65 0x41#8 ++ [0x0A#8]

theorem witness_LinesThatStartNoCommand :
    (let c := { chan showLine with discard := true };
      let s := withChannel c (.ch 0);
      nextAction s = .ch 0 ∧ s.mode = .run ∧ findChannel 0 s = some c ∧ c.job = .idle ∧ c.busy = false ∧ hasLF c.acc = true) ∧
    nextAction (withChannel (chan longLine) (.chStart 0)) = .chStart 0 ∧
    (overLineMax { Config.params with lineMax := some 64 } (beforeLF (chan longLine).acc).length = true ∧
      overLineMax { Config.params with lineMax := some 65 } (beforeLF (chan longLine).acc).length = false) ∧
    decodeLine (beforeLF (chan [0x0A#8]).acc) = .drop .empty ∧ decodeLine (beforeLF longLine) = .drop .unknown ∧
    decodeLine [0x47#8, 0x41#8, 0x4D#8, 0x4D#8, 0x41#8] = .drop .args := by
  refine ⟨⟨rfl, rfl, rfl, rfl, rfl, by decide⟩, rfl, ⟨by decide, by decide⟩, by decide, by decide +kernel, by decide⟩

/-- Room for the last of MAX_CHANNELS = 2 channels, and none for a third. -/
theorem witness_OpenAndCloseChannels :
    (let s := { withChannel (newChannel 0) (.openCh 1) with params := { Config.params with maxChannels := some 2 } };
      s.mode = .run ∧ nextAction s = .openCh 1 ∧ (∀ m, s.params.maxChannels = some m → s.channels.length < m) ∧
        findChannel 1 s = none ∧ channelsWf s.channels = true) ∧
    (let s := { withChannel (newChannel 0) (.openCh 1) with params := { Config.params with maxChannels := some 1 } };
      nextAction s = .openCh 1 ∧ ∃ m, s.params.maxChannels = some m ∧ m ≤ s.channels.length) ∧
    findChannel 0 (withChannel (newChannel 0) (.openCh 0)) ≠ none ∧
    (let s := { withChannel (newChannel 0) (.openCh 1) with mode := .shutdown };
      nextAction s = .openCh 1 ∧ s.mode = .shutdown ∧ step s = .next { s with script := [] }) ∧
    (let s := { withChannel (newChannel 0) (.closeCh 0) with mode := .shutdown };
      nextAction s = .closeCh 0 ∧ s.mode = .shutdown) ∧
    (let c := { chan [0x41#8] with openState := .closing };
      let s := { withChannel c (.ch 0) with mode := .shutdown };
      nextAction s = .ch 0 ∧ s.mode = .shutdown ∧ findChannel 0 s = some c ∧ c.openState = .closing ∧ c.busy = false ∧
        c.job = .idle ∧ hasLF c.acc = false ∧ after (fun t => t.channels) (step s) = some []) := by
  refine ⟨⟨rfl, rfl, ?_, by decide, rfl⟩, ⟨rfl, 1, rfl, by decide⟩, by decide, ⟨rfl, rfl, rfl⟩, ⟨rfl, rfl⟩,
    rfl, rfl, rfl, rfl, rfl, rfl, by decide, rfl⟩
  rintro m ⟨⟩
  decide

/-- One byte more than LINE_MAX = 64, exactly 64, a channel that is skipping, and a line with a partial one after it that
arrive in SHUTDOWN. -/
theorem witness_ReceivedBytesAreAppended :
    (let c := { newChannel 0 with openState := .closing };
      let s := withChannel c (.recv 0 [1#8]);
      nextAction s = .recv 0 [1#8] ∧ s.mode = .run ∧ findChannel 0 s = some c ∧ c.openState = .closing) ∧
    (let s := withChannel (newChannel 0) (.recv 0 [1#8]);
      findChannel 0 s = some (newChannel 0) ∧ (newChannel 0).openState = .opened ∧ channelsWf s.channels = true) ∧
    (let acc := List.replicate 65 0x41#8;
      hasLF acc = false ∧ (newChannel 0).discard = false ∧
        ∃ m, ({ Config.params with lineMax := some 64 } : Params).lineMax = some m ∧ m < acc.length) ∧
    ¬ (64 < (List.replicate 64 0x41#8).length) ∧
    ({ newChannel 0 with discard := true } : Channel).discard = true ∧
    (let s := { withChannel (chan [0x53#8]) (.recv 0 [0x0A#8, 0x41#8]) with mode := .shutdown };
      nextAction s = .recv 0 [0x0A#8, 0x41#8] ∧ s.mode = .shutdown ∧ findChannel 0 s = some (chan [0x53#8]) ∧
        channelsWf s.channels = true ∧ hasLF [0x53#8, 0x0A#8, 0x41#8] = true ∧
        after (fun t => t.channels) (step s) = some [chan [0x41#8]]) :=
  ⟨⟨rfl, rfl, rfl, rfl⟩, ⟨rfl, rfl, rfl⟩, ⟨by decide, rfl, 64, rfl, by decide⟩, by decide, rfl, rfl, rfl, rfl, rfl,
    by decide, by decide⟩

/-- `COL`, then `OR 1 2 3` and its 0x0A (43_commands.md R231). -/
theorem witness_LinesAreReassembled :
    runState.mode = .run ∧ runState.params.lineMax = none ∧
      Sys2Proof.core.run 1 { runState with script := [.recv 0 [0x43#8, 0x4F#8, 0x4C#8]] } =
        .next (withChannel (chan [0x43#8, 0x4F#8, 0x4C#8]) (.tick 0) |>.withScript [] 0) ∧
      findChannel 0 runState = some (newChannel 0) ∧ hasLF (newChannel 0).acc = false ∧
      0x0A#8 ∉ ([0x43#8, 0x4F#8, 0x4C#8] : List Byte) :=
  ⟨rfl, rfl, rfl, rfl, rfl, by decide⟩

theorem witness_ChannelsAreIsolated :
    (let s := withChannel (newChannel 0) (.tick 1);
      step s = .next { s with script := [] } ∧ nextAction s = .tick 1) ∧
    (let s := { withChannel (newChannel 0) (.sys .ok) with mode := .shutdown };
      nextAction s = .sys .ok ∧ s.sysJob ≠ .transfer ∧ after (fun t => t.sysJob) (step s) = some .transfer) :=
  ⟨⟨rfl, rfl⟩, rfl, by decide, by decide +kernel⟩

theorem withFsAt_commandInv (st : FsState) (timer : Nat) (a : Action) : CommandInv (withFsAt st timer .idle a) :=
  ⟨by show paramsLegal Config.params = true; decide +kernel,
    by simp [withFsAt, runState, newChannel, jobCarries], rfl⟩

theorem witness_FrameSequencerSleeps :
    (let s := withFsAt .sleep 0 .idle (.fs []);
      s.mode = .run ∧ s.fs.state = .sleep ∧ nextAction s = .fs [] ∧ s.fs.timer = 0) ∧
    (let s := withFsAt .sleep 1 .idle (.fs []);
      s.fs.state = .sleep ∧ nextAction s = .fs [] ∧ 0 < s.fs.timer) ∧
    nextAction (withFsAt .sleep 1 .idle (.tick 2)) = .tick 2 ∧
    (let s := withFsAt .sleep 1 .idle (.fsStart []);
      CommandInv s ∧ nextAction s = .fsStart [] ∧ step s = .next { s with script := [] }) ∧
    (let s := withFsAt .halt 0 .idle (.fs []);
      CommandInv s ∧ s.fs.state = .halt ∧ nextAction s ≠ .reset ∧ step s = .next { s with script := [] }) :=
  ⟨⟨rfl, rfl, rfl, rfl⟩, ⟨rfl, rfl, by decide⟩, rfl, ⟨withFsAt_commandInv _ _ _, rfl, rfl⟩,
    withFsAt_commandInv _ _ _, rfl, by decide, rfl⟩

theorem witness_ModeTransitions :
    after (fun t => t.mode) (step { runState with script := [.shutdownReq] }) = some .shutdown := by decide

theorem witness_LogsOnlyGrow :
    let s := withBusAt .xfer 0 (.bus .ioerror);
    nextAction s ≠ .reset ∧ after (fun t => t.buslog.length) (step s) = some 1 := ⟨by decide, rfl⟩

theorem witness_LengthsNeverChange :
    let s := withChannel (newChannel 0) (.tick 1);
    step s = .next { s with script := [] } ∧ s.color.mem.wf s.params.n = true := ⟨rfl, runState_wf⟩

theorem witness_BootSequence :
    State.reset.mode = .init ∧ paramsLegal State.reset.params = true ∧
      nextAction { State.reset with script := [.sys .ok] } = .sys .ok ∧
      nextAction { State.reset with script := [.sys .fail] } = .sys .fail ∧
      nextAction { State.reset with script := [.openCh 0] } = .openCh 0 := ⟨rfl, by decide +kernel, rfl, rfl, rfl⟩

theorem witness_ResetSetsEveryState : nextAction { runState with mode := .failed, script := [.reset] } = .reset := rfl

theorem witness_FailedAndStoppedAreTerminal :
    (let s := { runState with mode := .failed, script := [.tick 1] };
      s.mode = .failed ∧ nextAction s ≠ .reset ∧ step s = .fault .deviceOpenFailed) ∧
    (let s := { runState with mode := .stopped, script := [.tick 1] };
      s.mode = .stopped ∧ nextAction s ≠ .reset) := ⟨⟨rfl, by decide, rfl⟩, rfl, by decide⟩

theorem witness_ShutdownRequest :
    (let s := withChannel (chan (showLine ++ [0x41#8])) .shutdownReq;
      nextAction s = .shutdownReq ∧ s.mode = .run ∧ s.channels[0]? = some (chan (showLine ++ [0x41#8])) ∧
        hasLF (chan (showLine ++ [0x41#8])).acc = true ∧ hasLF (chan [0x41#8]).acc = false) ∧
    (let s := { withChannel (newChannel 0) .shutdownReq with mode := .shutdown };
      nextAction s = .shutdownReq ∧ s.mode = .shutdown) :=
  ⟨⟨rfl, rfl, rfl, by decide, by decide⟩, rfl, rfl⟩

/-- A state with a command and a FRAME waiting, and a step of it. -/
def waitingState : State :=
  { runState with
    lock := .held (.ch 1)
    channels := [busyChan (.waitLock .clear)]
    fs := { state := .waitBus, timer := 0, job := .waitLock (.frame []) }
    script := [.tick 1] }

theorem waitingState_commandInv : CommandInv waitingState :=
  ⟨by decide +kernel, by simp [waitingState, busyChan, jobCarries, Instr.wf, isFrame], rfl⟩

theorem witness_StepsGoOnAndKeepCommandInv :
    CommandInv waitingState ∧ waitingState.mode ≠ .failed ∧ step waitingState = .next { waitingState with script := [] } :=
  ⟨waitingState_commandInv, by decide, rfl⟩

theorem resetWith_colorInv (p : Params) (h1 : gammaLegal p.gammaInit = true) (h2 : unitLegal p.brightInit = true)
    (h3 : unitLegal p.alphaInit = true) (h4 : shape (buildLut p.gammaInit) p.brightInit f32Zero = 0#8) :
    ColorInv p (State.resetWith p).color :=
  ⟨resetWith_wf p, rfl, h1, h2, h3, by simp [State.resetWith, List.map_replicate, h4]⟩

theorem runState_colorInv : ColorInv Config.params (State.resetWith Config.params).color :=
  resetWith_colorInv Config.params (by decide +kernel) (by decide +kernel) (by decide +kernel) (by decide +kernel)

theorem witness_StepKeepsColorInv :
    CommandInv waitingState ∧ ColorInv waitingState.params waitingState.color ∧
      step waitingState = .next { waitingState with script := [] } :=
  ⟨waitingState_commandInv, runState_colorInv, rfl⟩

/-- A command of CH[0] waits for LOCK and nobody holds it. -/
def lockFreeState : State := withChannel (busyChan (.waitLock .clear)) (.tick 1)

theorem witness_StepKeepsLockInv :
    CommandInv lockFreeState ∧ LockInv lockFreeState ∧ step lockFreeState = .next { lockFreeState with script := [] } := by
  have hj : ∀ a, jobOf a lockFreeState = .idle ∨ jobOf a lockFreeState = .waitLock .clear := by
    intro a
    cases a with
    | ch k =>
      rcases Nat.eq_zero_or_pos k with h | h
      · subst h; exact .inr rfl
      · have : ((0 : Nat) == k) = false := by simp; omega
        exact .inl (by simp [jobOf, findChannel, lockFreeState, withChannel, busyChan, newChannel, this])
    | fs => exact .inl rfl
    | bus => exact .inl rfl
    | sys => exact .inl rfl
  refine ⟨⟨by decide +kernel, ?_, rfl⟩, ⟨rfl, fun a => ⟨?_, nofun⟩, fun _ => rfl, fun h => absurd rfl h,
    fun _ => ⟨rfl, fun a bytes => ?_⟩, fun h => absurd h (by decide), fun h => absurd rfl h, ?_, by decide⟩, rfl⟩
  · simp [lockFreeState, withChannel, busyChan, jobCarries, Instr.wf, isFrame]
  · rcases hj a with h | h <;> simp [h]
  · rcases hj a with h | h <;> simp [h]
  · simp [lockFreeState, withChannel, busyChan]

theorem witness_StepKeepsTargetsFinite :
    CommandInv waitingState ∧ ColorInv waitingState.params waitingState.color ∧ TargetsFinite waitingState.color.mem ∧
      step waitingState = .next { waitingState with script := [] } := by
  refine ⟨waitingState_commandInv, runState_colorInv, fun t ht => ?_, rfl⟩
  have ht : t ∈ List.replicate 9 f32Zero := ht
  rw [List.eq_of_mem_replicate ht]
  decide

theorem witness_StepKeepsTransferInv :
    let s := withBusAt .xfer 0 (.tick 1);
    s.color.mem.wf s.params.n = true ∧ TransferInv s ∧ step s = .next { s with script := [] } := by
  refine ⟨runState_wf, ⟨fun _ => rfl, ?_, rfl, ?_⟩, rfl⟩
  · simp [withBusAt, busyChan, jobFrameLength]
  · simp [withBusAt, runState, State.reset, State.resetWith]

theorem witness_ResetMeetsTheInvariants : paramsLegal Config.params = true := by decide +kernel

theorem witness_TransferringCommandRuns :
    (let s := { withChannel (chan showLine) (.tick 0) with
        script := [.ch 0, .bus (.done 9), .tick 1, .bus .ioerror, .ch 0] };
      s.mode = .run ∧ LineReady 0 (chan showLine) .showStrip s ∧ transfers .showStrip = true ∧ s.lock = .free ∧
        s.bus.state = .idle ∧ s.bus.client = none ∧ s.bus.lock = .free ∧ s.params.tLatch ≤ 1 ∧
        s.params.busOrder = .inLock ∧ 3 * s.params.n = 9 ∧
        after (fun t => (t.buslog, t.lock)) (Sys2Proof.core.run 5 s) =
          some ([{ bytes := List.replicate 9 0#8, result := .done 9 }], .free)) ∧
    (let s := { withChannel (chan showLine) (.tick 0) with
        params := snapState.params
        script := [.ch 0, .ch 0, .bus (.done 9), .tick 1, .bus .ioerror, .ch 0] };
      LineReady 0 (chan showLine) .showStrip s ∧ s.params.busOrder = .snapshot ∧
        after (fun t => (t.buslog, t.bus.lock)) (Sys2Proof.core.run 6 s) =
          some ([{ bytes := List.replicate 9 0#8, result := .done 9 }], .free)) :=
  ⟨⟨rfl, showLine_ready _ rfl rfl, rfl, rfl, rfl, rfl, rfl, by decide, rfl, rfl, by decide +kernel⟩,
    showLine_ready _ rfl rfl, rfl, by decide +kernel⟩

theorem witness_ShutdownRuns :
    let s := { withChannel (newChannel 0) (.tick 0) with
      script := [.shutdownReq, .sys .ok, .bus .ioerror, .tick 1, .bus .ioerror, .sys .ok] };
    s.mode = .run ∧ AllQuiet s ∧ s.params.tLatch ≤ 1 ∧ xferAnswerLegal s.params.n .ioerror = true ∧
      after (fun t => t.mode) (Sys2Proof.core.run 6 s) = some .stopped :=
  ⟨rfl, ⟨by simp [withChannel, newChannel], ⟨rfl, by decide⟩, rfl, rfl, rfl, rfl, rfl⟩, by decide, rfl, by decide +kernel⟩

/-- A complete line in a channel with no command in progress, which stays so, and a channel that does not open. -/
theorem witness_NothingStartsInShutdown :
    let s := { withChannel (chan showLine) (.ch 0) with mode := .shutdown };
    CommandInv s ∧ s.mode = .shutdown ∧ step s = .next { s with script := [] } ∧ findChannel 0 s = some (chan showLine) ∧
      (chan showLine).job = .idle ∧ findChannel 1 s = none ∧ s.fs.job = .idle :=
  ⟨⟨by show paramsLegal Config.params = true; decide +kernel,
      by simp [withChannel, chan, newChannel, jobCarries], rfl⟩, rfl, rfl, rfl, rfl, rfl, rfl⟩

end Sys2Proof.Tests
end

section
/-! SUPPORT. Rounding to binary32 in units of 2^-149: the rounded significand and its last place, what value the rounded bits
have, that no value of 24 significant bits is nearer, and from where on the result is an infinity (00_scope.md R10,
30_encoding.md R89). -/

namespace Sys2Proof.Machine

/-! ## The fields of a value -/

theorem f32Units_eq_ite (x : F32) : f32Units x = if f32Sign x then -(f32Mag x : ℤ) else f32Mag x := by
  unfold f32Units
  cases f32Sign x <;> rfl

/-- A number of units with at most 24 significant bits. -/
def FitsSignificand (u : ℤ) : Prop := ∃ (n : ℤ) (t : ℕ), |n| < 2 ^ 24 ∧ u = n * 2 ^ t

theorem FitsSignificand.neg {u : ℤ} (h : FitsSignificand u) : FitsSignificand (-u) := by
  obtain ⟨n, t, hn, rfl⟩ := h
  exact ⟨-n, t, by rwa [abs_neg], by ring⟩

theorem FitsSignificand.signed {u : ℤ} (neg : Bool) (h : FitsSignificand u) :
    FitsSignificand (if neg then -u else u) := by
  split
  · exact h.neg
  · exact h

theorem fitsSignificand_f32Mag (x : F32) : FitsSignificand (f32Mag x) := by
  have hf : f32Frac x < 2 ^ 23 := Nat.mod_lt _ (by norm_num)
  unfold f32Mag
  cases f32Exp x == 0 with
  | true => exact ⟨f32Frac x, 0, by rw [abs_of_nonneg (by positivity)]; omega, by simp⟩
  | false =>
    exact ⟨(2 ^ 23 + f32Frac x : ℕ), f32Exp x - 1, by rw [abs_of_nonneg (by positivity)]; omega,
      by simp only [cond_false]; push_cast; rfl⟩

theorem fitsSignificand_f32Units (x : F32) : FitsSignificand (f32Units x) := by
  rw [f32Units_eq_ite]
  exact (fitsSignificand_f32Mag x).signed _

/-- Magnitude bits below those of an infinity are those of a finite value. -/
theorem f32Finite_of_low_lt {x : F32} (h : f32Low x < 0x7F800000) : f32Finite x = true := by
  have hl := f32Low_eq x
  have : f32Exp x ≠ 255 := by omega
  simpa [f32Finite] using this

/-- The bits s·2^23 + m stand for m units of the last place s, a carry out of m included. -/
theorem f32Mag_of_low {x : F32} {s m : ℕ} (h : f32Low x = s * 2 ^ 23 + m) (hm : m ≤ 2 ^ 24) (hs : s = 0 ∨ 2 ^ 23 ≤ m) :
    f32Mag x = m * 2 ^ s := by
  have hl := f32Low_eq x
  have hf : f32Frac x < 2 ^ 23 := Nat.mod_lt _ (by norm_num)
  have subnormal_or_normal_or_carry : (s = 0 ∧ f32Exp x = 0 ∧ f32Frac x = m) ∨
      (f32Exp x = s + 1 ∧ 2 ^ 23 + f32Frac x = m) ∨ (f32Exp x = s + 2 ∧ f32Frac x = 0 ∧ m = 2 ^ 24) := by omega
  unfold f32Mag
  rcases subnormal_or_normal_or_carry with ⟨rfl, he, hfm⟩ | ⟨he, hfm⟩ | ⟨he, hfm, rfl⟩
  · simp [he, hfm]
  · simp [he, ← hfm]
  · have : (s + 2 == 0) = false := rfl
    rw [he, hfm, this, cond_false, add_zero, show s + 2 - 1 = s + 1 from rfl]
    ring

/-! ## The nearest multiple -/

/-- `divNearestEven a d` times d is the multiple of d nearest to a; if another is as near, it is an even multiple. -/
theorem divNearestEven_nearest (a : ℕ) {d : ℕ} (hd : 0 < d) (k : ℤ) :
    |(divNearestEven a d : ℤ) * d - a| ≤ |k * d - a| ∧
      (|(divNearestEven a d : ℤ) * d - a| = |k * d - a| → k = divNearestEven a d ∨ divNearestEven a d % 2 = 0) := by
  obtain ⟨hlow, hhigh, heven⟩ := divNearestEven_spec a hd
  generalize divNearestEven a d = m at *
  zify at hlow hhigh hd heven
  simp only [abs_eq_max_neg]
  rcases eq_or_ne k m with rfl | hkm
  · exact ⟨le_rfl, fun _ => .inl rfl⟩
  · have apart : k * d + d ≤ m * d ∨ m * d + d ≤ k * d :=
      (lt_or_gt_of_ne hkm).imp (fun h => by nlinarith) fun h => by nlinarith
    generalize (m : ℤ) * d = p at *
    generalize k * (d : ℤ) = r at *
    exact ⟨by omega, fun e => .inr (by exact_mod_cast heven (by omega))⟩

/-! ## The rounded significand and its last place -/

/-- The last place `roundMag` rounds num / den to, in binary places above 2^-149. -/
def lastPlace (num den : ℕ) : ℕ := roundShift (num * f32Scale / den) halvingSteps 0

/-- The significand `roundMag` rounds num / den to, in units of the last place. -/
def roundedSig (num den : ℕ) : ℕ := divNearestEven (num * f32Scale) (den * 2 ^ lastPlace num den)

theorem roundMag_eq_min (num den : ℕ) :
    roundMag num den = min (lastPlace num den * 2 ^ 23 + roundedSig num den) 0x7F800000 := rfl

section
variable {num den : ℕ} (hd : 0 < den)
include hd

theorem lastPlace_eq_zero_or_le :
    lastPlace num den = 0 ∨ 2 ^ 23 * (den * 2 ^ lastPlace num den) ≤ num * f32Scale := by
  refine (roundShift_spec (num * f32Scale / den)).2.1.imp_right fun h => ?_
  have := (Nat.le_div_iff_mul_le hd).mp h
  unfold lastPlace
  rw [pow_add] at this
  linarith

theorem lastPlace_eq_or_lt :
    lastPlace num den = 255 ∨ num * f32Scale < 2 ^ 24 * (den * 2 ^ lastPlace num den) := by
  refine (roundShift_spec (num * f32Scale / den)).2.2.imp_right fun h => ?_
  have := (Nat.div_lt_iff_lt_mul hd).mp h
  unfold lastPlace
  rw [pow_add] at this
  linarith

theorem roundedSig_spec {M : ℕ} (hM : den * 2 ^ lastPlace num den = M) :
    2 * (roundedSig num den * M) ≤ 2 * (num * f32Scale) + M ∧
      2 * (num * f32Scale) ≤ 2 * (roundedSig num den * M) + M ∧
      ((2 * (roundedSig num den * M) = 2 * (num * f32Scale) + M ∨
          2 * (num * f32Scale) = 2 * (roundedSig num den * M) + M) →
        roundedSig num den % 2 = 0) := by
  subst hM
  exact divNearestEven_spec _ (by positivity)

theorem roundedSig_le (h : lastPlace num den ≠ 255) : roundedSig num den ≤ 2 ^ 24 := by
  have hlt := (lastPlace_eq_or_lt hd).resolve_left h
  obtain ⟨hlow, -, -⟩ := roundedSig_spec (num := num) hd rfl
  generalize den * 2 ^ lastPlace num den = M at *
  by_contra hc
  have : (2 ^ 24 + 1) * M ≤ roundedSig num den * M := Nat.mul_le_mul_right _ (by omega)
  omega

theorem lastPlace_eq_zero_or_le_roundedSig : lastPlace num den = 0 ∨ 2 ^ 23 ≤ roundedSig num den := by
  refine (lastPlace_eq_zero_or_le hd).imp_right fun h => ?_
  obtain ⟨-, hhigh, -⟩ := roundedSig_spec (num := num) hd rfl
  have hM : 0 < den * 2 ^ lastPlace num den := by positivity
  generalize den * 2 ^ lastPlace num den = M at *
  by_contra hc
  have : (roundedSig num den + 1) * M ≤ 2 ^ 23 * M := Nat.mul_le_mul_right _ (by omega)
  rw [add_mul] at this
  omega

/-- No number of units of 24 significant bits is nearer to num / den than the rounded one; if another is as near, the rounded
significand is even. Units with a last place of at least `lastPlace` are multiples of it; all others lie below
2^23 units of `lastPlace`, a multiple that num / den is not below. -/
theorem roundedSig_nearest {u : ℤ} (hu : FitsSignificand u) :
    |(roundedSig num den * 2 ^ lastPlace num den : ℤ) * den - (num * f32Scale : ℕ)| ≤ |u * den - (num * f32Scale : ℕ)| ∧
      (|(roundedSig num den * 2 ^ lastPlace num den : ℤ) * den - (num * f32Scale : ℕ)| =
          |u * den - (num * f32Scale : ℕ)| →
        u = roundedSig num den * 2 ^ lastPlace num den ∨ roundedSig num den % 2 = 0) := by
  have assoc : ∀ k : ℤ, k * (den * 2 ^ lastPlace num den : ℕ) = k * 2 ^ lastPlace num den * den := by
    intro k; push_cast; ring
  have nearest := divNearestEven_nearest (num * f32Scale) (d := den * 2 ^ lastPlace num den)
    (Nat.mul_pos hd (by positivity))
  rw [show divNearestEven _ _ = roundedSig num den from rfl] at nearest
  simp only [assoc] at nearest
  obtain ⟨n, t, hn, rfl⟩ := hu
  rcases Nat.lt_or_ge t (lastPlace num den) with hts | hts
  · have hle := (lastPlace_eq_zero_or_le (num := num) hd).resolve_left (by omega)
    have hn : n < 2 ^ 24 := (abs_lt.mp hn).2
    have hpow : (2 : ℤ) ^ (t + 1) ≤ 2 ^ lastPlace num den := pow_le_pow_right₀ (by norm_num) hts
    have hbelow : n * 2 ^ t * den < 2 ^ 23 * 2 ^ lastPlace num den * den := by
      have hd : (0 : ℤ) < den := by exact_mod_cast hd
      have ht : (0 : ℤ) < 2 ^ t := by positivity
      refine mul_lt_mul_of_pos_right ?_ hd
      calc n * 2 ^ t < 2 ^ 24 * 2 ^ t := mul_lt_mul_of_pos_right hn ht
        _ = 2 ^ 23 * 2 ^ (t + 1) := by ring
        _ ≤ 2 ^ 23 * 2 ^ lastPlace num den := by linarith
    have hle : (2 : ℤ) ^ 23 * 2 ^ lastPlace num den * den ≤ (num * f32Scale : ℕ) := by
      rw [← assoc]
      exact_mod_cast hle
    have strict : |(2 ^ 23 : ℤ) * 2 ^ lastPlace num den * den - (num * f32Scale : ℕ)| <
        |n * 2 ^ t * den - (num * f32Scale : ℕ)| := by
      rw [abs_of_nonpos (by linarith), abs_of_neg (by linarith)]
      linarith
    have := (nearest (2 ^ 23)).1.trans_lt strict
    exact ⟨this.le, fun e => absurd e this.ne⟩
  · have multiple : n * 2 ^ t = n * 2 ^ (t - lastPlace num den) * 2 ^ lastPlace num den := by
      rw [mul_assoc, ← pow_add, Nat.sub_add_cancel hts]
    rw [multiple]
    exact ⟨(nearest _).1, fun e => ((nearest _).2 e).imp_left fun h => by rw [h]⟩

/-! ## Where the result is an infinity -/

theorem lastPlace_lt_or_eq_and_roundedSig_lt (h : 2 * (num * f32Scale) < (2 ^ 25 - 1) * (den * 2 ^ 253)) :
    lastPlace num den < 253 ∨ lastPlace num den = 253 ∧ roundedSig num den < 2 ^ 24 := by
  have hle := lastPlace_eq_zero_or_le (num := num) hd
  rcases lt_trichotomy (lastPlace num den) 253 with hs | hs | hs
  · exact .inl hs
  · refine .inr ⟨hs, ?_⟩
    obtain ⟨hlow, -, -⟩ := roundedSig_spec (num := num) hd (by rw [hs])
    have hM : 0 < den * 2 ^ 253 := by positivity
    generalize den * 2 ^ 253 = M at *
    by_contra hc
    have : 2 ^ 24 * M ≤ roundedSig num den * M := Nat.mul_le_mul_right _ (by omega)
    omega
  · have hle := hle.resolve_left (by omega)
    have : den * (2 ^ 253 * 2) ≤ den * 2 ^ lastPlace num den :=
      Nat.mul_le_mul_left _ (by rw [← pow_succ]; exact Nat.pow_le_pow_right (by norm_num) hs)
    rw [← mul_assoc] at this
    generalize den * 2 ^ 253 = M at *
    omega

theorem lt_lastPlace_or_eq_and_le_roundedSig (h : (2 ^ 25 - 1) * (den * 2 ^ 253) ≤ 2 * (num * f32Scale)) :
    253 < lastPlace num den ∨ lastPlace num den = 253 ∧ 2 ^ 24 ≤ roundedSig num den := by
  have hlt := lastPlace_eq_or_lt (num := num) hd
  have hM : 0 < den * 2 ^ 253 := by positivity
  rcases lt_trichotomy (lastPlace num den) 253 with hs | hs | hs
  · have hlt := hlt.resolve_left (by omega)
    have : den * 2 ^ lastPlace num den * 2 ≤ den * 2 ^ 253 := by
      rw [mul_assoc, ← pow_succ]
      exact Nat.mul_le_mul_left _ (Nat.pow_le_pow_right (by norm_num) hs)
    generalize den * 2 ^ 253 = M at *
    omega
  · refine .inr ⟨hs, ?_⟩
    obtain ⟨-, hhigh, heven⟩ := roundedSig_spec (num := num) hd (by rw [hs])
    generalize den * 2 ^ 253 = M at *
    generalize roundedSig num den = m at *
    by_contra hc
    have hmM : m * M ≤ (2 ^ 24 - 1) * M := Nat.mul_le_mul_right _ (by omega)
    have hm : m = 2 ^ 24 - 1 := by
      by_contra hne
      have : m * M ≤ (2 ^ 24 - 2) * M := Nat.mul_le_mul_right _ (by omega)
      omega
    have := heven (.inr (by omega))
    omega
  · exact .inl hs

/-- Below 2^128 - 2^103 the magnitude bits are those of a finite value. -/
theorem roundMag_lt (h : 2 * (num * f32Scale) < (2 ^ 25 - 1) * (den * 2 ^ 253)) : roundMag num den < 0x7F800000 := by
  have := lastPlace_lt_or_eq_and_roundedSig_lt hd h
  have := roundedSig_le (num := num) hd (by omega)
  rw [roundMag_eq_min]
  omega

/-- From 2^128 - 2^103 on they are those of an infinity. -/
theorem roundMag_eq_infinity (h : (2 ^ 25 - 1) * (den * 2 ^ 253) ≤ 2 * (num * f32Scale)) :
    roundMag num den = 0x7F800000 := by
  have := lt_lastPlace_or_eq_and_le_roundedSig hd h
  have := lastPlace_eq_zero_or_le_roundedSig (num := num) hd
  rw [roundMag_eq_min]
  omega

end

/-! ## The rounded value -/

theorem roundMag_le (num den : ℕ) : roundMag num den ≤ 0x7F800000 := Nat.min_le_right ..

theorem f32Round_toNat (neg : Bool) (num den : ℕ) :
    (f32Round neg num den).toNat = (bif neg then 2 ^ 31 else 0) + roundMag num den := by
  have := roundMag_le num den
  unfold f32Round
  rw [BitVec.toNat_ofNat]
  cases neg <;> simp only [cond_true, cond_false] <;> omega

@[simp] theorem f32Low_f32Round (neg : Bool) (num den : ℕ) : f32Low (f32Round neg num den) = roundMag num den := by
  have := roundMag_le num den
  unfold f32Low
  rw [f32Round_toNat]
  cases neg <;> simp only [cond_true, cond_false] <;> omega

@[simp] theorem f32Sign_f32Round (neg : Bool) (num den : ℕ) : f32Sign (f32Round neg num den) = neg := by
  have := roundMag_le num den
  unfold f32Sign
  rw [f32Round_toNat]
  cases neg with
  | true => exact Nat.ble_eq.mpr (Nat.le_add_right ..)
  | false =>
    rw [← Bool.not_eq_true, Nat.ble_eq]
    simp only [cond_false]
    omega

/-- A finite rounded value: its units without the sign, and its last bit. -/
theorem f32Round_of_lt {num den : ℕ} (hd : 0 < den) (neg : Bool) (h : roundMag num den < 0x7F800000) :
    (if neg then -f32Units (f32Round neg num den) else f32Units (f32Round neg num den)) =
        roundedSig num den * 2 ^ lastPlace num den ∧
      (f32Round neg num den).toNat % 2 = roundedSig num den % 2 := by
  have hbits : roundMag num den = lastPlace num den * 2 ^ 23 + roundedSig num den := by
    rw [roundMag_eq_min] at h ⊢
    omega
  have hmag : f32Mag (f32Round neg num den) = roundedSig num den * 2 ^ lastPlace num den :=
    f32Mag_of_low ((f32Low_f32Round ..).trans hbits) (roundedSig_le hd (by omega)) (lastPlace_eq_zero_or_le_roundedSig hd)
  refine ⟨?_, ?_⟩
  · rw [f32Units_eq_ite, hmag, f32Sign_f32Round]
    cases neg <;> simp
  · rw [f32Round_toNat, hbits]
    cases neg <;> simp only [cond_true, cond_false] <;> omega

/-! ## The rounded value and the rational it is near to -/

/-- The overflow bound in units. -/
theorem lt_overflowBound_iff {num den : ℕ} (hd : 0 < den) :
    (num : ℚ) / den < overflowBound ↔ 2 * (num * f32Scale) < (2 ^ 25 - 1) * (den * 2 ^ 253) := by
  have hd : (0 : ℚ) < den := by exact_mod_cast hd
  rw [div_lt_iff₀ hd, ← Nat.cast_lt (α := ℚ), overflowBound, f32Scale]
  push_cast
  constructor <;> intro h <;> nlinarith

/-- The distance of u units from ±num/den, as an integer over 2^149·den. -/
theorem abs_units_sub_eq (neg : Bool) (num : ℕ) {den : ℕ} (hd : 0 < den) (u : ℤ) :
    |(u : ℚ) / 2 ^ 149 - (if neg then -((num : ℚ) / den) else (num : ℚ) / den)| =
      ((|(if neg then -u else u) * den - (num * f32Scale : ℕ)| : ℤ) : ℚ) / (2 ^ 149 * den) := by
  have hd : (0 : ℚ) < den := by exact_mod_cast hd
  rw [f32Scale, Int.cast_abs, ← abs_of_pos (show (0 : ℚ) < 2 ^ 149 * den by positivity), ← abs_div]
  cases neg with
  | true =>
    rw [← abs_neg, if_pos rfl, if_pos rfl]
    congr 1
    push_cast
    field_simp
    ring
  | false =>
    rw [if_neg Bool.false_ne_true, if_neg Bool.false_ne_true]
    congr 1
    push_cast
    field_simp
    ring

section
variable {num den : ℕ} (hd : 0 < den) (neg : Bool) (h : (num : ℚ) / den < overflowBound)
include hd h

theorem f32Round_nearestEven :
    NearestEven (if neg then -((num : ℚ) / den) else (num : ℚ) / den) (f32Round neg num den) := by
  have hlt := roundMag_lt hd ((lt_overflowBound_iff hd).mp h)
  obtain ⟨hunits, hparity⟩ := f32Round_of_lt hd neg hlt
  refine ⟨f32Finite_of_low_lt (by simpa using hlt), fun y _ => ?_⟩
  obtain ⟨hnear, htie⟩ := roundedSig_nearest (num := num) hd ((fitsSignificand_f32Units y).signed neg)
  have hpos : (0 : ℚ) < 2 ^ 149 * den := by positivity
  unfold f32Value
  rw [abs_units_sub_eq neg num hd, abs_units_sub_eq neg num hd, hunits, div_le_div_iff_of_pos_right hpos,
    div_left_inj' hpos.ne', Int.cast_le, Int.cast_inj, hparity]
  refine ⟨hnear, fun e => (htie e).imp_left fun hy => ?_⟩
  rw [← hunits] at hy
  have : f32Units y = f32Units (f32Round neg num den) := by
    split at hy
    · exact neg_injective hy
    · exact hy
  rw [this]

/-- A value of 24 significant bits is rounded to itself. -/
theorem f32Value_f32Round_of_fits {u : ℤ} (hu : FitsSignificand u) (hexact : u * den = (num * f32Scale : ℕ)) :
    f32Value (f32Round neg num den) = if neg then -((num : ℚ) / den) else (num : ℚ) / den := by
  obtain ⟨hunits, -⟩ := f32Round_of_lt hd neg (roundMag_lt hd ((lt_overflowBound_iff hd).mp h))
  have hnear := (roundedSig_nearest (num := num) hd hu).1
  rw [hexact, sub_self, abs_zero] at hnear
  have hzero := abs_units_sub_eq neg num hd (f32Units (f32Round neg num den))
  rw [hunits, le_antisymm hnear (abs_nonneg _), Int.cast_zero, zero_div, abs_eq_zero, sub_eq_zero] at hzero
  exact hzero

end

/-- Settles O10, from the units: the nearest value (`f32Round_nearestEven`) and the bound (`roundMag_eq_infinity`). -/
theorem roundingIsNearestEven : Obligations.RoundingIsNearestEven := by
  intro neg num den hd
  refine ⟨f32Sign_f32Round .., f32Round_nearestEven hd neg, fun h => ?_⟩
  rw [← not_lt, lt_overflowBound_iff hd, not_lt] at h
  unfold f32Round
  rw [roundMag_eq_infinity hd h]
  cases neg <;> rfl

/-! ## Arithmetic -/

/-- `f32Round` rounds once, overflow and sign included. -/
theorem f32Round_roundsTo (neg : Bool) (num : ℕ) {den : ℕ} (hd : 0 < den) :
    RoundsTo (if neg then -((num : ℚ) / den) else (num : ℚ) / den) neg (f32Round neg num den) := by
  obtain ⟨hsign, hnear, hover⟩ := roundingIsNearestEven neg num den hd
  have habs : |if neg then -((num : ℚ) / den) else (num : ℚ) / den| = (num : ℚ) / den := by
    have : 0 ≤ (num : ℚ) / den := by positivity
    split
    · rw [abs_neg, abs_of_nonneg this]
    · exact abs_of_nonneg this
  exact ⟨fun h => hnear (habs ▸ h), fun h => hover (habs ▸ h), hsign⟩

/-- An integer over den, its sign and magnitude apart as `f32Round` takes them. -/
theorem int_div_eq_signed_natAbs_div (z : ℤ) (den : ℚ) :
    (z : ℚ) / den = if decide (z < 0) then -((z.natAbs : ℚ) / den) else (z.natAbs : ℚ) / den := by
  rw [Nat.cast_natAbs]
  rcases lt_or_ge z 0 with hlt | hge
  · simp [hlt, abs_of_neg hlt, neg_div]
  · simp [hge.not_gt, abs_of_nonneg hge]

theorem f32Round_int_roundsTo (z : ℤ) {den : ℕ} (hd : 0 < den) :
    RoundsTo ((z : ℚ) / den) (decide (z < 0)) (f32Round (decide (z < 0)) z.natAbs den) := by
  rw [int_div_eq_signed_natAbs_div]
  exact f32Round_roundsTo _ _ hd

/-- A zero of either sign is the rounded 0. -/
theorem f32Round_zero (neg : Bool) (den : ℕ) : f32Round neg 0 den = if neg then f32NegZero else f32Zero := by
  unfold f32Round
  rw [roundMag_zero]
  cases neg <;> rfl

theorem eq_zero_of_mag_eq_zero {x : F32} (hx : f32Finite x = true) (h : f32Mag x = 0) :
    x = if f32Sign x then f32NegZero else f32Zero := by
  have := f32Round_self hx
  rwa [h, f32Round_zero, eq_comm] at this

theorem f32Sign_eq_msb (x : F32) : f32Sign x = x.msb := by
  rw [BitVec.msb_eq_decide, Bool.eq_iff_iff, decide_eq_true_iff]
  exact Nat.ble_eq.to_iff

@[simp] theorem f32Sign_neg (x : F32) : f32Sign (f32Neg x) = !f32Sign x := by
  rw [f32Sign_eq_msb, f32Sign_eq_msb, f32Neg, BitVec.msb_xor, show f32NegZero.msb = true from rfl, Bool.xor_true]

theorem f32Low_neg (x : F32) : f32Low (f32Neg x) = f32Low x := by
  unfold f32Low f32Neg f32NegZero
  rw [BitVec.toNat_xor, Nat.xor_mod_two_pow]
  simp

theorem f32Exp_neg (x : F32) : f32Exp (f32Neg x) = f32Exp x := by
  have := f32Low_neg x
  unfold f32Low at this
  unfold f32Exp
  omega

@[simp] theorem f32Mag_neg (x : F32) : f32Mag (f32Neg x) = f32Mag x := by
  rw [f32Mag_eq, f32Mag_eq, f32Low_neg, f32Exp_neg]

@[simp] theorem f32Finite_neg (x : F32) : f32Finite (f32Neg x) = f32Finite x := by
  rw [f32Finite, f32Finite, f32Exp_neg]

@[simp] theorem f32Value_neg (x : F32) : f32Value (f32Neg x) = -f32Value x := by
  unfold f32Value
  rw [f32Units_eq_ite, f32Units_eq_ite, f32Mag_neg, f32Sign_neg]
  cases f32Sign x <;> simp [neg_div]

theorem f32Neg_eq_negZero_iff (x : F32) : f32Neg x = f32NegZero ↔ x = f32Zero := by
  unfold f32Neg f32NegZero f32Zero
  simp

/-- In a zero sum of finite values both are negative only if both are -0.0. -/
theorem signs_of_zero_sum {a b : F32} (ha : f32Finite a = true) (hb : f32Finite b = true)
    (h : f32Units a + f32Units b = 0) :
    (f32Sign a && f32Sign b) = decide (a = f32NegZero ∧ b = f32NegZero) := by
  rw [f32Units_eq_ite, f32Units_eq_ite] at h
  rw [Bool.eq_iff_iff, Bool.and_eq_true, decide_eq_true_iff]
  constructor
  · rintro ⟨hsa, hsb⟩
    rw [hsa, hsb] at h
    have ha := eq_zero_of_mag_eq_zero ha (by simp only [if_true] at h; omega)
    have hb := eq_zero_of_mag_eq_zero hb (by simp only [if_true] at h; omega)
    rw [hsa] at ha
    rw [hsb] at hb
    exact ⟨ha, hb⟩
  · rintro ⟨rfl, rfl⟩
    decide

theorem fadd_of_finite {a b : F32} (ha : f32Finite a = true) (hb : f32Finite b = true) :
    fadd a b =
      if f32Units a + f32Units b = 0 then (if f32Sign a && f32Sign b then f32NegZero else f32Zero)
      else f32Round (decide (f32Units a + f32Units b < 0)) (f32Units a + f32Units b).natAbs f32Scale := by
  unfold fadd
  rw [ha, hb, Bool.and_self, cond_true]
  simp only [Bool.cond_eq_ite, beq_iff_eq]

theorem fadd_roundsTo {a b : F32} (ha : f32Finite a = true) (hb : f32Finite b = true) :
    RoundsTo (f32Value a + f32Value b)
      (if f32Value a + f32Value b = 0 then decide (a = f32NegZero ∧ b = f32NegZero)
       else decide (f32Value a + f32Value b < 0)) (fadd a b) := by
  have hsum : f32Value a + f32Value b = ((f32Units a + f32Units b : ℤ) : ℚ) / f32Scale := by
    unfold f32Value f32Scale
    push_cast
    ring
  have hscale : (0 : ℚ) < f32Scale := by exact_mod_cast f32Scale_pos
  have hzero : f32Value a + f32Value b = 0 ↔ f32Units a + f32Units b = 0 := by
    rw [hsum, div_eq_zero_iff, or_iff_left hscale.ne', Int.cast_eq_zero]
  have hneg : f32Value a + f32Value b < 0 ↔ f32Units a + f32Units b < 0 := by
    rw [hsum, div_lt_iff₀ hscale, zero_mul, Int.cast_lt_zero]
  simp only [hzero, hneg]
  rw [fadd_of_finite ha hb, hsum]
  rcases eq_or_ne (f32Units a + f32Units b) 0 with hz | hz
  · have h := f32Round_roundsTo (f32Sign a && f32Sign b) 0 f32Scale_pos
    rw [f32Round_zero, Nat.cast_zero, zero_div, neg_zero, ite_self] at h
    rwa [if_pos hz, if_pos hz, hz, Int.cast_zero, zero_div, ← signs_of_zero_sum ha hb hz]
  · rw [if_neg hz, if_neg hz]
    exact f32Round_int_roundsTo _ f32Scale_pos

theorem fsub_roundsTo {a b : F32} (ha : f32Finite a = true) (hb : f32Finite b = true) :
    RoundsTo (f32Value a - f32Value b)
      (if f32Value a - f32Value b = 0 then decide (a = f32NegZero ∧ b = f32Zero)
       else decide (f32Value a - f32Value b < 0)) (fsub a b) := by
  have h := fadd_roundsTo ha ((f32Finite_neg b).trans hb)
  simp only [f32Value_neg, f32Neg_eq_negZero_iff, ← sub_eq_add_neg] at h
  exact h

theorem fmul_roundsTo {a b : F32} (ha : f32Finite a = true) (hb : f32Finite b = true) :
    RoundsTo (f32Value a * f32Value b) (f32Sign a != f32Sign b) (fmul a b) := by
  have h := f32Round_roundsTo (f32Sign a != f32Sign b) (f32Mag a * f32Mag b) (Nat.mul_pos f32Scale_pos f32Scale_pos)
  have hprod : f32Value a * f32Value b =
      if f32Sign a != f32Sign b then -(((f32Mag a * f32Mag b : ℕ) : ℚ) / (f32Scale * f32Scale : ℕ))
      else ((f32Mag a * f32Mag b : ℕ) : ℚ) / (f32Scale * f32Scale : ℕ) := by
    unfold f32Value f32Scale
    rw [f32Units_eq_ite, f32Units_eq_ite]
    push_cast
    cases f32Sign a <;> cases f32Sign b <;> simp <;> ring
  unfold fmul
  rw [ha, hb, hprod]
  exact h

theorem f32OfInt_roundsTo (v : ℤ) : RoundsTo (v : ℚ) (decide (v < 0)) (f32OfInt v) := by
  have h := f32Round_int_roundsTo v one_pos
  rwa [Nat.cast_one, div_one] at h

theorem fitsSignificand_of_natAbs_le {m : ℕ} (h : m ≤ 2 ^ 24) : FitsSignificand (m * 2 ^ 149) := by
  rcases h.lt_or_eq with h | rfl
  · exact ⟨m, 149, by rw [abs_of_nonneg (by positivity)]; exact_mod_cast h, rfl⟩
  · exact ⟨2 ^ 23, 150, by norm_num, by norm_num⟩

theorem f32Value_f32OfInt {v : ℤ} (h : v.natAbs ≤ 2 ^ 24) : f32Value (f32OfInt v) = v := by
  have hbound : (v.natAbs : ℚ) / (1 : ℕ) < overflowBound := by
    have : (v.natAbs : ℚ) ≤ 2 ^ 24 := by exact_mod_cast h
    rw [Nat.cast_one, div_one]
    exact this.trans_lt (by norm_num [overflowBound])
  unfold f32OfInt
  rw [f32Value_f32Round_of_fits one_pos _ hbound (fitsSignificand_of_natAbs_le h) (by simp [f32Scale]),
    ← int_div_eq_signed_natAbs_div, Nat.cast_one, div_one]

/-- Settles O11: each operation is one `f32Round` of its exact result (`f32Round_roundsTo`). -/
theorem arithmeticRoundsOnce : Obligations.ArithmeticRoundsOnce :=
  ⟨fun _ _ ha hb => ⟨fadd_roundsTo ha hb, fsub_roundsTo ha hb, fmul_roundsTo ha hb⟩,
    fun v => ⟨f32OfInt_roundsTo v, f32Value_f32OfInt⟩⟩

end Sys2Proof.Machine
end

section
/-! SUPPORT. A command that a line decodes to is well-formed (30_encoding.md R88-R92), so its numbers are finite. -/

namespace Sys2Proof.Machine

theorem f32Finite_f32Round {neg : Bool} {num den : ℕ} (h : roundMag num den < 0x7F800000) :
    f32Finite (f32Round neg num den) = true := f32Finite_of_low_lt (by simpa using h)

theorem f32Finite_f32Round_zero (neg : Bool) : f32Finite (f32Round neg 0 1) = true :=
  f32Finite_f32Round (by rw [roundMag_zero]; norm_num)

theorem decimalF32_finite {neg : Bool} {len D : ℕ} {E : ℤ} {x : F32} (h : decimalF32 neg len D E = some x) :
    f32Finite x = true := by
  simp only [decimalF32, Bool.cond_eq_ite] at h
  split_ifs at h with _ _ _ hinf
  · exact Option.some.inj h ▸ f32Finite_f32Round_zero neg
  · exact Option.some.inj h ▸ f32Finite_f32Round_zero neg
  · rw [Nat.ble_eq, not_le] at hinf
    exact Option.some.inj h ▸ f32Finite_f32Round hinf

theorem parseNum_finite {tok : List Byte} {x : F32} (h : parseNum tok = some x) : f32Finite x = true := by
  simp only [parseNum, Bool.cond_eq_ite] at h
  split at h
  · cases h
  · split_ifs at h
    exact decimalF32_finite h

theorem parseInt_inRange {tok : List Byte} {v : ℤ} (h : parseInt tok = some v) : i32InRange v = true := by
  simp only [parseInt, Bool.cond_eq_ite] at h
  split_ifs at h with hv
  rw [Bool.and_eq_true] at hv
  exact Option.some.inj h ▸ hv.2

theorem f32Finite_f32Round_of_le {neg : Bool} {num den : ℕ} (hd : 0 < den) (h : num ≤ 2 ^ 31) :
    f32Finite (f32Round neg num den) = true := by
  refine (f32Round_nearestEven hd neg ?_).1
  have hnum : (num : ℚ) ≤ 2 ^ 31 := by exact_mod_cast h
  have hden : (1 : ℚ) ≤ den := by exact_mod_cast hd
  calc (num : ℚ) / den ≤ num := div_le_self (by positivity) hden
    _ ≤ 2 ^ 31 := hnum
    _ < overflowBound := by norm_num [overflowBound]

theorem brightOfInt_finite {v : ℤ} (h : i32InRange v = true) : f32Finite (brightOfInt v) = true := by
  simp only [i32InRange, Bool.and_eq_true, decide_eq_true_eq] at h
  unfold brightOfInt
  cases decide (1 < v) with
  | true => exact f32Finite_f32Round_of_le (by norm_num) (by omega)
  | false => exact f32Finite_f32Round_of_le one_pos (by omega)

theorem parseBright_finite {tok : List Byte} {x : F32} (h : parseBright tok = some x) : f32Finite x = true := by
  unfold parseBright at h
  cases hdot : tok.any (· == byteDot) with
  | true => exact parseNum_finite (by simpa [hdot] using h)
  | false =>
    rw [hdot, cond_false, Option.map_eq_some_iff] at h
    obtain ⟨v, hv, rfl⟩ := h
    exact brightOfInt_finite (parseInt_inRange hv)

theorem parseArgs_wf {m : Mnemonic} {args : List (List Byte)} {i : Instr} (h : parseArgs m args = some i) :
    i.wf = true := by
  cases m with
  | COLOR =>
    simp only [parseArgs] at h
    split at h
    next r g b hr hg hb =>
      cases h
      simp [Instr.wf, parseInt_inRange hr, parseInt_inRange hg, parseInt_inRange hb]
    next => cases h
  | PIX =>
    simp only [parseArgs] at h
    split at h
    next idx r g b hidx hr hg hb =>
      cases h
      simp [Instr.wf, parseInt_inRange hidx, parseInt_inRange hr, parseInt_inRange hg, parseInt_inRange hb]
    next => cases h
  | BRIGHT =>
    obtain ⟨x, hx, rfl⟩ := Option.map_eq_some_iff.mp h
    exact parseBright_finite hx
  | GAMMA =>
    obtain ⟨x, hx, rfl⟩ := Option.map_eq_some_iff.mp h
    exact parseNum_finite hx
  | SMOOTH =>
    obtain ⟨x, hx, rfl⟩ := Option.map_eq_some_iff.mp h
    exact parseNum_finite hx
  | SHOW | CLEAR | STATUS => cases h; rfl

theorem decodeLine_wf {line : List Byte} {i : Instr} (h : decodeLine line = .cmd i) : i.wf = true := by
  simp only [decodeLine, Bool.cond_eq_ite] at h
  split at h
  · cases h
  · split at h
    · cases h
    · split_ifs at h
      split at h
      · cases h
      next j hj =>
        cases h
        exact parseArgs_wf hj

end Sys2Proof.Machine
end

section
/-! SUPPORT. What the section of each command makes of Color State, in one function (`sectionColor`), and that it keeps the
lengths of the spaces and the invariant of 10_state.md R24-R33. The ideas: a section that ends in reshape has O = shape(T) by
construction, one that clears has it because a legal GAMMA maps index 0 to 0. -/

namespace Sys2Proof.Machine

/-! ## Register values -/

theorem f32IsNan_of_finite {x : F32} (h : f32Finite x = true) : f32IsNan x = false := by
  simp only [f32Finite, Bool.not_eq_true'] at h
  simp [f32IsNan, h]

theorem clampUnit_legal {x : F32} (h : f32Finite x = true) : unitLegal (clampUnit x) = true := by
  have hx := f32IsNan_of_finite h
  have h0 : f32IsNan f32Zero = false := by decide
  have h1 : f32IsNan f32One = false := by decide
  unfold clampUnit f32Clamp
  cases hlo : f32Lt x f32Zero with
  | true => exact (by decide : unitLegal f32Zero = true)
  | false =>
    cases hhi : f32Lt f32One x with
    | true => exact (by decide : unitLegal f32One = true)
    | false =>
      simp only [f32Lt, hx, h0, h1, Bool.not_false, Bool.true_and, decide_eq_false_iff_not, not_lt] at hlo hhi
      simp [unitLegal, f32Le, hx, h0, h1, hlo, hhi]

/-- What setGamma does not refuse is legal (41_color_state.md R145). -/
theorem gammaLegal_of_not_refused {g : F32} (hg : f32Finite g = true) (h : gammaRefused g = false) :
    gammaLegal g = true := by
  have hn := f32IsNan_of_finite hg
  have hh : f32IsNan f32Hundredth = false := by decide
  simp only [gammaRefused, f32Le, hn, hh, Bool.not_false, Bool.true_and, decide_eq_false_iff_not, not_le] at h
  simp [gammaLegal, f32Lt, hg, hn, hh, h]

/-! ## Index 0 of a table with a legal exponent -/

theorem gammaRatio_pos {g : F32} (h : gammaLegal g = true) : 0 < (gammaRatio g).1 := by
  have hunits : f32Units f32Hundredth < f32Units g := by
    simp only [gammaLegal, f32Lt, Bool.and_eq_true, decide_eq_true_eq] at h
    exact h.2.2
  have hpos : 0 < f32Units f32Hundredth := by decide
  have hmag : 0 < f32Mag g := by
    rw [f32Units_eq_ite g] at hunits
    split at hunits <;> omega
  obtain ⟨hratio, hq⟩ := gammaRatio_spec g
  have : 0 < (gammaRatio g).1 * f32Scale := hratio ▸ Nat.mul_pos hq hmag
  exact Nat.pos_of_mul_pos_right this

theorem lutCount_zero {p : ℕ} (hp : 0 < p) (q : ℕ) : lutCount p q 0 = 0 := by
  have none_reached : ∀ k ∈ List.range 255, ¬ reaches p q (k + 1) 0 = true := by
    intro k _
    have : 0 < (2 * (k + 1) - 1) ^ q * 255 ^ p := Nat.mul_pos (Nat.pow_pos (by omega)) (by positivity)
    simpa [reaches, hp.ne'] using this.ne'
  rw [lutCount, List.filter_eq_nil_iff.mpr none_reached, List.length_nil]

@[simp] theorem scaleByte_zero (b : F32) : scaleByte b 0#8 = 0#8 := by
  have : rndUnits 0 = 0 := by decide
  simp [scaleByte, this, clampByte]

/-- shape(+0.0) = 0 under every legal GAMMA (40_gamma_lut.md R125, 41_color_state.md R144). -/
theorem shape_zero {g : F32} (h : gammaLegal g = true) (b : F32) : shape (buildLut g) b f32Zero = 0#8 := by
  have hindex : shapeIndex f32Zero = 0 := by decide
  have hentry : lutLookup (buildLut g) 0 = 0#8 := by
    rw [← BitVec.toNat_inj, lutLookup_buildLut g (by norm_num), lutCount_zero (gammaRatio_pos h)]
    rfl
  rw [shape, hindex, hentry, scaleByte_zero]

/-! ## The invariant after a reshape and after a clear -/

section
variable {p : Params} {c : ColorState} (hwf : c.mem.wf p.n = true) (hlut : c.mem.lut = buildLut c.gamma)
  (hgamma : gammaLegal c.gamma = true) (hbright : unitLegal c.bright = true) (halpha : unitLegal c.alpha = true)
include hwf hlut hgamma hbright halpha

theorem colorInv_reshape : ColorInv p (reshape c) :=
  ⟨reshape_wf hwf, hlut, hgamma, hbright, halpha, rfl⟩

theorem colorInv_clearColor : ColorInv p (clearColor p.n c) := by
  refine ⟨clearColor_wf hwf, hlut, hgamma, hbright, halpha, ?_⟩
  have hzero := shape_zero hgamma c.bright
  rw [← hlut] at hzero
  simp [clearColor, hzero]

end

/-! ## The sections -/

/-- The mutation of `applySmoothing(new)` for an input of any length (41_color_state.md R143). -/
def smoothFitting (n : ℕ) (new : List F32) (c : ColorState) : ColorState :=
  bif new.length == 3 * n then smoothAll new c else c

theorem smoothFitting_cases (n : ℕ) (new : List F32) (c : ColorState) :
    (new.length = 3 * n ∧ smoothFitting n new c = smoothAll new c) ∨ smoothFitting n new c = c := by
  unfold smoothFitting
  cases h : new.length == 3 * n with
  | true => exact .inl ⟨by simpa using h, rfl⟩
  | false => exact .inr rfl

/-- Color State after the section of command i (`exec_proceeds` says that it is). -/
def sectionColor (n : ℕ) (i : Instr) (c : ColorState) : ColorState :=
  match i with
  | .color r g b => reshape (smoothFitting n (repeatColor n (f32OfInt r) (f32OfInt g) (f32OfInt b)) c)
  | .pix idx r g b => reshape (setPixel n idx r g b c)
  | .bright b => reshape (setBrightness b c)
  | .gamma g => reshape (setGamma g c)
  | .smooth a => setSmoothingAlpha a c
  | .showStrip => reshape c
  | .clear => clearColor n c
  | .status => c
  | .frame px => reshape (smoothFitting n (frameInput px) c)

theorem rebuiltLut_wf {n : ℕ} {m : Memory} (g : F32) (h : m.wf n = true) :
    Memory.wf n { m with lut := buildLut g } = true := by
  obtain ⟨-, ht, ho⟩ := (memory_wf_iff n m).mp h
  exact (memory_wf_iff ..).mpr ⟨buildLut_length g, ht, ho⟩

theorem smoothFitting_wf {n : ℕ} {c : ColorState} (new : List F32) (h : c.mem.wf n = true) :
    (smoothFitting n new c).mem.wf n = true := by
  rcases smoothFitting_cases n new c with ⟨hnew, heq⟩ | heq <;> rw [heq]
  · exact smoothAll_wf hnew h
  · exact h

/-- No command changes the length of a space (10_state.md R33). -/
theorem sectionColor_wf {n : ℕ} {c : ColorState} (i : Instr) (h : c.mem.wf n = true) :
    (sectionColor n i c).mem.wf n = true := by
  cases i with
  | color r g b => exact reshape_wf (smoothFitting_wf _ h)
  | pix idx r g b => exact reshape_wf (setPixel_wf idx r g b h)
  | bright b => exact reshape_wf (setBrightness_wf b h)
  | gamma g => exact reshape_wf (setGamma_wf g h)
  | smooth a => exact setSmoothingAlpha_wf a h
  | showStrip => exact reshape_wf h
  | clear => exact clearColor_wf h
  | status => exact h
  | frame px => exact reshape_wf (smoothFitting_wf _ h)

theorem ColorInv.reshape {p : Params} {c : ColorState} (h : ColorInv p c) : ColorInv p (Machine.reshape c) :=
  colorInv_reshape h.mem_wf h.lut_built h.gamma_legal h.bright_legal h.alpha_legal

theorem ColorInv.reshape_smoothFitting {p : Params} {c : ColorState} (h : ColorInv p c) (new : List F32) :
    ColorInv p (Machine.reshape (smoothFitting p.n new c)) := by
  rcases smoothFitting_cases p.n new c with ⟨hnew, heq⟩ | heq <;> rw [heq]
  · exact colorInv_reshape (smoothAll_wf hnew h.mem_wf) h.lut_built h.gamma_legal h.bright_legal h.alpha_legal
  · exact h.reshape

theorem setPixel_eq_withTargets (n : ℕ) (i r g b : ℤ) (c : ColorState) :
    ∃ t, setPixel n i r g b c = { c with mem := { c.mem with t := t } } := by
  unfold setPixel
  cases decide (0 ≤ i) && decide (i < n) with
  | true => exact ⟨_, rfl⟩
  | false => exact ⟨_, rfl⟩

theorem ColorInv.reshape_setPixel {p : Params} {c : ColorState} (h : ColorInv p c) (i r g b : ℤ) :
    ColorInv p (Machine.reshape (setPixel p.n i r g b c)) := by
  have hwf := setPixel_wf i r g b h.mem_wf
  obtain ⟨t, heq⟩ := setPixel_eq_withTargets p.n i r g b c
  rw [heq] at hwf ⊢
  exact colorInv_reshape hwf h.lut_built h.gamma_legal h.bright_legal h.alpha_legal

theorem ColorInv.setBrightness {p : Params} {c : ColorState} (h : ColorInv p c) {b : F32} (hb : f32Finite b = true) :
    ColorInv p (Machine.setBrightness b c) :=
  colorInv_reshape (c := { c with bright := clampUnit b }) h.mem_wf h.lut_built h.gamma_legal (clampUnit_legal hb)
    h.alpha_legal

theorem ColorInv.setGamma {p : Params} {c : ColorState} (h : ColorInv p c) {g : F32} (hg : f32Finite g = true) :
    ColorInv p (Machine.setGamma g c) := by
  unfold Machine.setGamma
  cases hr : gammaRefused g with
  | true => exact h
  | false =>
    exact colorInv_reshape (c := { c with gamma := g, mem := { c.mem with lut := buildLut g } })
      (rebuiltLut_wf g h.mem_wf) rfl (gammaLegal_of_not_refused hg hr) h.bright_legal h.alpha_legal

theorem ColorInv.setSmoothingAlpha {p : Params} {c : ColorState} (h : ColorInv p c) {a : F32} (ha : f32Finite a = true) :
    ColorInv p (Machine.setSmoothingAlpha a c) :=
  ⟨h.mem_wf, h.lut_built, h.gamma_legal, h.bright_legal, clampUnit_legal ha, h.output_shaped⟩

theorem ColorInv.clearColor {p : Params} {c : ColorState} (h : ColorInv p c) : ColorInv p (Machine.clearColor p.n c) :=
  colorInv_clearColor h.mem_wf h.lut_built h.gamma_legal h.bright_legal h.alpha_legal

/-- A well-formed command keeps the invariant of Color State (10_state.md R32). -/
theorem ColorInv.sectionColor {p : Params} {c : ColorState} (h : ColorInv p c) {i : Instr} (hi : i.wf = true) :
    ColorInv p (Machine.sectionColor p.n i c) := by
  cases i with
  | color r g b => exact h.reshape_smoothFitting _
  | pix idx r g b => exact h.reshape_setPixel idx r g b
  | bright b => exact (h.setBrightness hi).reshape
  | gamma g => exact (h.setGamma hi).reshape
  | smooth a => exact h.setSmoothingAlpha hi
  | showStrip => exact h.reshape
  | clear => exact h.clearColor
  | status => exact h
  | frame px => exact h.reshape_smoothFitting _

end Sys2Proof.Machine
end

section
/-! SUPPORT. What one step can do, said once (`stepAction_result`): the reset input, the boot, the shutdown request, the stop, a
transfer of BUS, and every other step, which leaves MODE and BUSLOG alone, only extends EVLOG, and changes Color State by the
section of at most one well-formed command. -/

namespace Sys2Proof.Machine

/-! ## Steps that leave MODE and BUSLOG alone -/

/-- t is s some way on, with Color State c: the parameters, MODE and BUSLOG are those of s, and EVLOG extends that of s. -/
structure Proceeds (c : ColorState) (s t : State) : Prop where
  params : t.params = s.params
  mode : t.mode = s.mode
  color : t.color = c
  buslog : t.buslog = s.buslog
  evlog : s.evlog <+: t.evlog

theorem Proceeds.refl (s : State) : Proceeds s.color s s := ⟨rfl, rfl, rfl, rfl, List.prefix_rfl⟩

theorem Proceeds.trans {c d : ColorState} {s t u : State} (h : Proceeds c s t) (h' : Proceeds d t u) : Proceeds d s u :=
  ⟨h'.params.trans h.params, h'.mode.trans h.mode, h'.color, h'.buslog.trans h.buslog, h.evlog.trans h'.evlog⟩

/-- A step that leaves Color State alone too, after one that made it c. -/
theorem Proceeds.then {c : ColorState} {s t u : State} (h : Proceeds c s t) (h' : Proceeds t.color t u) :
    Proceeds c s u := h.color ▸ h.trans h'

/-! ## The shared operations -/

theorem onColor_proceeds (f : ColorState → ColorState) (s : State) : Proceeds (f s.color) s (onColor f s) :=
  ⟨rfl, rfl, rfl, rfl, List.prefix_rfl⟩

theorem emit_proceeds (code : EventCode) (a : Agent) (info : EventInfo) (s : State) :
    Proceeds s.color s (emit code a info s) := ⟨rfl, rfl, rfl, rfl, List.prefix_append ..⟩

theorem updateChannel_proceeds (k : ℕ) (f : Channel → Channel) (s : State) : Proceeds s.color s (updateChannel k f s) :=
  ⟨rfl, rfl, rfl, rfl, List.prefix_rfl⟩

theorem withChannels_proceeds (cs : List Channel) (s : State) : Proceeds s.color s (s.withChannels cs) :=
  ⟨rfl, rfl, rfl, rfl, List.prefix_rfl⟩

theorem withLock_proceeds (l : Lock) (s : State) : Proceeds s.color s (s.withLock l) :=
  ⟨rfl, rfl, rfl, rfl, List.prefix_rfl⟩

theorem withBus_proceeds (b : Bus) (s : State) : Proceeds s.color s (s.withBus b) :=
  ⟨rfl, rfl, rfl, rfl, List.prefix_rfl⟩

theorem withFs_proceeds (f : FrameSeq) (s : State) : Proceeds s.color s (s.withFs f) :=
  ⟨rfl, rfl, rfl, rfl, List.prefix_rfl⟩

theorem withActor_proceeds (a : Agent) (s : State) : Proceeds s.color s (s.withActor a) :=
  ⟨rfl, rfl, rfl, rfl, List.prefix_rfl⟩

theorem setJob_proceeds (a : Agent) (j : Job) (s : State) : Proceeds s.color s (setJob a j s) := by
  obtain ⟨hparams, hmode, hcolor, -, -, hevlog, hbuslog, -⟩ := setJob_frame a j s
  exact ⟨hparams, hmode, hcolor, hbuslog, hevlog ▸ List.prefix_rfl⟩

theorem completeJob_proceeds (a : Agent) (s : State) : Proceeds s.color s (completeJob a s) := by
  obtain ⟨hparams, hmode, hcolor, -, -, hevlog, hbuslog, -⟩ := completeJob_frame a s
  exact ⟨hparams, hmode, hcolor, hbuslog, hevlog ▸ List.prefix_rfl⟩

theorem requestTransfer_proceeds (a : Agent) (bytes : List Byte) (s : State) :
    Proceeds s.color s (requestTransfer a bytes s) := (withBus_proceeds ..).then (setJob_proceeds ..)

theorem endSection_proceeds (a : Agent) (s : State) : Proceeds s.color s (endSection a s) := by
  unfold endSection
  cases s.params.busOrder with
  | inLock => exact (withLock_proceeds ..).then (requestTransfer_proceeds ..)
  | snapshot => exact setJob_proceeds ..

theorem acquireBusLock_proceeds (a : Agent) (bytes : List Byte) (s : State) :
    Proceeds s.color s (acquireBusLock a bytes s) := by
  rcases acquireBusLock_cases a bytes s with ⟨-, -, heq⟩ | heq <;> rw [heq]
  · exact (withBus_proceeds ..).then (requestTransfer_proceeds ..)
  · exact .refl s

theorem releaseLock_proceeds (s : State) : Proceeds s.color s (releaseLock s) := by
  rcases releaseLock_cases s with ⟨-, heq⟩ | ⟨-, heq⟩ <;> rw [heq]
  · exact withLock_proceeds ..
  · exact withBus_proceeds ..

theorem finishTransfer_proceeds (a : Agent) (s : State) : Proceeds s.color s (finishTransfer a s) := by
  rcases finishTransfer_cases a s with ⟨-, heq⟩ | heq <;> rw [heq]
  · exact (releaseLock_proceeds s).then (completeJob_proceeds ..)
  · exact .refl s

theorem applySmoothing_proceeds (a : Agent) (new : List F32) (s : State) :
    Proceeds (smoothFitting s.params.n new s.color) s (applySmoothing a new s) := by
  unfold smoothFitting applySmoothing
  cases new.length == 3 * s.params.n with
  | true => exact onColor_proceeds ..
  | false => exact emit_proceeds ..

/-! ## The commands -/

theorem runTransferring_proceeds {a : Agent} {body : State → State} {c : ColorState} {s t : State}
    (hbody : Proceeds c s (body s)) (h : runTransferring a body s = .next t) : Proceeds s.color s t ∨ Proceeds c s t := by
  rcases runTransferring_cases a body s with ⟨-, heq⟩ | ⟨-, heq⟩ <;> cases heq.symm.trans h
  · exact .inr (hbody.then (endSection_proceeds ..))
  · exact .inl (.refl s)

theorem runPlain_proceeds {a : Agent} {body : State → State} {c : ColorState} {s t : State}
    (hbody : Proceeds c s (body s)) (h : runPlain a body s = .next t) : Proceeds s.color s t ∨ Proceeds c s t := by
  rcases runPlain_cases a body s with ⟨-, heq⟩ | ⟨-, heq⟩ <;> cases heq.symm.trans h
  · exact .inr (hbody.then (completeJob_proceeds ..))
  · exact .inl (.refl s)

/-- A section that smooths towards a new frame and reshapes: COLOR and FRAME. -/
theorem smoothingSection_proceeds (a : Agent) (new : List F32) (s : State) :
    Proceeds (reshape (smoothFitting s.params.n new s.color)) s (onColor reshape (applySmoothing a new s)) := by
  have h := applySmoothing_proceeds a new s
  exact h.color ▸ h.trans (onColor_proceeds reshape _)

/-- A command waits, or runs its section, which makes Color State `sectionColor` of it. -/
theorem exec_proceeds {i : Instr} {s t : State} (h : exec i s = .next t) :
    Proceeds s.color s t ∨ Proceeds (sectionColor s.params.n i s.color) s t := by
  cases i with
  | color r g b => exact runTransferring_proceeds (body := colorSection r g b) (smoothingSection_proceeds s.actor _ s) h
  | pix idx r g b => exact runTransferring_proceeds (onColor_proceeds ..) h
  | bright b => exact runTransferring_proceeds (onColor_proceeds ..) h
  | gamma g =>
    simp only [exec, execGamma] at h
    cases hg : f32Finite g with
    | true => exact runTransferring_proceeds (body := gammaSection g) (onColor_proceeds ..) (by simpa [hg] using h)
    | false => simp [hg] at h
  | smooth a => exact runPlain_proceeds (onColor_proceeds ..) h
  | showStrip => exact runTransferring_proceeds (onColor_proceeds ..) h
  | clear => exact runTransferring_proceeds (onColor_proceeds ..) h
  | status => exact runPlain_proceeds (emit_proceeds ..) h
  | frame px => exact runTransferring_proceeds (body := frameSection px) (smoothingSection_proceeds .fs _ s) h

/-! ## The agents -/

/-- s goes on to t with Color State as it was, or as the section of a command leaves it that is well-formed whenever the
waiting commands of s are. -/
def Advances (s t : State) : Prop :=
  Proceeds s.color s t ∨
    ∃ i : Instr, (CommandInv s → i.wf = true) ∧ Proceeds (sectionColor s.params.n i s.color) s t

/-- A command that runs after bookkeeping of its agent. -/
theorem exec_advances {i : Instr} {s s' t : State} (hs : Proceeds s.color s s') (hi : CommandInv s → i.wf = true)
    (h : exec i s' = .next t) : Advances s t := by
  have hexec := exec_proceeds h
  rw [hs.params, hs.color] at hexec
  exact hexec.imp hs.trans fun hsection => ⟨i, hi, hs.trans hsection⟩

theorem wf_of_jobCarries {fromPort : Bool} {i : Instr} (h : jobCarries fromPort (.waitLock i) = true) :
    i.wf = true := by
  simp only [jobCarries, Bool.and_eq_true] at h
  exact h.1

theorem jobStep_advances {fromPort : Bool} {a : Agent} {j : Job} {s t : State}
    (hj : CommandInv s → jobCarries fromPort j = true) (h : jobStep a j s = .next t) : Advances s t := by
  cases j with
  | idle => cases h; exact .inl (.refl s)
  | waitLock i => exact exec_advances (withActor_proceeds a s) (fun hc => wf_of_jobCarries (hj hc)) h
  | waitBus bytes => cases h; exact .inl (acquireBusLock_proceeds ..)
  | transfer => cases h; exact .inl (finishTransfer_proceeds ..)

theorem takeLine_proceeds (k : ℕ) (fate : LineFate) (s : State) : Proceeds s.color s (takeLine k fate s) := by
  have removed := updateChannel_proceeds k removeLine s
  cases fate with
  | tail => exact removed
  | overlong => exact removed.then (emit_proceeds ..)
  | dropped d => exact removed.then (emit_proceeds ..)
  | command i => exact removed.then (setJob_proceeds (.ch k) (.waitLock i) _)

theorem runLine_advances {k : ℕ} {p : Params} {c : Channel} {s t : State}
    (h : runLine k (lineFate p c) s = .next t) : Advances s t := by
  cases hfate : lineFate p c with
  | command i =>
    rw [hfate] at h
    have hi : i.wf = true := decodeLine_wf (lineFate_command hfate).1
    exact exec_advances ((takeLine_proceeds ..).then (withActor_proceeds ..)) (fun _ => hi) h
  | tail | overlong | dropped d =>
    rw [hfate] at h
    cases h
    exact .inl (takeLine_proceeds ..)

theorem idleChannelStep_advances {k : ℕ} {c : Channel} {s t : State} (h : idleChannelStep k c s = .next t) :
    Advances s t := by
  unfold idleChannelStep at h
  cases hline : canTakeLine s c with
  | true => exact runLine_advances (by simpa [hline] using h)
  | false =>
    cases hremove : canRemove c <;> simp only [hline, hremove, cond_true, cond_false] at h <;> cases h
    · exact .inl (.refl s)
    · exact .inl (withChannels_proceeds ..)

theorem chStep_advances {k : ℕ} {s t : State} (h : chStep k s = .next t) : Advances s t := by
  unfold chStep at h
  cases hfind : findChannel k s with
  | none => simp only [hfind] at h; cases h; exact .inl (.refl s)
  | some c =>
    have carried : CommandInv s → jobCarries false c.job = true := fun hc => hc.channel_jobs c (findChannel_mem hfind)
    simp only [hfind] at h
    split at h
    · exact idleChannelStep_advances h
    · exact jobStep_advances carried h

theorem chStart_proceeds (k : ℕ) (s : State) : Proceeds s.color s (chStart k s) := by
  unfold chStart
  cases findChannel k s with
  | none => exact .refl s
  | some c =>
    dsimp only
    cases c.job == .idle && canTakeLine s c with
    | true => exact takeLine_proceeds ..
    | false => exact .refl s

theorem fsStep_advances {px : List Pixel} {s t : State} (h : fsStep px s = .next t) : Advances s t := by
  unfold fsStep at h
  cases hfs : s.fs.state with
  | req =>
    cases hrun : s.mode == .run <;> simp only [hfs, hrun, cond_true, cond_false] at h
    · cases h; exact .inl (.refl s)
    · exact exec_advances ((setJob_proceeds ..).then (withActor_proceeds ..)) (fun _ => rfl) h
  | waitBus => exact jobStep_advances CommandInv.frame_job (by simpa [hfs] using h)
  | sleep =>
    cases hwake : s.mode == .run && s.fs.timer == 0 <;> simp only [hfs, hwake, cond_true, cond_false] at h <;> cases h
    · exact .inl (.refl s)
    · exact .inl (withFs_proceeds ..)
  | halt => simp only [hfs] at h; cases h; exact .inl (.refl s)

theorem fsStart_proceeds (px : List Pixel) (s : State) : Proceeds s.color s (fsStart px s) := by
  unfold fsStart
  cases s.fs.state with
  | req =>
    dsimp only
    cases s.mode == .run with
    | true => exact setJob_proceeds .fs (.waitLock (.frame px)) s
    | false => exact .refl s
  | waitBus | sleep | halt => exact .refl s

/-! ## The host inputs, and time -/

theorem openChannel_proceeds (k : ℕ) (s : State) : Proceeds s.color s (openChannel k s) := by
  rcases openChannel_cases k s with ⟨-, -, -, heq⟩ | heq <;> rw [heq]
  · exact withChannels_proceeds ..
  · exact .refl s

theorem receive_proceeds (k : ℕ) (bytes : List Byte) (s : State) : Proceeds s.color s (receive k bytes s) := by
  rcases receive_cases k bytes s with ⟨_, -, -, -, heq⟩ | ⟨_, -, -, -, heq⟩ | heq <;> rw [heq]
  · exact (updateChannel_proceeds ..).then (emit_proceeds ..)
  · exact updateChannel_proceeds ..
  · exact .refl s

theorem elapse_proceeds (d : ℕ) (s : State) : Proceeds s.color s (elapse d s) :=
  (withBus_proceeds ..).then (withFs_proceeds ..)

/-- The final clear is the section of a CLEAR (70_reset_and_hazards.md R324). -/
theorem finalClear_proceeds (s : State) : Proceeds (sectionColor s.params.n .clear s.color) s (finalClear s) :=
  ((withLock_proceeds (.held .sys) s).trans (onColor_proceeds (clearColor s.params.n) _)).then
    (requestTransfer_proceeds .sys _ _)

/-! ## The step -/

/-- What action a makes of s when the step goes on. -/
inductive ActionResult (a : Action) (s : State) : State → Prop
  /-- The reset input. -/
  | reset (input : a = .reset) : ActionResult a s (resetBlock s)
  /-- The boot, the device open. -/
  | booted (mode : s.mode = .init) (boots : a = .sys .ok) :
      ActionResult a s (((bootColor s).withDevice (some (openedDevice s.params))).withMode .run)
  /-- The boot, the device open failed. -/
  | openFailed (mode : s.mode = .init) (boots : a = .sys .fail) : ActionResult a s (failOpen (bootColor s))
  /-- SHUTDOWN_REQ in RUN. -/
  | shutdown (mode : s.mode = .run) (input : a = .shutdownReq) : ActionResult a s (shutdownRequest s)
  /-- SYS after its final transfer. -/
  | stopped (mode : s.mode = .shutdown) (acts : ∃ r, a = .sys r) (job : s.sysJob = .transfer)
      (released : s.bus.client ≠ some .sys) : ActionResult a s (stopBlock s)
  /-- A transfer step of BUS. -/
  | transferred (res : XferResult) (acts : a = .bus res) (bus : s.bus.state = .xfer) : ActionResult a s (xferStep res s)
  /-- Every other step. -/
  | advanced (t : State) (steps : Advances s t) : ActionResult a s t

theorem ActionResult.proceeds {a : Action} {s t : State} (h : Proceeds s.color s t) : ActionResult a s t :=
  .advanced t (.inl h)

theorem sysStep_result (r : DevOpen) (s : State) : ActionResult (.sys r) s (sysStep s) := by
  unfold sysStep
  cases hmode : s.mode with
  | shutdown =>
    rcases shutdownStep_cases s with ⟨-, -, heq⟩ | ⟨hjob, hclient, heq⟩ | heq <;> simp only [heq]
    · exact .advanced _ (.inr ⟨.clear, fun _ => rfl, finalClear_proceeds s⟩)
    · exact .stopped hmode ⟨r, rfl⟩ hjob hclient
    · exact .proceeds (.refl s)
  | init | run | failed | stopped => exact .proceeds (.refl s)

theorem busStep_result (res : XferResult) (s : State) : ActionResult (.bus res) s (busStep res s) := by
  rcases busStep_cases res s with ⟨hbus, -, heq⟩ | ⟨-, -, heq⟩ | heq <;> rw [heq]
  · exact .transferred res rfl hbus
  · exact .proceeds (withBus_proceeds ..)
  · exact .proceeds (.refl s)

theorem shutdownRequest_result (s : State) : ActionResult .shutdownReq s (shutdownRequest s) := by
  cases hrun : s.mode == .run with
  | true => exact .shutdown (by simpa using hrun) rfl
  | false =>
    simp only [shutdownRequest, hrun, cond_false]
    exact .proceeds (.refl s)

/-- An action in RUN and SHUTDOWN. -/
theorem act_result {a : Action} {s t : State} (h : act a s = .next t) : ActionResult a s t := by
  cases a with
  | sys r => cases h; exact sysStep_result r s
  | bus res => cases h; exact busStep_result res s
  | ch k => exact .advanced t (chStep_advances h)
  | chStart k => cases h; exact .proceeds (chStart_proceeds ..)
  | fs px => exact .advanced t (fsStep_advances h)
  | fsStart px => cases h; exact .proceeds (fsStart_proceeds ..)
  | openCh k => cases h; exact .proceeds (openChannel_proceeds ..)
  | closeCh k => cases h; exact .proceeds (updateChannel_proceeds ..)
  | recv k bytes => cases h; exact .proceeds (receive_proceeds ..)
  | shutdownReq => cases h; exact shutdownRequest_result s
  | reset => cases h; exact .reset rfl
  | tick d => cases h; exact .proceeds (elapse_proceeds ..)

theorem actInit_result {a : Action} {s t : State} (hmode : s.mode = .init) (h : actInit a s = .next t) :
    ActionResult a s t := by
  unfold actInit at h
  split at h
  next r =>
    rcases boot_cases r s with ⟨-, rfl, heq⟩ | ⟨-, rfl, heq⟩ | ⟨-, heq⟩ <;> cases heq.symm.trans h
    · exact .booted hmode rfl
    · exact .openFailed hmode rfl
  next => cases h; exact .reset rfl
  next => cases h; exact .proceeds (.refl s)

theorem actFailed_result {a : Action} {s t : State} (h : actFailed a s = .next t) : ActionResult a s t := by
  unfold actFailed at h
  split at h
  next => cases h; exact .reset rfl
  next => cases h

theorem actStopped_result {a : Action} {s t : State} (h : actStopped a s = .next t) : ActionResult a s t := by
  unfold actStopped at h
  split at h
  next => cases h; exact .reset rfl
  next => cases h; exact .proceeds (.refl s)

/-- An action in any mode. -/
theorem stepAction_result {a : Action} {s t : State} (h : stepAction a s = .next t) : ActionResult a s t := by
  unfold stepAction at h
  cases hmode : s.mode <;> simp only [hmode] at h
  case init => exact actInit_result hmode h
  case run => exact act_result h
  case failed => exact actFailed_result h
  case shutdown => exact act_result h
  case stopped => exact actStopped_result h

/-- The environment's choice leaves the waiting commands and the parameters alone. -/
theorem CommandInv.consume {s : State} (h : CommandInv s) : CommandInv (consume s) :=
  ⟨by simpa using h.params_legal, by simpa using h.channel_jobs, by simpa using h.frame_job⟩

theorem stepAction_reset (s : State) : stepAction .reset s = .next (resetBlock s) := by
  unfold stepAction
  cases s.mode <;> rfl

end Sys2Proof.Machine
end

section
/-! SUPPORT. The statements on MODE, the logs, the lengths and the invariant of Color State (10_state.md), each read off what one
step can do (`stepAction_result`); and the state after reset. -/

namespace Sys2Proof.Machine

/-! ## The state after reset (10_state.md R42) -/

theorem initsLegal_of_paramsLegal {p : Params} (h : paramsLegal p = true) :
    gammaLegal p.gammaInit = true ∧ unitLegal p.brightInit = true ∧ unitLegal p.alphaInit = true := by
  simp only [paramsLegal, Bool.and_eq_true] at h
  obtain ⟨⟨⟨⟨⟨⟨⟨⟨⟨-, hgamma⟩, hbright⟩, halpha⟩, -⟩, -⟩, -⟩, -⟩, -⟩, -⟩ := h
  exact ⟨hgamma, hbright, halpha⟩

theorem resetWith_commandInv {p : Params} (h : paramsLegal p = true) : CommandInv (State.resetWith p) :=
  ⟨h, nofun, rfl⟩

/-- Reset leaves a cleared Color State. -/
theorem resetWith_colorInv {p : Params} (h : paramsLegal p = true) : ColorInv p (State.resetWith p).color := by
  obtain ⟨hgamma, hbright, halpha⟩ := initsLegal_of_paramsLegal h
  exact colorInv_clearColor (c := (State.resetWith p).color) (resetWith_wf p) rfl hgamma hbright halpha

theorem resetWith_jobOf (p : Params) (a : Agent) : jobOf a (State.resetWith p) = .idle := by
  cases a <;> rfl

theorem resetWith_transferHolder (p : Params) : transferHolder (State.resetWith p) = none := by
  simp only [transferHolder]
  split <;> rfl

theorem resetWith_lockInv (p : Params) : LockInv (State.resetWith p) where
  ids_rising := rfl
  holder_transfers a := by simp [resetWith_jobOf, resetWith_transferHolder]
  idle_no_client _ := rfl
  busy_for_holder h := absurd rfl h
  in_lock _ := ⟨rfl, by simp [resetWith_jobOf]⟩
  by_snapshot _ := ⟨nofun, .inl rfl⟩
  final_transfer h := absurd rfl h
  busy_iff_job := nofun
  wait_iff_job := ⟨nofun, fun h => absurd rfl h⟩

theorem resetWith_targetsFinite (p : Params) : TargetsFinite (State.resetWith p).color.mem := by
  intro t ht
  rw [List.eq_of_mem_replicate ht]
  decide

theorem resetWith_transferInv (p : Params) : TransferInv (State.resetWith p) where
  frame_length h := absurd rfl h
  channel_snapshots := nofun
  fs_snapshot := rfl
  records_legal := nofun

/-- Settles O57: each invariant of the state after reset by its lemma. -/
theorem resetMeetsTheInvariants : Obligations.ResetMeetsTheInvariants := by
  refine ⟨fun p hp => ?_, by decide, rfl⟩
  exact ⟨resetWith_commandInv hp, resetWith_colorInv hp, resetWith_lockInv p, resetWith_targetsFinite p,
    resetWith_transferInv p, rfl, rfl, rfl⟩

theorem step_reset {s : State} (h : nextAction s = .reset) : step s = .next (resetBlock (consume s)) := by
  rw [step, h, stepAction_reset]

/-- Settles O49: the reset input is carried out in every mode (`stepAction_reset`). -/
theorem resetSetsEveryState : Obligations.ResetSetsEveryState := by
  intro s h
  refine ⟨_, step_reset h, ?_⟩
  simp [resetBlock, State.resetWith, f32Zero]

/-! ## What the mode changes and a transfer write -/

theorem emitXferEvent_proceeds (res : XferResult) (s : State) : Proceeds s.color s (emitXferEvent res s) := by
  rcases emitXferEvent_cases res s with heq | ⟨e, -, heq⟩ <;> rw [heq]
  · exact .refl s
  · exact ⟨rfl, rfl, rfl, rfl, List.prefix_append ..⟩

/-- After its record in BUSLOG, a transfer writes EVLOG and the bus only (42_bus_writer.md R182). -/
theorem xferStep_proceeds (res : XferResult) (s : State) :
    Proceeds s.color (s.withBuslog (s.buslog ++ [{ bytes := s.bus.frame, result := res }])) (xferStep res s) := by
  have hevent := emitXferEvent_proceeds res (s.withBuslog (s.buslog ++ [{ bytes := s.bus.frame, result := res }]))
  exact hevent.then (withBus_proceeds { s.bus with state := .latch, latchLeft := s.params.tLatch } _)

theorem shutdownRequest_of_run {s : State} (h : s.mode = .run) :
    shutdownRequest s = ((s.withMode .shutdown).withFs (haltFs s.fs)).withChannels (s.channels.map discardLines) := by
  simp [shutdownRequest, h]

theorem bootColor_color (s : State) :
    (bootColor s).color =
      clearColor s.params.n { s.color with mem := { s.color.mem with lut := buildLut s.color.gamma } } := rfl

theorem bootColor_wf {s : State} (h : s.color.mem.wf s.params.n = true) :
    (bootColor s).color.mem.wf s.params.n = true := clearColor_wf (rebuiltLut_wf s.color.gamma h)

theorem bootColor_colorInv {s : State} (h : ColorInv s.params s.color) : ColorInv s.params (bootColor s).color :=
  colorInv_clearColor (c := { s.color with mem := { s.color.mem with lut := buildLut s.color.gamma } })
    (rebuiltLut_wf s.color.gamma h.mem_wf) rfl h.gamma_legal h.bright_legal h.alpha_legal

/-! ## Color State -/

/-- An action keeps the invariant of Color State: the sections and the boot do, and reset establishes it. -/
theorem stepAction_colorInv {a : Action} {s t : State} (hcmd : CommandInv s) (hcolor : ColorInv s.params s.color)
    (h : stepAction a s = .next t) : ColorInv t.params t.color := by
  cases stepAction_result h with
  | reset input => exact resetWith_colorInv hcmd.params_legal
  | booted mode boots => exact bootColor_colorInv (s := s) hcolor
  | openFailed mode boots => exact bootColor_colorInv (s := s) hcolor
  | shutdown mode input => rw [shutdownRequest_of_run mode]; exact hcolor
  | stopped mode acts job released => exact hcolor
  | transferred res acts bus =>
    have hx := xferStep_proceeds res s
    rw [hx.params, hx.color]
    exact hcolor
  | advanced t steps =>
    rcases steps with hp | ⟨i, hi, hp⟩ <;> rw [hp.params, hp.color]
    · exact hcolor
    · exact hcolor.sectionColor (hi hcmd)

/-- Settles O53, action by action (`stepAction_colorInv`). -/
theorem stepKeepsColorInv : Obligations.StepKeepsColorInv := by
  intro s t hcmd hcolor h
  exact stepAction_colorInv hcmd.consume (by simpa using hcolor) h

theorem stepAction_lengths {a : Action} {s t : State} (h : stepAction a s = .next t) :
    t.params = s.params ∧ (s.color.mem.wf s.params.n = true → t.color.mem.wf t.params.n = true) := by
  cases stepAction_result h with
  | reset input => exact ⟨rfl, fun _ => resetWith_wf s.params⟩
  | booted mode boots => exact ⟨rfl, bootColor_wf⟩
  | openFailed mode boots => exact ⟨rfl, bootColor_wf⟩
  | shutdown mode input => rw [shutdownRequest_of_run mode]; exact ⟨rfl, id⟩
  | stopped mode acts job released => exact ⟨rfl, id⟩
  | transferred res acts bus =>
    have hx := xferStep_proceeds res s
    rw [hx.params, hx.color]
    exact ⟨rfl, id⟩
  | advanced t steps =>
    rcases steps with hp | ⟨i, -, hp⟩ <;> rw [hp.params, hp.color]
    · exact ⟨rfl, id⟩
    · exact ⟨rfl, sectionColor_wf i⟩

/-- Settles O47, action by action (`stepAction_lengths`). -/
theorem lengthsNeverChange : Obligations.LengthsNeverChange := by
  intro s t h
  simpa using stepAction_lengths h

/-! ## MODE and the logs -/

/-- Settles O45: MODE changes only in the first five cases of `stepAction_result`. -/
theorem modeTransitions : Obligations.ModeTransitions := by
  intro s t h
  cases stepAction_result h with
  | reset input => simp [input, resetBlock, State.resetWith]
  | booted mode boots =>
    rw [consume_mode] at mode
    simp [boots, mode]
  | openFailed mode boots =>
    rw [consume_mode] at mode
    simp [boots, mode, failOpen]
  | shutdown mode input =>
    rw [shutdownRequest_of_run mode]
    rw [consume_mode] at mode
    simp [input, mode]
  | stopped mode acts job released =>
    rw [consume_mode] at mode
    rw [consume_sysJob] at job
    rw [consume_bus] at released
    simp [stopBlock, mode, acts, job, released]
  | transferred res acts bus => exact .inl ((xferStep_proceeds res _).mode.trans (consume_mode s))
  | advanced t steps =>
    rcases steps with hp | ⟨i, -, hp⟩ <;> exact .inl (hp.mode.trans (consume_mode s))

theorem stepAction_logs {a : Action} {s t : State} (h : stepAction a s = .next t) (ha : a ≠ .reset) :
    s.evlog <+: t.evlog ∧
      (t.buslog = s.buslog ∨ ∃ res, a = .bus res ∧ s.bus.state = .xfer ∧
        t.buslog = s.buslog ++ [{ bytes := s.bus.frame, result := res }]) := by
  cases stepAction_result h with
  | reset input => exact absurd input ha
  | booted mode boots => exact ⟨List.prefix_rfl, .inl rfl⟩
  | openFailed mode boots => exact ⟨List.prefix_append .., .inl rfl⟩
  | shutdown mode input => rw [shutdownRequest_of_run mode]; exact ⟨List.prefix_rfl, .inl rfl⟩
  | stopped mode acts job released => exact ⟨List.prefix_rfl, .inl rfl⟩
  | transferred res acts bus =>
    have hx := xferStep_proceeds res s
    exact ⟨hx.evlog, .inr ⟨res, acts, bus, hx.buslog⟩⟩
  | advanced t steps =>
    rcases steps with hp | ⟨i, -, hp⟩ <;> exact ⟨hp.evlog, .inl hp.buslog⟩

/-- Settles O46, action by action (`stepAction_logs`). -/
theorem logsOnlyGrow : Obligations.LogsOnlyGrow := by
  intro s t h ha
  obtain ⟨⟨more, hmore⟩, hbuslog⟩ := stepAction_logs h ha
  exact ⟨⟨more, by simpa using hmore.symm⟩, by simpa using hbuslog⟩

end Sys2Proof.Machine
end

section
/-! SUPPORT. What one step can do, to the state (`stepAction_transition`): the reset input, the boot, the shutdown sequence, the
steps of BUS, time, what the host does to a channel, a command that starts, runs (`exec_result`) or waits, and the two steps of
a transferring command after its section. -/

namespace Sys2Proof.Machine

/-! ## A command that runs -/

/-- The agent that runs command i: FRAME is FS's own (44_frame_port.md R262). -/
def runnerOf (i : Instr) (s : State) : Agent := bif isFrame i then .fs else s.actor

/-- What exec makes of s: the command waits, or its section writes Color State and EVLOG and the command goes on to its transfer
or is complete (43_commands.md R218). -/
inductive ExecResult (i : Instr) (s : State) : State → Prop
  | waits : ExecResult i s s
  | endsSection (c : ColorState) (es : List Event) (begins : mayBeginTransfer s = true) :
      ExecResult i s (endSection (runnerOf i s) ((s.withColor c).withEvlog es))
  | completes (c : ColorState) (es : List Event) (free : s.lock = .free) :
      ExecResult i s (completeJob (runnerOf i s) ((s.withColor c).withEvlog es))

/-- A section writes Color State and EVLOG only. -/
def IsSection (body : State → State) : Prop := ∀ s, ∃ c es, body s = (s.withColor c).withEvlog es

theorem onColor_isSection (f : State → ColorState → ColorState) : IsSection fun s => onColor (f s) s :=
  fun s => ⟨f s s.color, s.evlog, rfl⟩

theorem smoothing_isSection (a : State → Agent) (new : State → List F32) :
    IsSection fun s => onColor reshape (applySmoothing (a s) (new s) s) := by
  intro s
  rcases applySmoothing_cases (a s) (new s) s with ⟨-, heq⟩ | ⟨-, heq⟩ <;> simp only [heq]
  · exact ⟨reshape (smoothAll (new s) s.color), s.evlog, rfl⟩
  · exact ⟨reshape s.color, _, rfl⟩

theorem statusSection_isSection : IsSection statusSection := fun s => ⟨s.color, _, rfl⟩

theorem runTransferring_result {i : Instr} {body : State → State} (hbody : IsSection body) {s t : State}
    (h : runTransferring (runnerOf i s) body s = .next t) : ExecResult i s t := by
  rcases runTransferring_cases (runnerOf i s) body s with ⟨begins, heq⟩ | ⟨-, heq⟩ <;> cases heq.symm.trans h
  · obtain ⟨c, es, heq⟩ := hbody s
    exact heq ▸ .endsSection c es begins
  · exact .waits

theorem runPlain_result {i : Instr} {body : State → State} (hbody : IsSection body) {s t : State}
    (h : runPlain (runnerOf i s) body s = .next t) : ExecResult i s t := by
  rcases runPlain_cases (runnerOf i s) body s with ⟨free, heq⟩ | ⟨-, heq⟩ <;> cases heq.symm.trans h
  · obtain ⟨c, es, heq⟩ := hbody s
    exact heq ▸ .completes c es free
  · exact .waits

theorem exec_result {i : Instr} {s t : State} (h : exec i s = .next t) : ExecResult i s t := by
  cases i with
  | color r g b => exact runTransferring_result (body := colorSection r g b) (smoothing_isSection _ _) h
  | pix idx r g b => exact runTransferring_result (body := pixSection idx r g b) (onColor_isSection _) h
  | bright b => exact runTransferring_result (body := brightSection b) (onColor_isSection _) h
  | gamma g =>
    simp only [exec, execGamma] at h
    cases hg : f32Finite g with
    | true =>
      rw [hg, cond_true] at h
      exact runTransferring_result (i := .gamma g) (body := gammaSection g) (onColor_isSection _) h
    | false => simp [hg] at h
  | smooth a => exact runPlain_result (body := smoothSection a) (onColor_isSection _) h
  | showStrip => exact runTransferring_result (body := showSection) (onColor_isSection _) h
  | clear => exact runTransferring_result (body := clearSection) (onColor_isSection _) h
  | status => exact runPlain_result statusSection_isSection h
  | frame px => exact runTransferring_result (body := frameSection px) (smoothing_isSection _ _) h

/-- FRAME is no line's command (30_encoding.md R98). -/
theorem parseArgs_ne_frame {m : Mnemonic} {args : List (List Byte)} {i : Instr} (h : parseArgs m args = some i) :
    isFrame i = false := by
  cases m <;> simp only [parseArgs, Option.map_eq_some_iff] at h
  case COLOR | PIX => split at h <;> cases h; rfl
  case BRIGHT | GAMMA | SMOOTH => obtain ⟨x, -, rfl⟩ := h; rfl
  case SHOW | CLEAR | STATUS => cases h; rfl

theorem decodeLine_ne_frame {line : List Byte} {i : Instr} (h : decodeLine line = .cmd i) : isFrame i = false := by
  simp only [decodeLine, Bool.cond_eq_ite] at h
  split at h
  · cases h
  · split at h
    · cases h
    · split_ifs at h
      split at h
      · cases h
      next j hj =>
        cases h
        exact parseArgs_ne_frame hj

/-! ## The step -/

/-- Command i of agent a starts in s, which makes it s': a line of a channel (43_commands.md R214), or a frame (44_frame_port.md
R260). -/
inductive CommandStarts (s : State) : Agent → Instr → State → Prop
  | line {k : ℕ} {c : Channel} {i : Instr} (channel : findChannel k s = some c) (idle : c.job = .idle)
      (ready : canTakeLine s c = true) (fate : lineFate s.params c = .command i) :
      CommandStarts s (.ch k) i (takeLine k (.command i) s)
  | frame (px : List Pixel) (mode : s.mode = .run) (request : s.fs.state = .req) :
      CommandStarts s .fs (.frame px) (frameRequested px s)

/-- f leaves a channel's id and its command alone. -/
def KeepsProgress (f : Channel → Channel) : Prop := ∀ c, (f c).id = c.id ∧ (f c).busy = c.busy ∧ (f c).job = c.job

/-- What a step can make of s: `ActionResult` with the steps that leave MODE and BUSLOG alone told apart. -/
inductive Transition (s : State) : State → Prop
  | unchanged : Transition s s
  | reset : Transition s (resetBlock s)
  | booted (mode : s.mode = .init) :
      Transition s (((bootColor s).withDevice (some (openedDevice s.params))).withMode .run)
  | openFailed (mode : s.mode = .init) : Transition s (failOpen (bootColor s))
  | shutdown (mode : s.mode = .run) : Transition s (shutdownRequest s)
  | finalClear (mode : s.mode = .shutdown) (job : s.sysJob = .idle) (quiet : quiescent s = true) :
      Transition s (finalClear s)
  | stopped (mode : s.mode = .shutdown) (job : s.sysJob = .transfer) (released : s.bus.client ≠ some .sys) :
      Transition s (stopBlock s)
  | transferred (res : XferResult) (bus : s.bus.state = .xfer) : Transition s (xferStep res s)
  | latchEnded (bus : s.bus.state = .latch) : Transition s (latchEnd s)
  | elapsed (d : ℕ) : Transition s (elapse d s)
  | opened (k : ℕ) (mode : s.mode = .run) (absent : findChannel k s = none) :
      Transition s (s.withChannels (insertChannel (newChannel k) s.channels))
  | buffered (k : ℕ) (f : Channel → Channel) (es : List Event) (keeps : KeepsProgress f) :
      Transition s ((updateChannel k f s).withEvlog es)
  | removed (k : ℕ) (c : Channel) (channel : findChannel k s = some c) (idle : c.job = .idle) :
      Transition s (removeChannel k s)
  | woke (asleep : s.fs.state = .sleep) : Transition s (s.withFs { s.fs with state := .req })
  | started (a : Agent) (i : Instr) (t : State) (starts : CommandStarts s a i t) : Transition s t
  | ran (a : Agent) (i : Instr) (s' t : State) (starts : CommandStarts s a i s')
      (runs : ExecResult i (s'.withActor a) t) : Transition s t
  | retried (a : Agent) (i : Instr) (t : State) (not_sys : a ≠ .sys) (job : jobOf a s = .waitLock i)
      (runs : ExecResult i (s.withActor a) t) : Transition s t
  | awaitedBus (a : Agent) (bytes : List Byte) (not_sys : a ≠ .sys) (job : jobOf a s = .waitBus bytes) :
      Transition s (acquireBusLock a bytes s)
  | awaitedClient (a : Agent) (not_sys : a ≠ .sys) (job : jobOf a s = .transfer) : Transition s (finishTransfer a s)

theorem jobStep_transition {a : Agent} (not_sys : a ≠ .sys) {s t : State} (h : jobStep a (jobOf a s) s = .next t) :
    Transition s t := by
  cases job : jobOf a s <;> rw [job] at h
  case idle => cases h; exact .unchanged
  case waitLock i => exact .retried a i t not_sys job (exec_result h)
  case waitBus bytes => cases h; exact .awaitedBus a bytes not_sys job
  case transfer => cases h; exact .awaitedClient a not_sys job

theorem removeLine_keepsProgress : KeepsProgress removeLine := fun _ => ⟨rfl, rfl, rfl⟩

theorem appendBytes_keepsProgress (bytes : List Byte) : KeepsProgress (appendBytes bytes) := by
  intro c
  unfold appendBytes
  cases c.discard && !hasLF c.acc <;> exact ⟨rfl, rfl, rfl⟩

theorem discardLines_keepsProgress : KeepsProgress discardLines := by
  intro c
  unfold discardLines
  cases hasLF c.acc <;> exact ⟨rfl, rfl, rfl⟩

theorem settleLines_keepsProgress (m : Mode) : KeepsProgress (settleLines m) := by
  cases m with
  | shutdown => exact discardLines_keepsProgress
  | init | run | failed | stopped => exact fun _ => ⟨rfl, rfl, rfl⟩

theorem KeepsProgress.comp {f g : Channel → Channel} (hf : KeepsProgress f) (hg : KeepsProgress g) :
    KeepsProgress fun c => f (g c) := by
  intro c
  obtain ⟨hid, hbusy, hjob⟩ := hg c
  obtain ⟨hid', hbusy', hjob'⟩ := hf (g c)
  exact ⟨hid'.trans hid, hbusy'.trans hbusy, hjob'.trans hjob⟩

/-- The change of CH[k] alone. -/
theorem KeepsProgress.onChannel {f : Channel → Channel} (hf : KeepsProgress f) (k : ℕ) :
    KeepsProgress fun c => bif c.id == k then f c else c := by
  intro c
  dsimp only
  cases c.id == k with
  | true => exact hf c
  | false => exact ⟨rfl, rfl, rfl⟩

/-- A line of CH[k], taken: it leaves the buffer with at most an event, or its command starts. -/
theorem takeLine_transition {k : ℕ} {c : Channel} {s : State} (channel : findChannel k s = some c) (idle : c.job = .idle)
    (ready : canTakeLine s c = true) : Transition s (takeLine k (lineFate s.params c) s) := by
  cases hfate : lineFate s.params c with
  | command i => exact .started (.ch k) i _ (.line channel idle ready hfate)
  | tail | overlong | dropped d => exact .buffered k removeLine _ removeLine_keepsProgress

theorem idleChannelStep_transition {k : ℕ} {c : Channel} {s t : State} (channel : findChannel k s = some c)
    (idle : c.job = .idle) (h : idleChannelStep k c s = .next t) : Transition s t := by
  unfold idleChannelStep at h
  cases ready : canTakeLine s c with
  | true =>
    rw [ready, cond_true] at h
    cases hfate : lineFate s.params c <;> rw [hfate] at h
    case command i => exact .ran (.ch k) i _ t (.line channel idle ready hfate) (exec_result h)
    all_goals
      cases h
      exact hfate ▸ takeLine_transition channel idle ready
  | false =>
    cases hremove : canRemove c <;> simp only [ready, hremove, cond_true, cond_false] at h <;> cases h
    · exact .unchanged
    · exact .removed k c channel idle

theorem jobOf_ch {k : ℕ} {c : Channel} {s : State} (h : findChannel k s = some c) : jobOf (.ch k) s = c.job := by
  simp [jobOf, h]

theorem chStep_transition {k : ℕ} {s t : State} (h : chStep k s = .next t) : Transition s t := by
  unfold chStep at h
  cases channel : findChannel k s with
  | none => simp only [channel] at h; cases h; exact .unchanged
  | some c =>
    simp only [channel] at h
    split at h
    next idle => exact idleChannelStep_transition channel idle h
    next => exact jobStep_transition (a := .ch k) nofun (jobOf_ch channel ▸ h)

theorem chStart_transition (k : ℕ) (s : State) : Transition s (chStart k s) := by
  unfold chStart
  cases channel : findChannel k s with
  | none => exact .unchanged
  | some c =>
    dsimp only
    cases hline : c.job == .idle && canTakeLine s c with
    | true =>
      rw [Bool.and_eq_true, beq_iff_eq] at hline
      exact takeLine_transition channel hline.1 hline.2
    | false => exact .unchanged

theorem fsStep_transition {px : List Pixel} {s t : State} (h : fsStep px s = .next t) : Transition s t := by
  unfold fsStep at h
  cases hfs : s.fs.state with
  | req =>
    cases hrun : s.mode == .run <;> simp only [hfs, hrun, cond_true, cond_false] at h
    · cases h; exact .unchanged
    · exact .ran .fs (.frame px) _ t (.frame px (by simpa using hrun) hfs) (exec_result h)
  | waitBus =>
    simp only [hfs] at h
    exact jobStep_transition (a := .fs) nofun h
  | sleep =>
    cases hwake : s.mode == .run && s.fs.timer == 0 <;> simp only [hfs, hwake, cond_true, cond_false] at h <;> cases h
    · exact .unchanged
    · exact .woke hfs
  | halt => simp only [hfs] at h; cases h; exact .unchanged

theorem fsStart_transition (px : List Pixel) (s : State) : Transition s (fsStart px s) := by
  unfold fsStart
  cases hfs : s.fs.state with
  | req =>
    dsimp only
    cases hrun : s.mode == .run with
    | true => exact .started .fs (.frame px) _ (.frame px (by simpa using hrun) hfs)
    | false => exact .unchanged
  | waitBus | sleep | halt => exact .unchanged

theorem receive_transition (k : ℕ) (bytes : List Byte) (s : State) : Transition s (receive k bytes s) := by
  rcases receive_cases k bytes s with ⟨_, -, -, -, heq⟩ | ⟨_, -, -, -, heq⟩ | heq <;> rw [heq]
  · exact .buffered k (fun c => { c with acc := [], discard := true }) _ fun _ => ⟨rfl, rfl, rfl⟩
  · exact .buffered k (fun c => settleLines s.mode (appendBytes bytes c)) s.evlog
      ((settleLines_keepsProgress s.mode).comp (appendBytes_keepsProgress bytes))
  · exact .unchanged

theorem openChannel_transition (k : ℕ) (s : State) : Transition s (openChannel k s) := by
  rcases openChannel_cases k s with ⟨mode, -, absent, heq⟩ | heq <;> rw [heq]
  · exact .opened k mode absent
  · exact .unchanged

theorem busStep_transition (res : XferResult) (s : State) : Transition s (busStep res s) := by
  rcases busStep_cases res s with ⟨bus, -, heq⟩ | ⟨bus, -, heq⟩ | heq <;> rw [heq]
  · exact .transferred res bus
  · exact .latchEnded bus
  · exact .unchanged

theorem sysStep_transition (s : State) : Transition s (sysStep s) := by
  unfold sysStep
  cases mode : s.mode with
  | shutdown =>
    rcases shutdownStep_cases s with ⟨job, quiet, heq⟩ | ⟨job, released, heq⟩ | heq <;> simp only [heq]
    · exact .finalClear mode job quiet
    · exact .stopped mode job released
    · exact .unchanged
  | init | run | failed | stopped => exact .unchanged

theorem shutdownRequest_transition (s : State) : Transition s (shutdownRequest s) := by
  cases hrun : s.mode == .run with
  | true => exact .shutdown (by simpa using hrun)
  | false =>
    simp only [shutdownRequest, hrun, cond_false]
    exact .unchanged

theorem act_transition {a : Action} {s t : State} (h : act a s = .next t) : Transition s t := by
  cases a with
  | sys r => cases h; exact sysStep_transition s
  | bus res => cases h; exact busStep_transition res s
  | ch k => exact chStep_transition h
  | chStart k => cases h; exact chStart_transition k s
  | fs px => exact fsStep_transition h
  | fsStart px => cases h; exact fsStart_transition px s
  | openCh k => cases h; exact openChannel_transition k s
  | closeCh k => cases h; exact .buffered k (fun c => { c with openState := .closing }) s.evlog fun _ => ⟨rfl, rfl, rfl⟩
  | recv k bytes => cases h; exact receive_transition k bytes s
  | shutdownReq => cases h; exact shutdownRequest_transition s
  | reset => cases h; exact .reset
  | tick d => cases h; exact .elapsed d

theorem stepAction_transition {a : Action} {s t : State} (h : stepAction a s = .next t) : Transition s t := by
  unfold stepAction at h
  cases mode : s.mode <;> simp only [mode] at h
  case init =>
    unfold actInit at h
    split at h
    next r =>
      rcases boot_cases r s with ⟨-, -, heq⟩ | ⟨-, -, heq⟩ | ⟨-, heq⟩ <;> cases heq.symm.trans h
      · exact .booted mode
      · exact .openFailed mode
    next => cases h; exact .reset
    next => cases h; exact .unchanged
  case run => exact act_transition h
  case shutdown => exact act_transition h
  case failed =>
    unfold actFailed at h
    split at h <;> cases h
    exact .reset
  case stopped =>
    unfold actStopped at h
    split at h <;> cases h
    · exact .reset
    · exact .unchanged

theorem step_transition {s t : State} (h : step s = .next t) : Transition (consume s) t := stepAction_transition h

end Sys2Proof.Machine
end

section
/-! SUPPORT. The channels as a list with rising ids, and where the agents' commands stand, as one function of the agent (`jobs`). -/

namespace Sys2Proof.Machine

/-! ## The channel list (43_commands.md R211) -/

theorem channelsWf_iff_pairwise (cs : List Channel) :
    channelsWf cs = true ↔ cs.Pairwise fun c d => c.id < d.id := by
  have trans : IsTrans Channel fun c d => c.id < d.id := ⟨fun _ _ _ => Nat.lt_trans⟩
  rw [← List.isChain_iff_pairwise]
  clear trans
  induction cs with
  | nil => simp [channelsWf]
  | cons c cs ih =>
    cases cs with
    | nil => simp [channelsWf]
    | cons d ds =>
      rw [List.isChain_cons_cons, channelsWf, Bool.and_eq_true, Nat.blt_eq]
      exact and_congr_right' ih

theorem channelsWf_map {f : Channel → Channel} (hf : ∀ c, (f c).id = c.id) {cs : List Channel}
    (h : channelsWf cs = true) : channelsWf (cs.map f) = true := by
  rw [channelsWf_iff_pairwise] at h ⊢
  simpa [List.pairwise_map, hf] using h

theorem channelsWf_filter (p : Channel → Bool) {cs : List Channel} (h : channelsWf cs = true) :
    channelsWf (cs.filter p) = true := by
  rw [channelsWf_iff_pairwise] at h ⊢
  exact h.filter p

theorem mem_insertChannel {c d : Channel} {cs : List Channel} : d ∈ insertChannel c cs ↔ d = c ∨ d ∈ cs := by
  induction cs with
  | nil => simp [insertChannel]
  | cons e es ih =>
    unfold insertChannel
    cases Nat.blt c.id e.id with
    | true => simp
    | false => simp [ih, or_left_comm]

theorem channelsWf_insertChannel {c : Channel} {cs : List Channel} (hnew : ∀ d ∈ cs, d.id ≠ c.id)
    (h : channelsWf cs = true) : channelsWf (insertChannel c cs) = true := by
  rw [channelsWf_iff_pairwise] at h ⊢
  induction cs with
  | nil => simp [insertChannel]
  | cons e es ih =>
    obtain ⟨hfirst, hrest⟩ := List.pairwise_cons.mp h
    have hne : e.id ≠ c.id := hnew e (by simp)
    unfold insertChannel
    cases hlt : Nat.blt c.id e.id with
    | true =>
      rw [Nat.blt_eq] at hlt
      refine List.pairwise_cons.mpr ⟨fun d hd => ?_, h⟩
      rcases List.mem_cons.mp hd with rfl | hd
      · exact hlt
      · exact hlt.trans (hfirst d hd)
    | false =>
      have hlt : e.id < c.id := by
        rw [← Bool.not_eq_true, Nat.blt_eq] at hlt
        omega
      refine List.pairwise_cons.mpr ⟨fun d hd => ?_, ih (fun d hd => hnew d (by simp [hd])) hrest⟩
      rcases mem_insertChannel.mp hd with rfl | hd
      · exact hlt
      · exact hfirst d hd

theorem findChannel_eq_none_iff {k : ℕ} {s : State} : findChannel k s = none ↔ ∀ c ∈ s.channels, c.id ≠ k := by
  simp [findChannel, List.find?_eq_none]

/-- With rising ids, a channel is the one that its id finds. -/
theorem findChannel_eq_some_iff {s : State} (h : channelsWf s.channels = true) {k : ℕ} {c : Channel} :
    findChannel k s = some c ↔ c ∈ s.channels ∧ c.id = k := by
  refine ⟨fun hfind => ⟨findChannel_mem hfind, findChannel_id hfind⟩, ?_⟩
  rintro ⟨hc, rfl⟩
  rw [channelsWf_iff_pairwise] at h
  unfold findChannel
  generalize s.channels = cs at h hc
  induction cs with
  | nil => cases hc
  | cons d ds ih =>
    obtain ⟨hfirst, hrest⟩ := List.pairwise_cons.mp h
    rcases List.mem_cons.mp hc with rfl | hc
    · simp
    · have : (d.id == c.id) = false := by simpa using (hfirst c hc).ne
      rw [List.find?_cons, this]
      exact ih hrest hc

/-! ## Where the commands stand -/

/-- Where each agent stands in its command. -/
def jobs (s : State) (a : Agent) : Job := jobOf a s

/-- Two states with the same channels, FS job and SYS job. -/
theorem jobs_congr {s t : State} (hch : ∀ k, jobOf (.ch k) t = jobOf (.ch k) s) (hfs : t.fs.job = s.fs.job)
    (hsys : t.sysJob = s.sysJob) : jobs t = jobs s := by
  funext a
  cases a with
  | ch k => exact hch k
  | fs => exact hfs
  | bus => rfl
  | sys => exact hsys

theorem channel_of_jobOf_ne_idle {k : ℕ} {s : State} (h : jobOf (.ch k) s ≠ .idle) :
    ∃ c, findChannel k s = some c ∧ c.job = jobOf (.ch k) s := by
  cases hfind : findChannel k s with
  | none => simp [jobOf, hfind] at h
  | some c => exact ⟨c, rfl, (jobOf_ch hfind).symm⟩

theorem jobs_setJob {a : Agent} {j : Job} {s : State} (h : jobOf a (setJob a j s) = j) :
    jobs (setJob a j s) = Function.update (jobs s) a j := by
  funext b
  rcases eq_or_ne b a with rfl | hb
  · rw [Function.update_self]; exact h
  · rw [Function.update_of_ne hb]; exact jobOf_setJob_ne hb j s

/-- An agent with a command in progress is there. -/
theorem jobOf_setJob_of_ne_idle {a : Agent} {s : State} (h : jobOf a s ≠ .idle) (j : Job) :
    jobOf a (setJob a j s) = j := by
  cases a with
  | ch k =>
    obtain ⟨c, hfind, -⟩ := channel_of_jobOf_ne_idle h
    exact jobOf_setJob_ch j hfind
  | fs => exact jobOf_setJob_fs j s
  | bus => exact absurd rfl h
  | sys => exact jobOf_setJob_sys j s

theorem jobs_completeJob (a : Agent) (s : State) : jobs (completeJob a s) = Function.update (jobs s) a .idle := by
  funext b
  rcases eq_or_ne b a with rfl | hb
  · rw [Function.update_self]; exact jobOf_completeJob b s
  · rw [Function.update_of_ne hb]; exact jobOf_completeJob_ne hb s

/-- Changing the buffers of channels moves no command. -/
theorem jobOf_map_channels {f : Channel → Channel} (hf : KeepsProgress f) (k : ℕ) (s : State) :
    jobOf (.ch k) (s.withChannels (s.channels.map f)) = jobOf (.ch k) s := by
  have hid : ((fun c : Channel => c.id == k) ∘ f) = fun c => c.id == k := by
    funext c
    simp [(hf c).1]
  simp only [jobOf, findChannel, State.withChannels_channels, List.find?_map, hid]
  cases s.channels.find? fun c => c.id == k with
  | none => rfl
  | some c => exact (hf c).2.2

/-- Under rising ids, a command in progress is that of the channel with the id. -/
theorem jobOf_ch_eq_iff {s : State} (h : channelsWf s.channels = true) {k : ℕ} {j : Job} (hj : j ≠ .idle) :
    jobOf (.ch k) s = j ↔ ∃ c ∈ s.channels, c.id = k ∧ c.job = j := by
  constructor
  · rintro rfl
    obtain ⟨c, hfind, hjob⟩ := channel_of_jobOf_ne_idle hj
    exact ⟨c, findChannel_mem hfind, findChannel_id hfind, hjob⟩
  · rintro ⟨c, hc, hid, rfl⟩
    exact jobOf_ch ((findChannel_eq_some_iff h).mpr ⟨hc, hid⟩)

/-- Channels with no command in progress come and go without moving a command. -/
theorem jobOf_ch_congr {s t : State} (hs : channelsWf s.channels = true) (ht : channelsWf t.channels = true)
    (h : ∀ c, c.job ≠ .idle → (c ∈ t.channels ↔ c ∈ s.channels)) (k : ℕ) : jobOf (.ch k) t = jobOf (.ch k) s := by
  have same : ∀ j, j ≠ .idle → (jobOf (.ch k) t = j ↔ jobOf (.ch k) s = j) := by
    intro j hj
    rw [jobOf_ch_eq_iff ht hj, jobOf_ch_eq_iff hs hj]
    refine exists_congr fun c => ?_
    constructor
    · rintro ⟨hc, hid, rfl⟩; exact ⟨(h c hj).mp hc, hid, rfl⟩
    · rintro ⟨hc, hid, rfl⟩; exact ⟨(h c hj).mpr hc, hid, rfl⟩
  by_cases hidle : jobOf (.ch k) t = .idle
  · by_contra hne
    exact hne ((same _ fun hs => hne (hidle.trans hs.symm)).mpr rfl)
  · exact ((same _ hidle).mp rfl).symm

end Sys2Proof.Machine
end

section
/-! SUPPORT. The lock discipline `LockInv` in two parts: what BUSY, WAIT_BUS and the ids show (`ProgressShown`), and how the locks
and the bus go with the commands in progress (`Disciplined`), the latter over the function `jobs`, in which an agent's progress is
one update. Then what each move of a lock or of the bus keeps of it. -/

namespace Sys2Proof.Machine

/-! ## The two parts of the discipline -/

/-- `transferHolder` as a function of the locks. -/
def holderOf (order : BusOrder) (lock busLock : Lock) : Option Agent :=
  match order with
  | .inLock => lockHolder lock
  | .snapshot => (lockHolder busLock).or (lockHolder lock)

theorem transferHolder_eq (s : State) : transferHolder s = holderOf s.params.busOrder s.lock s.bus.lock := by
  unfold transferHolder holderOf
  cases s.params.busOrder with
  | inLock => rfl
  | snapshot => cases s.bus.lock <;> rfl

/-- A channel is BUSY, and FS in WAIT_BUS, just while a command is in progress. -/
structure ProgressShown (cs : List Channel) (fs : FrameSeq) : Prop where
  ids_rising : channelsWf cs = true
  busy_iff_job : ∀ c ∈ cs, (c.busy = true ↔ c.job ≠ .idle)
  wait_iff_job : fs.state = .waitBus ↔ fs.job ≠ .idle

/-- The clauses of `LockInv` about the locks, the bus and the commands in progress. -/
structure Disciplined (order : BusOrder) (mode : Mode) (lock : Lock) (bus : Bus) (job : Agent → Job) : Prop where
  holder_transfers : ∀ a, job a = .transfer ↔ holderOf order lock bus.lock = some a
  idle_no_client : bus.state = .idle → bus.client = none
  busy_for_holder : bus.state ≠ .idle → bus.client = holderOf order lock bus.lock ∧ bus.client ≠ none
  in_lock : order = .inLock → bus.lock = .free ∧ ∀ a bytes, job a ≠ .waitBus bytes
  by_snapshot : order = .snapshot → bus.lock ≠ .held .sys ∧ (lock = .free ∨ (lock = .held .sys ∧ bus.lock = .free))
  final_transfer : job .sys ≠ .idle → job .sys = .transfer ∧ mode = .shutdown ∧ ∀ a, a ≠ .sys → job a = .idle

/-- No command of a channel or of FS is in progress. -/
theorem jobs_idle_iff {s : State} (h : channelsWf s.channels = true) :
    (∀ a, a ≠ .sys → jobs s a = .idle) ↔ s.fs.job = .idle ∧ ∀ c ∈ s.channels, c.job = .idle := by
  constructor
  · intro hidle
    refine ⟨hidle .fs nofun, fun c hc => ?_⟩
    rw [← jobOf_ch ((findChannel_eq_some_iff h).mpr ⟨hc, rfl⟩)]
    exact hidle (.ch c.id) nofun
  · rintro ⟨hfs, hch⟩ a ha
    cases a with
    | ch k =>
      by_contra hne
      obtain ⟨c, hfind, hjob⟩ := channel_of_jobOf_ne_idle hne
      exact hne (hjob.symm.trans (hch c (findChannel_mem hfind)))
    | fs => exact hfs
    | bus => rfl
    | sys => exact absurd rfl ha

theorem lockInv_iff (s : State) :
    LockInv s ↔ ProgressShown s.channels s.fs ∧ Disciplined s.params.busOrder s.mode s.lock s.bus (jobs s) := by
  constructor
  · intro h
    have hholder := transferHolder_eq s
    refine ⟨⟨h.ids_rising, h.busy_iff_job, h.wait_iff_job⟩, ⟨hholder ▸ h.holder_transfers, h.idle_no_client,
      hholder ▸ h.busy_for_holder, h.in_lock, h.by_snapshot, fun hsys => ?_⟩⟩
    obtain ⟨htransfer, hmode, hidle⟩ := h.final_transfer hsys
    exact ⟨htransfer, hmode, (jobs_idle_iff h.ids_rising).mpr hidle⟩
  · rintro ⟨shown, disc⟩
    have hholder := transferHolder_eq s
    refine ⟨shown.ids_rising, hholder ▸ disc.holder_transfers, disc.idle_no_client, hholder ▸ disc.busy_for_holder,
      disc.in_lock, disc.by_snapshot, fun hsys => ?_, shown.busy_iff_job, shown.wait_iff_job⟩
    obtain ⟨htransfer, hmode, hidle⟩ := disc.final_transfer hsys
    exact ⟨htransfer, hmode, (jobs_idle_iff shown.ids_rising).mp hidle⟩

/-! ## What BUSY, WAIT_BUS and the ids show -/

namespace ProgressShown

variable {s : State} (h : ProgressShown s.channels s.fs)
include h

theorem map_channels {f : Channel → Channel} (hf : KeepsProgress f) : ProgressShown (s.channels.map f) s.fs := by
  refine ⟨channelsWf_map (fun c => (hf c).1) h.ids_rising, fun d hd => ?_, h.wait_iff_job⟩
  obtain ⟨c, hc, rfl⟩ := List.mem_map.mp hd
  obtain ⟨-, hbusy, hjob⟩ := hf c
  rw [hbusy, hjob]
  exact h.busy_iff_job c hc

/-- A change of CH[k] that ties BUSY to its command. -/
theorem updateChannel (k : ℕ) {f : Channel → Channel} (hid : ∀ c, (f c).id = c.id)
    (hbusy : ∀ c, (f c).busy = true ↔ (f c).job ≠ .idle) : ProgressShown (Machine.updateChannel k f s).channels s.fs := by
  refine ⟨channelsWf_map (fun c => ?_) h.ids_rising, fun d hd => ?_, h.wait_iff_job⟩
  · cases c.id == k <;> simp [hid]
  · obtain ⟨c, hc, rfl⟩ := List.mem_map.mp hd
    cases c.id == k with
    | true => exact hbusy c
    | false => exact h.busy_iff_job c hc

theorem setJob (a : Agent) {j : Job} (hj : j ≠ .idle) :
    ProgressShown (Machine.setJob a j s).channels (Machine.setJob a j s).fs := by
  cases a with
  | ch k => exact h.updateChannel k (fun _ => rfl) fun _ => ⟨fun _ => hj, fun _ => rfl⟩
  | fs => exact ⟨h.ids_rising, h.busy_iff_job, fun _ => hj, fun _ => rfl⟩
  | bus | sys => exact h

theorem completeJob (a : Agent) : ProgressShown (Machine.completeJob a s).channels (Machine.completeJob a s).fs := by
  cases a with
  | ch k => exact h.updateChannel k (fun _ => rfl) fun _ => ⟨nofun, fun hidle => absurd rfl hidle⟩
  | fs =>
    refine ⟨h.ids_rising, h.busy_iff_job, fun hwait => ?_, fun hjob => absurd (fsAfterFrame_job s) hjob⟩
    simp only [Machine.completeJob, fsAfterFrame, State.withFs_fs] at hwait
    cases hmode : s.mode <;> simp [hmode] at hwait
  | bus | sys => exact h

end ProgressShown

/-! ## The discipline of the locks -/

namespace Disciplined

section
variable {order : BusOrder} {mode : Mode} {lock : Lock} {bus : Bus} {job : Agent → Job}
  (h : Disciplined order mode lock bus job)
include h

theorem sys_idle_of_mode (hmode : mode ≠ .shutdown) : job .sys = .idle := by
  by_contra hsys
  exact hmode (h.final_transfer hsys).2.1

/-- While a command is in progress SYS has not begun its final transfer. -/
theorem sys_idle_of_job {a : Agent} (ha : a ≠ .sys) (hjob : job a ≠ .idle) : job .sys = .idle := by
  by_contra hsys
  obtain ⟨-, -, hidle⟩ := h.final_transfer hsys
  exact hjob (hidle a ha)

/-- Nobody transfers, so neither lock is held for a transfer. -/
theorem holder_none (hjob : ∀ a, job a ≠ .transfer) : holderOf order lock bus.lock = none := by
  rw [Option.eq_none_iff_forall_ne_some]
  exact fun a ha => hjob a ((h.holder_transfers a).mpr ha)

/-- The holder, once released by BUS, finds the bus IDLE. -/
theorem bus_idle_of_released {a : Agent} (hjob : job a = .transfer) (hclient : bus.client ≠ some a) :
    bus.state = .idle := by
  by_contra hbusy
  exact hclient ((h.busy_for_holder hbusy).1.trans ((h.holder_transfers a).mp hjob))

/-- Under IN_LOCK a free LOCK means an IDLE bus (42_bus_writer.md R188). -/
theorem bus_idle_of_free (horder : order = .inLock) (hlock : lock = .free) : bus.state = .idle := by
  by_contra hbusy
  obtain ⟨hclient, hne⟩ := h.busy_for_holder hbusy
  subst horder hlock
  exact hne hclient

theorem withMode (m : Mode) (hsys : job .sys = .idle) : Disciplined order m lock bus job :=
  ⟨h.holder_transfers, h.idle_no_client, h.busy_for_holder, h.in_lock, h.by_snapshot, fun hne => absurd hsys hne⟩

/-- The bus goes on with its client, or becomes IDLE without one. -/
theorem withBus {b : Bus} (hlock : b.lock = bus.lock) (hidle : b.state = .idle → b.client = none)
    (hbusy : b.state ≠ .idle → bus.state ≠ .idle ∧ b.client = bus.client) : Disciplined order mode lock b job := by
  refine ⟨?_, hidle, fun hb => ?_, ?_, ?_, h.final_transfer⟩ <;> rw [hlock]
  · exact h.holder_transfers
  · obtain ⟨hstate, hclient⟩ := hbusy hb
    exact hclient ▸ h.busy_for_holder hstate
  · exact h.in_lock
  · exact h.by_snapshot

/-- A command that is not in transfer moves to where it is not in transfer. -/
theorem withJob {a : Agent} (ha : a ≠ .sys) (hsys : job .sys = .idle) (hfrom : job a ≠ .transfer) {j : Job}
    (hto : j ≠ .transfer) (hwait : order = .inLock → ∀ bytes, j ≠ .waitBus bytes) :
    Disciplined order mode lock bus (Function.update job a j) := by
  refine ⟨fun b => ?_, h.idle_no_client, h.busy_for_holder, fun horder => ⟨(h.in_lock horder).1, fun b bytes => ?_⟩,
    h.by_snapshot, fun hne => absurd ((Function.update_of_ne ha.symm j job).trans hsys) hne⟩
  · rw [← h.holder_transfers b]
    rcases eq_or_ne b a with rfl | hb
    · simp [hto, hfrom]
    · rw [Function.update_of_ne hb]
  · rcases eq_or_ne b a with rfl | hb
    · rw [Function.update_self]; exact hwait horder bytes
    · rw [Function.update_of_ne hb]; exact (h.in_lock horder).2 b bytes

/-- Agent a alone transfers, once it is made the holder while there is none. -/
theorem update_transfer_iff (hnone : holderOf order lock bus.lock = none) (a b : Agent) :
    Function.update job a .transfer b = .transfer ↔ (some a : Option Agent) = some b := by
  rcases eq_or_ne b a with rfl | hb
  · simp
  · rw [Function.update_of_ne hb, h.holder_transfers b, hnone]
    simp [hb.symm]

/-- Nobody transfers, once the holder has completed its command. -/
theorem update_idle_iff {a : Agent} (hjob : job a = .transfer) (b : Agent) :
    Function.update job a .idle b = .transfer ↔ (none : Option Agent) = some b := by
  rcases eq_or_ne b a with rfl | hb
  · simp
  · rw [Function.update_of_ne hb, h.holder_transfers b, (h.holder_transfers a).mp hjob]
    simp [hb.symm]

theorem update_ne_waitBus (horder : order = .inLock) (a : Agent) {j : Job} (hj : ∀ bytes, j ≠ .waitBus bytes) (b : Agent)
    (bytes : List Byte) : Function.update job a j b ≠ .waitBus bytes := by
  rcases eq_or_ne b a with rfl | hb
  · rw [Function.update_self]; exact hj bytes
  · rw [Function.update_of_ne hb]; exact (h.in_lock horder).2 b bytes

end

/-- Under IN_LOCK the section ends with LOCK held and the transfer requested (42_bus_writer.md R188). -/
theorem requestInLock {mode : Mode} {bus : Bus} {job : Agent → Job} (h : Disciplined .inLock mode .free bus job)
    {a : Agent} (ha : a ≠ .sys) (hsys : job .sys = .idle) (bytes : List Byte) :
    Disciplined .inLock mode (.held a) { bus with state := .xfer, frame := bytes, client := some a }
      (Function.update job a .transfer) where
  holder_transfers := h.update_transfer_iff rfl a
  idle_no_client := nofun
  busy_for_holder _ := ⟨rfl, nofun⟩
  in_lock horder := ⟨(h.in_lock horder).1, h.update_ne_waitBus horder a nofun⟩
  by_snapshot := nofun
  final_transfer hne := absurd ((Function.update_of_ne ha.symm _ job).trans hsys) hne

/-- Under SNAPSHOT the waiting command takes BUS_LOCK and requests its transfer (42_bus_writer.md R189). -/
theorem takeBusLock {mode : Mode} {lock : Lock} {bus : Bus} {job : Agent → Job}
    (h : Disciplined .snapshot mode lock bus job) {a : Agent} (ha : a ≠ .sys) (hjob : job a ≠ .idle)
    (hfree : bus.lock = .free) (bytes : List Byte) :
    Disciplined .snapshot mode lock { bus with state := .xfer, frame := bytes, client := some a, lock := .held a }
      (Function.update job a .transfer) := by
  have hsys := h.sys_idle_of_job ha hjob
  have hlock : lock = .free := by
    rcases (h.by_snapshot rfl).2 with hlock | ⟨hlock, -⟩
    · exact hlock
    · have : job .sys = .transfer := (h.holder_transfers .sys).mpr (by simp [holderOf, hlock, hfree, lockHolder])
      simp [hsys] at this
  have hnone : holderOf .snapshot lock bus.lock = none := by simp [holderOf, hlock, hfree, lockHolder]
  exact ⟨h.update_transfer_iff hnone a, nofun, fun _ => ⟨rfl, nofun⟩, nofun, fun _ => ⟨by simpa using ha, .inl hlock⟩,
    fun hne => absurd ((Function.update_of_ne ha.symm _ job).trans hsys) hne⟩

/-- Under IN_LOCK the released client frees LOCK (42_bus_writer.md R188). -/
theorem releaseInLock {mode : Mode} {lock : Lock} {bus : Bus} {job : Agent → Job}
    (h : Disciplined .inLock mode lock bus job) {a : Agent} (ha : a ≠ .sys) (hjob : job a = .transfer)
    (hclient : bus.client ≠ some a) : Disciplined .inLock mode .free bus (Function.update job a .idle) where
  holder_transfers := h.update_idle_iff hjob
  idle_no_client := h.idle_no_client
  busy_for_holder hbusy := absurd (h.bus_idle_of_released hjob hclient) hbusy
  in_lock horder := ⟨(h.in_lock horder).1, h.update_ne_waitBus horder a nofun⟩
  by_snapshot := nofun
  final_transfer hne :=
    absurd ((Function.update_of_ne ha.symm _ job).trans (h.sys_idle_of_job ha (by simp [hjob]))) hne

/-- Under SNAPSHOT the released client frees BUS_LOCK (42_bus_writer.md R189). -/
theorem releaseBusLock {mode : Mode} {lock : Lock} {bus : Bus} {job : Agent → Job}
    (h : Disciplined .snapshot mode lock bus job) {a : Agent} (ha : a ≠ .sys) (hjob : job a = .transfer)
    (hclient : bus.client ≠ some a) :
    Disciplined .snapshot mode lock { bus with lock := .free } (Function.update job a .idle) := by
  have hsys := h.sys_idle_of_job ha (by simp [hjob])
  have hholder := (h.holder_transfers a).mp hjob
  have hlock : lock = .free := by
    rcases (h.by_snapshot rfl).2 with hlock | ⟨hlock, hfree⟩
    · exact hlock
    · simp [holderOf, hlock, hfree, lockHolder, ha.symm] at hholder
  exact ⟨by simpa [holderOf, hlock, lockHolder] using h.update_idle_iff hjob, h.idle_no_client,
    fun hbusy => absurd (h.bus_idle_of_released hjob hclient) hbusy, nofun, fun _ => ⟨nofun, .inl hlock⟩,
    fun hne => absurd ((Function.update_of_ne ha.symm _ job).trans hsys) hne⟩

/-- Nobody transfers and LOCK is free, so BUS_LOCK is free too. -/
theorem busLock_free {order : BusOrder} {mode : Mode} {lock : Lock} {bus : Bus} {job : Agent → Job}
    (h : Disciplined order mode lock bus job) (hjob : ∀ a, job a = .transfer → a = .sys) : bus.lock = .free := by
  cases order with
  | inLock => exact (h.in_lock rfl).1
  | snapshot =>
    cases hlock : bus.lock with
    | free => rfl
    | held a =>
      have ha := hjob a ((h.holder_transfers a).mpr (by simp [holderOf, hlock, lockHolder]))
      exact absurd (ha ▸ hlock) (h.by_snapshot rfl).1

/-- SYS begins its final transfer once nothing is in progress (70_reset_and_hazards.md R324). -/
theorem requestFinal {order : BusOrder} {bus : Bus} {job : Agent → Job} (h : Disciplined order .shutdown .free bus job)
    (hidle : ∀ a, job a = .idle) (bytes : List Byte) :
    Disciplined order .shutdown (.held .sys) { bus with state := .xfer, frame := bytes, client := some .sys }
      (Function.update job .sys .transfer) := by
  have hfree : bus.lock = .free := h.busLock_free fun a ha => by simp [hidle a] at ha
  have hholder : holderOf order (.held .sys) bus.lock = some .sys := by cases order <;> simp [holderOf, hfree, lockHolder]
  have hnone := h.holder_none fun a => by simp [hidle a]
  exact ⟨by simpa only [hholder] using h.update_transfer_iff hnone .sys, nofun, fun _ => ⟨hholder.symm, nofun⟩,
    fun horder => ⟨hfree, h.update_ne_waitBus horder .sys nofun⟩, fun _ => ⟨by simp [hfree], .inr ⟨rfl, hfree⟩⟩,
    fun _ => ⟨Function.update_self .., rfl, fun a ha => (Function.update_of_ne ha _ job).trans (hidle a)⟩⟩

/-- The end of the shutdown (70_reset_and_hazards.md R324). -/
theorem stop {order : BusOrder} {mode : Mode} {lock : Lock} {bus : Bus} {job : Agent → Job}
    (h : Disciplined order mode lock bus job) (hjob : job .sys = .transfer) (hclient : bus.client ≠ some .sys)
    (m : Mode) : Disciplined order m .free bus fun _ => .idle := by
  obtain ⟨-, -, hidle⟩ := h.final_transfer (by simp [hjob])
  have hfree : bus.lock = .free := h.busLock_free fun a ha => by
    by_contra hne
    simp [hidle a hne] at ha
  have hnone : holderOf order .free bus.lock = none := by cases order <;> simp [holderOf, hfree, lockHolder]
  exact ⟨fun a => by simp [hnone], h.idle_no_client, fun hbusy => absurd (h.bus_idle_of_released hjob hclient) hbusy,
    fun _ => ⟨hfree, fun _ _ => nofun⟩, fun _ => ⟨by simp [hfree], .inl rfl⟩, fun hne => absurd rfl hne⟩

end Disciplined

end Sys2Proof.Machine
end

section
/-! SUPPORT. Every step keeps the lock discipline, transition by transition (`Transition.lockInv`). -/

namespace Sys2Proof.Machine

/-! ## An agent's progress -/

theorem lockInv_setJob {a : Agent} {j : Job} {s : State} (shown : ProgressShown s.channels s.fs) (hj : j ≠ .idle)
    (hself : jobOf a (setJob a j s) = j)
    (disc : Disciplined s.params.busOrder s.mode s.lock s.bus (Function.update (jobs s) a j)) : LockInv (setJob a j s) := by
  obtain ⟨hparams, hmode, -, hlock, hbus, -⟩ := setJob_frame a j s
  rw [lockInv_iff, hparams, hmode, hlock, hbus, jobs_setJob hself]
  exact ⟨shown.setJob a hj, disc⟩

theorem lockInv_completeJob {a : Agent} {s : State} (shown : ProgressShown s.channels s.fs)
    (disc : Disciplined s.params.busOrder s.mode s.lock s.bus (Function.update (jobs s) a .idle)) :
    LockInv (completeJob a s) := by
  obtain ⟨hparams, hmode, -, hlock, hbus, -⟩ := completeJob_frame a s
  rw [lockInv_iff, hparams, hmode, hlock, hbus, jobs_completeJob]
  exact ⟨shown.completeJob a, disc⟩

theorem findChannel_removeLine {k : ℕ} {c : Channel} {s : State} (channel : findChannel k s = some c) :
    findChannel k (updateChannel k removeLine s) = some (removeLine c) := by
  rw [findChannel_updateChannel_self removeLine (fun _ => rfl), channel, Option.map_some]

/-- The started command waits for LOCK, and FRAME is FS's own. -/
theorem CommandStarts.waits {s t : State} {a : Agent} {i : Instr} (h : CommandStarts s a i t) :
    jobOf a t = .waitLock i ∧ (isFrame i = true → a = .fs) := by
  cases h with
  | line channel idle ready fate =>
    refine ⟨jobOf_setJob_ch _ (findChannel_removeLine channel), fun hi => ?_⟩
    simp [decodeLine_ne_frame (lineFate_command fate).1] at hi
  | frame px mode request => exact ⟨rfl, fun _ => rfl⟩

/-- A waiting command is one of FS, or one of a channel and not FRAME (30_encoding.md R98). -/
theorem CommandInv.frame_is_fs {s : State} (h : CommandInv s) {a : Agent} {i : Instr} (hjob : jobOf a s = .waitLock i)
    (hsys : a ≠ .sys) : isFrame i = true → a = .fs := by
  intro hi
  cases a with
  | ch k =>
    obtain ⟨c, hfind, hc⟩ := channel_of_jobOf_ne_idle (k := k) (s := s) (by simp [hjob])
    have := h.channel_jobs c (findChannel_mem hfind)
    simp [hc, hjob, jobCarries, hi] at this
  | fs => rfl
  | bus => cases hjob
  | sys => exact absurd rfl hsys

/-- A transfer writes the logs and the bus only (42_bus_writer.md R182). -/
theorem xferStep_eq (res : XferResult) (s : State) :
    ∃ es, xferStep res s =
      ((s.withBuslog (s.buslog ++ [{ bytes := s.bus.frame, result := res }])).withEvlog es).withBus
        { s.bus with state := .latch, latchLeft := s.params.tLatch } := by
  unfold xferStep
  rcases emitXferEvent_cases res (s.withBuslog (s.buslog ++ [{ bytes := s.bus.frame, result := res }]))
    with heq | ⟨e, -, heq⟩ <;> rw [heq]
  · exact ⟨s.evlog, rfl⟩
  · exact ⟨s.evlog ++ [e], rfl⟩

/-- SHUTDOWN_REQ leaves a FRAME in progress alone (44_frame_port.md R265). -/
theorem haltFs_progress (f : FrameSeq) : ((haltFs f).state = .waitBus ↔ f.state = .waitBus) ∧ (haltFs f).job = f.job := by
  unfold haltFs
  cases hf : f.state <;> simp [hf]

theorem idle_of_quiescent {s : State} (h : quiescent s = true) :
    (∀ c ∈ s.channels, c.job = .idle) ∧ s.fs.job = .idle ∧ s.lock = .free := by
  simp only [quiescent, Bool.and_eq_true, beq_iff_eq, List.all_eq_true, channelQuiet, lockFree_iff] at h
  obtain ⟨⟨⟨hchannels, hfs⟩, hlock⟩, -⟩ := h
  exact ⟨fun c hc => (hchannels c hc).2, hfs, hlock⟩

theorem resetBlock_lockInv (s : State) : LockInv (resetBlock s) := by
  have h := resetWith_lockInv s.params
  rw [lockInv_iff] at h ⊢
  exact h

namespace LockInv

variable {s : State} (h : LockInv s)
include h

/-- The writes of a section, and of `actor`, are not the discipline's. -/
theorem sectioned (c : ColorState) (es : List Event) : LockInv ((s.withColor c).withEvlog es) := by
  rw [lockInv_iff] at h ⊢
  exact h

theorem withActor (a : Agent) : LockInv (s.withActor a) := by
  rw [lockInv_iff] at h ⊢
  exact h

theorem sys_idle_of_run (mode : s.mode = .run) : s.sysJob = .idle := by
  obtain ⟨-, disc⟩ := (lockInv_iff s).mp h
  exact disc.sys_idle_of_mode (by simp [mode])

/-- A command that waits is no command of SYS, and SYS has not begun its final transfer. -/
theorem sys_idle_of_wait {a : Agent} (hidle : jobOf a s ≠ .idle) (htransfer : jobOf a s ≠ .transfer) :
    a ≠ .sys ∧ s.sysJob = .idle := by
  obtain ⟨-, disc⟩ := (lockInv_iff s).mp h
  have ha : a ≠ .sys := by
    rintro rfl
    exact htransfer (disc.final_transfer hidle).1
  exact ⟨ha, disc.sys_idle_of_job ha hidle⟩

/-! ## A command that starts, and runs -/

theorem setWaitLock {a : Agent} {i : Instr} (mode : s.mode = .run) (ha : a ≠ .sys) (hfrom : jobOf a s = .idle)
    (hself : jobOf a (setJob a (.waitLock i) s) = .waitLock i) : LockInv (setJob a (.waitLock i) s) := by
  obtain ⟨shown, disc⟩ := (lockInv_iff s).mp h
  have hfrom : jobs s a ≠ .transfer := by simp [jobs, hfrom]
  exact lockInv_setJob shown nofun hself (disc.withJob ha (h.sys_idle_of_run mode) hfrom nofun fun _ _ => nofun)

theorem map_channels {f : Channel → Channel} (hf : KeepsProgress f) : LockInv (s.withChannels (s.channels.map f)) := by
  obtain ⟨shown, disc⟩ := (lockInv_iff s).mp h
  rw [lockInv_iff, jobs_congr (s := s) (fun k => jobOf_map_channels hf k s) rfl rfl]
  exact ⟨shown.map_channels hf, disc⟩

theorem updateChannel (k : ℕ) {f : Channel → Channel} (hf : KeepsProgress f) : LockInv (updateChannel k f s) :=
  h.map_channels (hf.onChannel k)

theorem started {t : State} {a : Agent} {i : Instr} (starts : CommandStarts s a i t) : LockInv t := by
  have hself := starts.waits.1
  cases starts with
  | @line k c i channel idle ready fate =>
    simp only [canTakeLine, Bool.and_eq_true, beq_iff_eq] at ready
    obtain ⟨⟨-, mode⟩, -⟩ := ready
    exact (h.updateChannel k removeLine_keepsProgress).setWaitLock (a := .ch k) mode nofun
      ((jobOf_ch (findChannel_removeLine channel)).trans idle) hself
  | frame px mode request =>
    have hjob : s.fs.job = .idle := by
      by_contra hne
      simp [h.wait_iff_job.mpr hne] at request
    exact h.setWaitLock mode nofun hjob hself

theorem endSection {a : Agent} {i : Instr} (hjob : jobOf a s = .waitLock i) (begins : mayBeginTransfer s = true) :
    LockInv (endSection a s) := by
  obtain ⟨hlock, -⟩ := (mayBeginTransfer_iff s).mp begins
  have hidle : jobOf a s ≠ .idle := by simp [hjob]
  have htransfer : jobs s a ≠ .transfer := by simp [jobs, hjob]
  obtain ⟨ha, hsys⟩ := h.sys_idle_of_wait hidle htransfer
  obtain ⟨shown, disc⟩ := (lockInv_iff s).mp h
  cases horder : s.params.busOrder with
  | inLock =>
    rw [endSection_inLock horder]
    rw [horder, hlock] at disc
    refine lockInv_setJob shown nofun (jobOf_setJob_of_ne_idle (by exact hidle) _) ?_
    exact horder ▸ disc.requestInLock ha hsys s.color.mem.o
  | snapshot =>
    rw [endSection_snapshot horder]
    refine lockInv_setJob shown nofun (jobOf_setJob_of_ne_idle hidle _) ?_
    exact disc.withJob ha hsys htransfer nofun fun hin => by simp [horder] at hin

theorem completePlain {a : Agent} {i : Instr} (hjob : jobOf a s = .waitLock i) : LockInv (completeJob a s) := by
  have htransfer : jobs s a ≠ .transfer := by simp [jobs, hjob]
  obtain ⟨ha, hsys⟩ := h.sys_idle_of_wait (by simp [hjob]) htransfer
  obtain ⟨shown, disc⟩ := (lockInv_iff s).mp h
  exact lockInv_completeJob shown (disc.withJob ha hsys htransfer nofun fun _ _ => nofun)

/-- Agent a's command that waits for LOCK, run. -/
theorem ran {t : State} {a : Agent} {i : Instr} (hjob : jobOf a s = .waitLock i) (hframe : isFrame i = true → a = .fs)
    (result : ExecResult i (s.withActor a) t) : LockInv t := by
  have hrunner : runnerOf i (s.withActor a) = a := by
    unfold runnerOf
    cases hi : isFrame i with
    | true => exact (hframe hi).symm
    | false => rfl
  cases result with
  | waits => exact h.withActor a
  | endsSection c es begins =>
    rw [hrunner]
    exact ((h.withActor a).sectioned c es).endSection hjob begins
  | completes c es free =>
    rw [hrunner]
    exact ((h.withActor a).sectioned c es).completePlain hjob

/-! ## A command's transfer -/

theorem acquireBusLock {a : Agent} {bytes : List Byte} (hjob : jobOf a s = .waitBus bytes) :
    LockInv (acquireBusLock a bytes s) := by
  rcases acquireBusLock_cases a bytes s with ⟨hfree, -, heq⟩ | heq <;> rw [heq]
  · have hidle : jobOf a s ≠ .idle := by simp [hjob]
    obtain ⟨ha, -⟩ := h.sys_idle_of_wait hidle (by simp [hjob])
    obtain ⟨shown, disc⟩ := (lockInv_iff s).mp h
    cases horder : s.params.busOrder with
    | inLock => exact absurd hjob ((h.in_lock horder).2 a bytes)
    | snapshot =>
      rw [horder] at disc
      refine lockInv_setJob shown nofun (jobOf_setJob_of_ne_idle (by exact hidle) _) ?_
      exact horder ▸ disc.takeBusLock ha hidle hfree bytes
  · exact h

theorem finishTransfer {a : Agent} (ha : a ≠ .sys) (hjob : jobOf a s = .transfer) : LockInv (finishTransfer a s) := by
  rcases finishTransfer_cases a s with ⟨hclient, heq⟩ | heq <;> rw [heq]
  · obtain ⟨shown, disc⟩ := (lockInv_iff s).mp h
    rcases releaseLock_cases s with ⟨horder, heq⟩ | ⟨horder, heq⟩ <;> rw [heq] <;> rw [horder] at disc
    · exact lockInv_completeJob shown (horder ▸ disc.releaseInLock ha hjob hclient)
    · exact lockInv_completeJob shown (horder ▸ disc.releaseBusLock ha hjob hclient)
  · exact h

/-! ## BUS and time -/

theorem transferred (res : XferResult) (bus : s.bus.state = .xfer) : LockInv (xferStep res s) := by
  obtain ⟨shown, disc⟩ := (lockInv_iff s).mp h
  obtain ⟨es, heq⟩ := xferStep_eq res s
  rw [heq, lockInv_iff]
  exact ⟨shown, disc.withBus rfl nofun fun _ => ⟨by simp [bus], rfl⟩⟩

theorem latchEnd : LockInv (latchEnd s) := by
  obtain ⟨shown, disc⟩ := (lockInv_iff s).mp h
  rw [lockInv_iff]
  exact ⟨shown, disc.withBus rfl (fun _ => rfl) fun hbusy => absurd rfl hbusy⟩

theorem elapse (d : ℕ) : LockInv (elapse d s) := by
  obtain ⟨shown, disc⟩ := (lockInv_iff s).mp h
  rw [lockInv_iff]
  exact ⟨⟨shown.ids_rising, shown.busy_iff_job, shown.wait_iff_job⟩,
    disc.withBus rfl h.idle_no_client fun hbusy => ⟨hbusy, rfl⟩⟩

/-! ## Channels that come and go, and FS awake -/

theorem opened {k : ℕ} (absent : findChannel k s = none) :
    LockInv (s.withChannels (insertChannel (newChannel k) s.channels)) := by
  obtain ⟨shown, disc⟩ := (lockInv_iff s).mp h
  have hwf := channelsWf_insertChannel (c := newChannel k) (findChannel_eq_none_iff.mp absent) shown.ids_rising
  have hjobs := jobOf_ch_congr (s := s) (t := s.withChannels (insertChannel (newChannel k) s.channels))
    shown.ids_rising hwf fun c hc => by
      have : c ≠ newChannel k := by
        rintro rfl
        exact hc rfl
      simp [mem_insertChannel, this]
  rw [lockInv_iff, jobs_congr hjobs rfl rfl]
  refine ⟨⟨hwf, fun c hc => ?_, shown.wait_iff_job⟩, disc⟩
  rcases mem_insertChannel.mp hc with rfl | hc
  · simp [newChannel]
  · exact shown.busy_iff_job c hc

theorem removed {k : ℕ} {c : Channel} (channel : findChannel k s = some c) (idle : c.job = .idle) :
    LockInv (removeChannel k s) := by
  obtain ⟨shown, disc⟩ := (lockInv_iff s).mp h
  have hwf : channelsWf (removeChannel k s).channels = true := channelsWf_filter _ shown.ids_rising
  have hjobs := jobOf_ch_congr shown.ids_rising hwf fun d hd => by
    have : d ∈ s.channels → d.id ≠ k := by
      intro hmem hid
      have := (findChannel_eq_some_iff shown.ids_rising).mpr ⟨hmem, hid⟩
      rw [channel, Option.some_inj] at this
      exact hd (this ▸ idle)
    simpa [removeChannel] using this
  rw [lockInv_iff, jobs_congr hjobs rfl rfl]
  exact ⟨⟨hwf, fun d hd => shown.busy_iff_job d (List.mem_of_mem_filter hd), shown.wait_iff_job⟩, disc⟩

theorem woke (asleep : s.fs.state = .sleep) : LockInv (s.withFs { s.fs with state := .req }) := by
  obtain ⟨shown, disc⟩ := (lockInv_iff s).mp h
  have hwait := shown.wait_iff_job
  rw [asleep] at hwait
  rw [lockInv_iff]
  exact ⟨⟨shown.ids_rising, shown.busy_iff_job, nofun, fun hjob => nomatch hwait.mpr hjob⟩, disc⟩

/-! ## SYS -/

theorem booted (mode : s.mode = .init) (d : Option SpiConfig) : LockInv (((bootColor s).withDevice d).withMode .run) := by
  obtain ⟨shown, disc⟩ := (lockInv_iff s).mp h
  rw [lockInv_iff]
  exact ⟨shown, disc.withMode .run (disc.sys_idle_of_mode (by simp [mode]))⟩

theorem openFailed (mode : s.mode = .init) : LockInv (failOpen (bootColor s)) := by
  obtain ⟨shown, disc⟩ := (lockInv_iff s).mp h
  rw [lockInv_iff]
  exact ⟨shown, disc.withMode .failed (disc.sys_idle_of_mode (by simp [mode]))⟩

theorem shutdownRequest (mode : s.mode = .run) : LockInv (shutdownRequest s) := by
  have hmap := h.map_channels discardLines_keepsProgress
  obtain ⟨shown, disc⟩ := (lockInv_iff s).mp h
  obtain ⟨hstate, hjob⟩ := haltFs_progress s.fs
  have hjobs : jobs (((s.withMode .shutdown).withFs (haltFs s.fs)).withChannels (s.channels.map discardLines)) = jobs s :=
    jobs_congr (fun k => jobOf_map_channels discardLines_keepsProgress k s) hjob rfl
  rw [shutdownRequest_of_run mode, lockInv_iff, hjobs]
  refine ⟨⟨hmap.ids_rising, hmap.busy_iff_job, ?_⟩, disc.withMode .shutdown (h.sys_idle_of_run mode)⟩
  rw [State.withChannels_fs, State.withFs_fs, hjob]
  exact hstate.trans shown.wait_iff_job

theorem finalClear (mode : s.mode = .shutdown) (job : s.sysJob = .idle) (quiet : quiescent s = true) :
    LockInv (finalClear s) := by
  obtain ⟨shown, disc⟩ := (lockInv_iff s).mp h
  obtain ⟨hchannels, hfs, hlock⟩ := idle_of_quiescent quiet
  have hidle : ∀ a, jobs s a = .idle := by
    intro a
    by_cases ha : a = .sys
    · exact ha ▸ job
    · exact (jobs_idle_iff shown.ids_rising).mpr ⟨hfs, hchannels⟩ a ha
  rw [mode, hlock] at disc
  refine lockInv_setJob (a := .sys) (j := .transfer) (by exact shown) nofun rfl ?_
  exact mode ▸ disc.requestFinal hidle (List.replicate (3 * s.params.n) 0#8)

theorem stopped (job : s.sysJob = .transfer) (released : s.bus.client ≠ some .sys) : LockInv (stopBlock s) := by
  obtain ⟨shown, disc⟩ := (lockInv_iff s).mp h
  obtain ⟨-, -, hfs, -⟩ := h.final_transfer (by simp [job])
  have hjobs : jobs (stopBlock s) = fun _ => .idle := by
    funext a
    cases a with
    | ch k => rfl
    | fs => exact hfs
    | bus | sys => rfl
  rw [lockInv_iff, hjobs]
  exact ⟨⟨rfl, nofun, shown.wait_iff_job⟩, disc.stop job released .stopped⟩

end LockInv

/-! ## Every step -/

theorem Transition.lockInv {s t : State} (hcmd : CommandInv s) (h : LockInv s) (step : Transition s t) : LockInv t := by
  cases step with
  | unchanged => exact h
  | reset => exact resetBlock_lockInv s
  | booted mode => exact h.booted mode _
  | openFailed mode => exact h.openFailed mode
  | shutdown mode => exact h.shutdownRequest mode
  | finalClear mode job quiet => exact h.finalClear mode job quiet
  | stopped mode job released => exact h.stopped job released
  | transferred res bus => exact h.transferred res bus
  | latchEnded bus => exact h.latchEnd
  | elapsed d => exact h.elapse d
  | opened k mode absent => exact h.opened absent
  | buffered k f es keeps => exact (h.updateChannel k keeps).sectioned s.color es
  | removed k c channel idle => exact h.removed channel idle
  | woke asleep => exact h.woke asleep
  | started a i t starts => exact h.started starts
  | ran a i s' t starts runs => exact (h.started starts).ran starts.waits.1 starts.waits.2 runs
  | retried a i t not_sys job runs => exact h.ran job (hcmd.frame_is_fs job not_sys) runs
  | awaitedBus a bytes not_sys job => exact h.acquireBusLock job
  | awaitedClient a not_sys job => exact h.finishTransfer not_sys job

theorem LockInv.consume {s : State} (h : LockInv s) : LockInv (consume s) := by
  rw [lockInv_iff] at h ⊢
  rw [jobs_congr (s := s) (fun k => by simp [jobOf, findChannel]) (by simp) (by simp)]
  simpa using h

/-- Settles O54, transition by transition (`Transition.lockInv`). -/
theorem stepKeepsLockInv : Obligations.StepKeepsLockInv := by
  intro s t hcmd hlock h
  exact (step_transition h).lockInv hcmd.consume hlock.consume

end Sys2Proof.Machine
end

section
/-! SUPPORT. The statements of 20_memory.md on commands and LOCK (R60), on the bytes in transfer under IN_LOCK (R62) and on the
order of the wire (R53, R54). -/

namespace Sys2Proof.Machine

/-! ## LOCK and the commands (20_memory.md R60) -/

/-- Settles O20: of the three results of exec (`exec_result`), only the wait leaves LOCK held. -/
theorem commandsWaitForTheLock : Obligations.CommandsWaitForTheLock := by
  intro i s a hi hlock
  obtain ⟨t, heq⟩ := exec_goes_on i s hi
  cases exec_result heq with
  | waits => exact heq
  | endsSection c es begins => simp [mayBeginTransfer_iff, hlock] at begins
  | completes c es free => simp [hlock] at free

theorem stepAction_of_active {s : State} (h : s.mode = .run ∨ s.mode = .shutdown) (a : Action) :
    stepAction a s = act a s := by
  unfold stepAction
  rcases h with h | h <;> rw [h]

theorem step_of_active {s : State} (h : s.mode = .run ∨ s.mode = .shutdown) : step s = act (nextAction s) (consume s) :=
  stepAction_of_active (by simpa using h) _

theorem findChannel_consume (k : ℕ) (s : State) : findChannel k (consume s) = findChannel k s := by simp [findChannel]

/-- Settles O19: each agent's step goes on with its command (`jobStep`). -/
theorem stepRetriesTheWaitingCommand : Obligations.StepRetriesTheWaitingCommand := by
  intro s i hmode
  rw [step_of_active hmode]
  refine ⟨fun k c hnext hfind hjob => ?_, fun px hnext hwait hjob => ?_⟩
  · have hfind : findChannel k (consume s) = some c := (findChannel_consume k s).trans hfind
    rw [hnext, act, chStep, hfind]
    simp only [hjob]
    rfl
  · have hwait : (consume s).fs.state = .waitBus := by simpa using hwait
    have hjob : (consume s).fs.job = .waitLock i := by simpa using hjob
    rw [hnext, act, fsStep, hwait, hjob]
    rfl

/-! ## The bytes in transfer under IN_LOCK (20_memory.md R62) -/

/-- The bytes in transfer are the output buffer as it stands. -/
def TransfersOutput (s : State) : Prop := s.bus.state ≠ .idle → s.bus.frame = s.color.mem.o

theorem transfersOutput_of_idle {s : State} (h : s.bus.state = .idle) : TransfersOutput s := fun hbusy => absurd h hbusy

theorem TransfersOutput.congr {s t : State} (h : TransfersOutput s) (hbus : t.bus = s.bus) (hcolor : t.color = s.color) :
    TransfersOutput t := by
  unfold TransfersOutput
  rw [hbus, hcolor]
  exact h

theorem LockInv.bus_idle_of_free {s : State} (h : LockInv s) (horder : s.params.busOrder = .inLock)
    (hlock : s.lock = .free) : s.bus.state = .idle := by
  obtain ⟨-, disc⟩ := (lockInv_iff s).mp h
  exact disc.bus_idle_of_free horder hlock

theorem setJob_transfersOutput {a : Agent} {j : Job} {s : State} (h : TransfersOutput s) :
    TransfersOutput (setJob a j s) := by
  obtain ⟨-, -, hcolor, -, hbus, -⟩ := setJob_frame a j s
  exact h.congr hbus hcolor

/-- A section runs only while LOCK is free and so the bus IDLE; it ends with its own output in transfer. -/
theorem ExecResult.transfersOutput {i : Instr} {s t : State} (h : LockInv s) (horder : s.params.busOrder = .inLock)
    (hout : TransfersOutput s) (result : ExecResult i s t) : TransfersOutput t := by
  cases result with
  | waits => exact hout
  | endsSection c es begins =>
    rw [endSection_inLock (by exact horder)]
    exact setJob_transfersOutput fun _ => rfl
  | completes c es free =>
    obtain ⟨-, -, -, -, hbus, -⟩ := completeJob_frame (runnerOf i s) ((s.withColor c).withEvlog es)
    exact transfersOutput_of_idle (hbus ▸ h.bus_idle_of_free horder free)

theorem CommandStarts.leaves {s t : State} {a : Agent} {i : Instr} (h : CommandStarts s a i t) :
    t.params = s.params ∧ t.bus = s.bus ∧ t.color = s.color := by
  cases h <;> exact ⟨rfl, rfl, rfl⟩

theorem finishTransfer_leaves_transfer (a : Agent) (s : State) :
    (finishTransfer a s).bus.state = s.bus.state ∧ (finishTransfer a s).bus.frame = s.bus.frame ∧
      (finishTransfer a s).color = s.color := by
  rcases finishTransfer_cases a s with ⟨-, heq⟩ | heq <;> rw [heq]
  · obtain ⟨-, -, hcolor, -, hbus, -⟩ := completeJob_frame a (releaseLock s)
    rw [hcolor, hbus]
    rcases releaseLock_cases s with ⟨-, heq⟩ | ⟨-, heq⟩ <;> rw [heq] <;> exact ⟨rfl, rfl, rfl⟩
  · exact ⟨rfl, rfl, rfl⟩

theorem Transition.transfersOutput {s t : State} (h : LockInv s) (horder : s.params.busOrder = .inLock)
    (hinit : s.mode = .init → s.bus.state = .idle) (hout : TransfersOutput s) (step : Transition s t) :
    TransfersOutput t := by
  cases step with
  | unchanged | stopped | elapsed | opened | buffered | removed | woke => exact hout
  | reset => exact transfersOutput_of_idle rfl
  | booted mode | openFailed mode => exact transfersOutput_of_idle (hinit mode)
  | shutdown mode => rw [shutdownRequest_of_run mode]; exact hout
  | finalClear mode job quiet => exact fun _ => rfl
  | transferred res bus =>
    obtain ⟨es, heq⟩ := xferStep_eq res s
    rw [heq]
    exact fun _ => hout (by simp [bus])
  | latchEnded bus => exact transfersOutput_of_idle rfl
  | started a i t starts =>
    obtain ⟨-, hbus, hcolor⟩ := starts.leaves
    exact hout.congr hbus hcolor
  | ran a i s' t starts runs =>
    obtain ⟨hparams, hbus, hcolor⟩ := starts.leaves
    exact runs.transfersOutput ((h.started starts).withActor a) (by rw [State.withActor_params, hparams, horder])
      (hout.congr hbus hcolor)
  | retried a i t not_sys job runs => exact runs.transfersOutput (h.withActor a) horder hout
  | awaitedBus a bytes not_sys job => exact absurd job ((h.in_lock horder).2 a bytes)
  | awaitedClient a not_sys job =>
    obtain ⟨hstate, hframe, hcolor⟩ := finishTransfer_leaves_transfer a s
    unfold TransfersOutput
    rw [hstate, hframe, hcolor]
    exact hout

/-- In INIT only the boot and the reset input do anything. -/
theorem actInit_bus_idle {a : Action} {s t : State} (hidle : s.bus.state = .idle) (h : actInit a s = .next t) :
    t.bus.state = .idle := by
  unfold actInit at h
  split at h
  next r =>
    rcases boot_cases r s with ⟨-, -, heq⟩ | ⟨-, -, heq⟩ | ⟨-, heq⟩ <;> cases heq.symm.trans h <;> exact hidle
  next => cases h; rfl
  next => cases h; exact hidle

/-- INIT is left by the boot, and entered by the reset input alone (`modeTransitions`). -/
theorem step_init_bus_idle {s t : State} (hinit : s.mode = .init → s.bus.state = .idle) (h : step s = .next t)
    (ht : t.mode = .init) : t.bus.state = .idle := by
  by_cases hreset : nextAction s = .reset
  · rw [step_reset hreset] at h
    cases h
    rfl
  · have hmode : s.mode = .init := by simpa [ht, hreset, eq_comm] using modeTransitions s t h
    rw [step, stepAction, consume_mode, hmode] at h
    exact actInit_bus_idle (by simpa using hinit hmode) h

/-- Settles O36, transition by transition (`Transition.transfersOutput`). -/
theorem inLockTransfersTheOutput : Obligations.InLockTransfersTheOutput := by
  intro s t hlock horder hinit hout h
  refine ⟨step_init_bus_idle hinit h, ?_⟩
  exact (step_transition h).transfersOutput hlock.consume (by simpa using horder) (by simpa using hinit)
    (TransfersOutput.congr hout (consume_bus s) (consume_color s))

/-! ## The order of the wire (20_memory.md R53, R54) -/

theorem wireBits_length (lsbFirst : Bool) (x : Byte) : (wireBits lsbFirst x).length = 8 := by
  cases lsbFirst <;> simp [wireBits]

theorem wireBits_getElem? (lsbFirst : Bool) (x : Byte) {m : ℕ} (hm : m < 8) :
    (wireBits lsbFirst x)[m]? = some (x.getLsbD (if lsbFirst then m else 7 - m)) := by
  cases lsbFirst <;> simp [wireBits, hm]

/-- Place 8·n + m of the wire is place m of byte n. -/
theorem flatten_wireBits_getElem? (lsbFirst : Bool) {bytes : List Byte} {n m : ℕ} {x : Byte} (hm : m < 8)
    (hn : bytes[n]? = some x) :
    (bytes.map (wireBits lsbFirst)).flatten[8 * n + m]? = (wireBits lsbFirst x)[m]? := by
  induction bytes generalizing n with
  | nil => simp at hn
  | cons y ys ih =>
    have hlen := wireBits_length lsbFirst y
    rw [List.map_cons, List.flatten_cons]
    cases n with
    | zero =>
      obtain rfl : y = x := by simpa using hn
      rw [Nat.mul_zero, Nat.zero_add, List.getElem?_append_left (by omega)]
    | succ n =>
      rw [List.getElem?_append_right (by omega), hlen, show 8 * (n + 1) + m - 8 = 8 * n + m by omega]
      exact ih hn

/-- Settles O38: the wire is the bytes' bits one after the other (`flatten_wireBits_getElem?`). -/
theorem wireOrder : Obligations.WireOrder := by
  intro p bytes hbits
  refine ⟨(bytes.map (wireBits p.spiLsbFirst)).flatten, by simp [wireOf, hbits], ?_, fun n m x hm hn => ?_⟩
  · simp [List.length_flatten, Function.comp_def, wireBits_length, Nat.mul_comm]
  · rw [flatten_wireBits_getElem? _ hm hn, wireBits_getElem? _ _ hm]

end Sys2Proof.Machine
end

section
/-! SUPPORT. The decoder on the tokens of a line (30_encoding.md R83-R87, R91): what the tokens of a line are, the
verdict of each check, and the command of a line that passes them all. -/

namespace Sys2Proof.Machine

/-! ## Tokens (30_encoding.md R83, R84) -/

/-- A run of bytes outside WS. -/
def IsRun (t : List Byte) : Prop := t ≠ [] ∧ ∀ c ∈ t, isSpaceByte c = false

theorem isSpaceByte_iff (c : Byte) :
    isSpaceByte c = true ↔ c = 0x20#8 ∨ c = 0x09#8 ∨ c = 0x0B#8 ∨ c = 0x0C#8 ∨ c = 0x0D#8 := by
  simp [isSpaceByte, or_assoc]

theorem splitAtSpace_ne_nil (line : List Byte) : splitAtSpace line ≠ [] := by
  induction line with
  | nil => simp [splitAtSpace]
  | cons c cs ih =>
    cases hc : isSpaceByte c with
    | true => simp [splitAtSpace, hc]
    | false =>
      obtain ⟨t, ts, hsplit⟩ := List.exists_cons_of_ne_nil ih
      simp [splitAtSpace, hc, hsplit]

/-- A WS byte ends the run before it. -/
theorem splitAtSpace_append_space (a b : List Byte) {c : Byte} (hc : isSpaceByte c = true) :
    splitAtSpace (a ++ c :: b) = splitAtSpace a ++ splitAtSpace b := by
  induction a with
  | nil => simp [splitAtSpace, hc]
  | cons d a ih =>
    obtain ⟨t, ts, hsplit⟩ := List.exists_cons_of_ne_nil (splitAtSpace_ne_nil a)
    rw [hsplit] at ih
    cases hd : isSpaceByte d <;> simp [splitAtSpace, hd, ih, hsplit]

theorem splitAtSpace_of_no_space {run : List Byte} (h : ∀ c ∈ run, isSpaceByte c = false) :
    splitAtSpace run = [run] := by
  induction run with
  | nil => rfl
  | cons c run ih =>
    rw [List.forall_mem_cons] at h
    simp [splitAtSpace, h.1, ih h.2]

theorem tokens_append_space (a b : List Byte) {c : Byte} (hc : isSpaceByte c = true) :
    tokens (a ++ c :: b) = tokens a ++ tokens b := by
  rw [tokens, splitAtSpace_append_space a b hc, List.filter_append]
  rfl

theorem tokens_run {run : List Byte} (h : IsRun run) : tokens run = [run] := by
  simp [tokens, splitAtSpace_of_no_space h.2, h.1]

/-- The decoder reads the tokens only. -/
theorem decodeLine_congr {line line' : List Byte} (h : tokens line = tokens line') :
    decodeLine line = decodeLine line' := by
  simp only [decodeLine, h]

/-- Settles O4: the cut at a WS byte (`tokens_append_space`) and the line without one (`tokens_run`). -/
theorem tokensAreMaximalRuns : Obligations.TokensAreMaximalRuns := by
  refine ⟨isSpaceByte_iff, rfl, fun run hne h => tokens_run ⟨hne, h⟩, fun a b c hc => tokens_append_space a b hc,
    fun line => decodeLine_congr ?_⟩
  rw [tokens_append_space line [] (by decide), show tokens [] = [] from rfl, List.append_nil]

/-! ## The checks (30_encoding.md R91) -/

theorem mnemonicOf_mnemonicBytes (m : Mnemonic) : mnemonicOf (mnemonicBytes m) = some m := by
  cases m <;> decide

theorem mnemonicOf_eq_none {t : List Byte} (h : ∀ m, mnemonicBytes m ≠ t) : mnemonicOf t = none := by
  simp [mnemonicOf, h]

theorem decodeLine_empty {line : List Byte} (h : tokens line = []) : decodeLine line = .drop .empty := by
  simp only [decodeLine, h]

theorem decodeLine_unknown {line t : List Byte} {args : List (List Byte)} (h : tokens line = t :: args)
    (hm : ∀ m, mnemonicBytes m ≠ t) : decodeLine line = .drop .unknown := by
  simp only [decodeLine, h, mnemonicOf_eq_none hm]

section
variable {line : List Byte} {m : Mnemonic} {args : List (List Byte)} (h : tokens line = mnemonicBytes m :: args)
include h

theorem decodeLine_few (hfew : args.length < arity m) : decodeLine line = .drop .args := by
  simp only [decodeLine, h, mnemonicOf_mnemonicBytes, Nat.blt_eq.mpr hfew, cond_true]

theorem decodeLine_enough (henough : arity m ≤ args.length) :
    decodeLine line = (parseArgs m args).elim (.drop .args) .cmd := by
  have hblt : Nat.blt args.length (arity m) = false := by
    rw [← Bool.not_eq_true, Nat.blt_eq]
    omega
  simp only [decodeLine, h, mnemonicOf_mnemonicBytes, hblt, cond_false]
  cases parseArgs m args <;> rfl

theorem decodeLine_cmd (henough : arity m ≤ args.length) {i : Instr} (hparse : parseArgs m args = some i) :
    decodeLine line = .cmd i := by
  rw [decodeLine_enough h henough, hparse, Option.elim_some]

end

/-- A command's arguments parse unless one of them fails its grammar: a match on the arguments in turn stops at the
first that fails. -/
theorem parseArgs_eq_none_iff (m : Mnemonic) (args : List (List Byte)) :
    parseArgs m args = none ↔ ∃ k < arity m, ArgumentFails m (args.getD k []) := by
  cases m <;> simp only [parseArgs, argToken, arity, ArgumentFails, Nat.exists_lt_succ_left, Nat.not_lt_zero, false_and,
    exists_false, or_false, and_false, reduceCtorEq, Option.map_eq_none_iff]
  case COLOR =>
    rcases parseInt (args.getD 0 []) with _ | r
    · simp
    rcases parseInt (args.getD 1 []) with _ | g
    · simp
    rcases parseInt (args.getD 2 []) with _ | b <;> simp
  case PIX =>
    rcases parseInt (args.getD 0 []) with _ | idx
    · simp
    rcases parseInt (args.getD 1 []) with _ | r
    · simp
    rcases parseInt (args.getD 2 []) with _ | g
    · simp
    rcases parseInt (args.getD 3 []) with _ | b <;> simp

/-- Settles O6, verdict by verdict; the last two turn on `parseArgs_eq_none_iff`. -/
theorem dropVerdicts : Obligations.DropVerdicts := by
  refine fun line => ⟨decodeLine_empty, fun t args h => ⟨decodeLine_unknown h, ?_⟩⟩
  rintro m rfl
  refine ⟨decodeLine_few h, fun hfails => ?_, fun henough hall => ?_⟩
  · rcases Nat.lt_or_ge args.length (arity m) with hfew | henough
    · exact decodeLine_few h hfew
    · rw [decodeLine_enough h henough, (parseArgs_eq_none_iff m args).mpr hfails, Option.elim_none]
  · have hparse : parseArgs m args ≠ none := by
      rw [Ne, parseArgs_eq_none_iff]
      rintro ⟨k, hk, hfails⟩
      exact hall k hk hfails
    obtain ⟨i, hi⟩ := Option.ne_none_iff_exists'.mp hparse
    exact ⟨i, decodeLine_cmd h henough hi⟩

/-! ## The formats (30_encoding.md R87), the examples of R97, and the commands that lines spell -/

/-- Settles O5: the tokens past the arity are no argument of `parseArgs`, so each format is `decodeLine_cmd`. -/
theorem lineFormats : Obligations.LineFormats := by
  refine ⟨fun line a b c more r g bl h ha hb hc => ?_, fun line a b c d more idx r g bl h ha hb hc hd => ?_,
    fun line a more x h ha => ?_, fun line a more x h ha => ?_, fun line a more x h ha => ?_,
    fun line more h => ?_, fun line more h => ?_, fun line more h => ?_⟩
  · exact decodeLine_cmd (m := .COLOR) h (by simp [arity]) (by simp [parseArgs, argToken, ha, hb, hc])
  · exact decodeLine_cmd (m := .PIX) h (by simp [arity]) (by simp [parseArgs, argToken, ha, hb, hc, hd])
  · exact decodeLine_cmd (m := .BRIGHT) h (by simp [arity]) (by simp [parseArgs, argToken, ha])
  · exact decodeLine_cmd (m := .GAMMA) h (by simp [arity]) (by simp [parseArgs, argToken, ha])
  · exact decodeLine_cmd (m := .SMOOTH) h (by simp [arity]) (by simp [parseArgs, argToken, ha])
  · exact decodeLine_cmd (m := .SHOW) h (Nat.zero_le _) rfl
  · exact decodeLine_cmd (m := .CLEAR) h (Nat.zero_le _) rfl
  · exact decodeLine_cmd (m := .STATUS) h (Nat.zero_le _) rfl

/-- Settles O3: six closed lines, each decoded by evaluation. -/
theorem exampleEncodingsDecode : Obligations.ExampleEncodingsDecode := by
  refine ⟨?color, ?pix, ?percent, ?fraction, ?unknown, ?showStrip⟩
  all_goals decide +kernel

/-- Settles O2: a line's command has its fields from `parseArgs`, whose numbers are in range. -/
theorem decodedCommandsAreWellFormed : Obligations.DecodedCommandsAreWellFormed :=
  fun _ _ h => ⟨decodeLine_wf h, decodeLine_ne_frame h⟩

end Sys2Proof.Machine
end

section
/-! SUPPORT. The pieces of a token, each read as the grammar of 30_encoding.md R88, R89 says: the decimal digits and their
number, the sign, INT, and the fraction and exponent of a NUM. -/

namespace Sys2Proof.Machine

/-! ## Digits -/

theorem isDigitByte_iff (c : Byte) : isDigitByte c = true ↔ 0x30 ≤ c.toNat ∧ c.toNat ≤ 0x39 := by
  simp [isDigitByte]

theorem isDigits_iff (s : List Byte) : IsDigits s ↔ ∀ c ∈ s, isDigitByte c = true := by
  simp only [IsDigits, isDigitByte_iff]

theorem allDigits_iff (s : List Byte) : allDigits s = true ↔ s ≠ [] ∧ IsDigits s := by
  simp [allDigits, isDigits_iff]

theorem isDigits_nil : IsDigits [] := nofun

theorem isDigits_cons {c : Byte} {s : List Byte} : IsDigits (c :: s) ↔ isDigitByte c = true ∧ IsDigits s := by
  simp only [isDigits_iff, List.forall_mem_cons]

theorem isDigits_append {s t : List Byte} : IsDigits (s ++ t) ↔ IsDigits s ∧ IsDigits t := by
  simp only [isDigits_iff, List.forall_mem_append]

theorem digitsNumber_cons (c : Byte) (s : List Byte) :
    digitsNumber (c :: s) = (c.toNat - 0x30) * 10 ^ s.length + digitsNumber s := by
  simp [digitsNumber, Nat.ofDigits_append]
  ring

theorem digitsNumber_append (s t : List Byte) :
    digitsNumber (s ++ t) = digitsNumber s * 10 ^ t.length + digitsNumber t := by
  simp [digitsNumber, Nat.ofDigits_append]
  ring

/-- The decoder's number of a string of digits is the decimal number it spells. -/
theorem digitsValue_eq (s : List Byte) : digitsValue s = digitsNumber s := by
  have hfold : ∀ v, s.foldl (fun v c => v * 10 + (c.toNat - 0x30)) v = v * 10 ^ s.length + digitsNumber s := by
    induction s with
    | nil => simp [digitsNumber]
    | cons c s ih =>
      intro v
      rw [List.foldl_cons, ih, digitsNumber_cons, List.length_cons]
      ring
  unfold digitsValue
  simpa using hfold 0

theorem digitsNumber_lt {s : List Byte} (h : IsDigits s) : digitsNumber s < 10 ^ s.length := by
  induction s with
  | nil => simp [digitsNumber]
  | cons c s ih =>
    rw [isDigits_cons, isDigitByte_iff] at h
    rw [digitsNumber_cons, List.length_cons, pow_succ]
    have := ih h.2
    nlinarith [show c.toNat - 0x30 ≤ 9 by omega]

/-! ## SIGN? -/

/-- A piece of a token that no sign begins. -/
def Unsigned (s : List Byte) : Prop := ∀ c ∈ s.head?, c ≠ bytePlus ∧ c ≠ byteMinus

/-- The decoder takes the sign off the front. -/
theorem takeSign_append {sign body : List Byte} (hsign : IsSign sign) (hbody : Unsigned body) :
    takeSign (sign ++ body) = (decide (sign = [byteMinus]), body) := by
  rcases hsign with rfl | rfl | rfl
  · cases body with
    | nil => rfl
    | cons c body =>
      obtain ⟨hplus, hminus⟩ := hbody c rfl
      simp [takeSign, beq_eq_false_iff_ne.mpr hplus, beq_eq_false_iff_ne.mpr hminus]
  · simp [takeSign, bytePlus, byteMinus]
  · simp [takeSign, byteMinus]

theorem takeSign_spec (tok : List Byte) :
    ∃ sign, IsSign sign ∧ tok = sign ++ (takeSign tok).2 ∧ (takeSign tok).1 = decide (sign = [byteMinus]) := by
  cases tok with
  | nil => exact ⟨[], .inl rfl, rfl, rfl⟩
  | cons c cs =>
    cases hminus : c == byteMinus with
    | true =>
      obtain rfl := beq_iff_eq.mp hminus
      exact ⟨[byteMinus], .inr (.inr rfl), by simp [takeSign]⟩
    | false =>
      cases hplus : c == bytePlus with
      | true =>
        obtain rfl := beq_iff_eq.mp hplus
        exact ⟨[bytePlus], .inr (.inl rfl), by simp [takeSign, hminus], by simp [takeSign, bytePlus, byteMinus]⟩
      | false => exact ⟨[], .inl rfl, by simp [takeSign, hminus, hplus]⟩

theorem unsigned_of_digit {c : Byte} {s : List Byte} (h : isDigitByte c = true) : Unsigned (c :: s) := by
  rintro d ⟨⟩
  rw [isDigitByte_iff] at h
  constructor <;> rintro rfl <;> simp [bytePlus, byteMinus] at h

theorem unsigned_of_isDigits {s : List Byte} (h : IsDigits s) : Unsigned s := by
  cases s with
  | nil => nofun
  | cons c s => exact unsigned_of_digit (isDigits_cons.mp h).1

theorem signed_eq (neg : Bool) (v : ℕ) : signed neg v = if neg then -(v : ℤ) else v := by
  cases neg <;> rfl

/-! ## INT (30_encoding.md R88) -/

theorem i32InRange_iff (v : ℤ) : i32InRange v = true ↔ -2147483648 ≤ v ∧ v ≤ 2147483647 := by
  simp [i32InRange]

theorem parseInt_eq_some_iff (tok : List Byte) (v : ℤ) :
    parseInt tok = some v ↔
      allDigits (takeSign tok).2 = true ∧ v = signed (takeSign tok).1 (digitsValue (takeSign tok).2) ∧
        i32InRange v = true := by
  simp only [parseInt, Bool.cond_eq_ite, Bool.and_eq_true, Option.ite_none_right_eq_some, Option.some_inj]
  constructor
  · rintro ⟨⟨hdigits, hrange⟩, rfl⟩
    exact ⟨hdigits, rfl, hrange⟩
  · rintro ⟨hdigits, rfl, hrange⟩
    exact ⟨⟨hdigits, hrange⟩, rfl⟩

/-- Settles O7: the sign taken off (`takeSign_spec`, `takeSign_append`), the digits are the rest. -/
theorem integerTokens : Obligations.IntegerTokens := by
  intro tok v
  rw [parseInt_eq_some_iff, allDigits_iff, digitsValue_eq, i32InRange_iff, signed_eq]
  constructor
  · rintro ⟨⟨hne, hdigits⟩, hv, hrange⟩
    obtain ⟨sign, hsign, htok, hneg⟩ := takeSign_spec tok
    refine ⟨sign, (takeSign tok).2, hsign, hne, hdigits, htok, ?_, hrange⟩
    simpa [hneg] using hv
  · rintro ⟨sign, ds, hsign, hne, hdigits, rfl, hv, hrange⟩
    rw [takeSign_append hsign (unsigned_of_isDigits hdigits)]
    exact ⟨⟨hne, hdigits⟩, by simpa using hv, hrange⟩

/-! ## The fraction and the exponent of a NUM (30_encoding.md R89) -/

/-- A piece of a token that no digit begins. -/
def NoDigitFirst (s : List Byte) : Prop := ∀ c ∈ s.head?, isDigitByte c = false

/-- DIGIT* takes all the digits there are. -/
theorem digits_append {s rest : List Byte} (hs : IsDigits s) (hrest : NoDigitFirst rest) :
    (s ++ rest).takeWhile isDigitByte = s ∧ (s ++ rest).dropWhile isDigitByte = rest := by
  rw [isDigits_iff] at hs
  rw [List.takeWhile_append_of_pos hs, List.dropWhile_append_of_pos hs]
  cases rest with
  | nil => simp
  | cons c rest => simp [hrest c rfl]

theorem takeWhile_isDigits (s : List Byte) : IsDigits (s.takeWhile isDigitByte) := by
  rw [isDigits_iff]
  exact fun c hc => List.mem_takeWhile_imp hc

/-- `'.' DIGIT*`, or nothing. -/
def pointText (point : Bool) (frac : List Byte) : List Byte := if point then byteDot :: frac else []

theorem byteDot_not_digit : isDigitByte byteDot = false := by decide

theorem takeFraction_append {point : Bool} {frac rest : List Byte} (hfrac : IsDigits frac)
    (hpoint : point = false → frac = []) (hrest : NoDigitFirst rest) (hdot : byteDot ∉ rest.head?) :
    takeFraction (pointText point frac ++ rest) = (frac, rest) := by
  cases point with
  | true =>
    obtain ⟨htake, hdrop⟩ := digits_append hfrac hrest
    simp [pointText, takeFraction, htake, hdrop]
  | false =>
    obtain rfl := hpoint rfl
    cases rest with
    | nil => rfl
    | cons c rest =>
      have hc : c ≠ byteDot := by simpa using hdot
      simp [pointText, takeFraction, beq_eq_false_iff_ne.mpr hc]

theorem takeFraction_spec (s : List Byte) :
    ∃ point, s = pointText point (takeFraction s).1 ++ (takeFraction s).2 ∧ IsDigits (takeFraction s).1 ∧
      (point = false → (takeFraction s).1 = []) := by
  cases s with
  | nil => exact ⟨false, rfl, isDigits_nil, fun _ => rfl⟩
  | cons c s =>
    cases hc : c == byteDot with
    | true =>
      refine ⟨true, ?_⟩
      obtain rfl := beq_iff_eq.mp hc
      simp [takeFraction, pointText, takeWhile_isDigits]
    | false => exact ⟨false, by simp [takeFraction, hc, pointText, isDigits_nil]⟩

/-- The part of `NumToken.Legal` on EXP?. -/
structure ExpLegal (p : NumToken) : Prop where
  byte : ∀ e, p.expByte = some e → (e = 0x65#8 ∨ e = 0x45#8) ∧ p.expDigits ≠ []
  sign : IsSign p.expSign
  digits : IsDigits p.expDigits

theorem isExpByte_iff (c : Byte) : isExpByte c = true ↔ c = 0x65#8 ∨ c = 0x45#8 := by
  simp [isExpByte]

/-- EXP? begins with neither a digit nor a `.`. -/
theorem ExpLegal.head {p : NumToken} (h : ExpLegal p) : NoDigitFirst p.expText ∧ byteDot ∉ p.expText.head? := by
  unfold NumToken.expText
  cases hbyte : p.expByte with
  | none => exact ⟨nofun, nofun⟩
  | some e => rcases (h.byte e hbyte).1 with rfl | rfl <;> simp [NoDigitFirst] <;> decide

theorem parseExp_expText {p : NumToken} (h : ExpLegal p) : parseExp p.expText = some p.exponent := by
  unfold NumToken.expText NumToken.exponent
  cases hbyte : p.expByte with
  | none => rfl
  | some e =>
    obtain ⟨he, hne⟩ := h.byte e hbyte
    simp [parseExp, (isExpByte_iff e).mpr he, takeSign_append h.sign (unsigned_of_isDigits h.digits),
      (allDigits_iff _).mpr ⟨hne, h.digits⟩, signed_eq, digitsValue_eq]

theorem parseExp_spec {s : List Byte} {e : ℤ} (h : parseExp s = some e) :
    ∃ p : NumToken, ExpLegal p ∧ p.expText = s := by
  cases s with
  | nil => exact ⟨⟨[], [], false, [], none, [], []⟩, ⟨nofun, .inl rfl, isDigits_nil⟩, rfl⟩
  | cons c cs =>
    simp only [parseExp, Bool.cond_eq_ite, Option.ite_none_right_eq_some, allDigits_iff, isExpByte_iff] at h
    obtain ⟨hc, ⟨hne, hdigits⟩, -⟩ := h
    obtain ⟨sign, hsign, hcs, -⟩ := takeSign_spec cs
    refine ⟨⟨[], [], false, [], some c, sign, (takeSign cs).2⟩, ⟨?_, hsign, hdigits⟩, ?_⟩
    · rintro _ ⟨⟩
      exact ⟨hc, hne⟩
    · rw [NumToken.expText, ← hcs]

end Sys2Proof.Machine
end

section
/-! SUPPORT. The statements on NUM and BARG (30_encoding.md R89, R92): a token of the grammar is rounded from the rational
it spells (`parseNum_text`), and every NUM is such a token. -/

namespace Sys2Proof.Machine

/-! ## The rational that a NUM spells -/

/-- D·10^E as the fraction that the decoder rounds. -/
theorem decimal_fraction (D : ℕ) (E : ℤ) :
    ((D * 10 ^ E.toNat : ℕ) : ℚ) / (10 ^ (-E).toNat : ℕ) = D * (10 : ℚ) ^ E := by
  have h10 : (10 : ℚ) ≠ 0 := by norm_num
  have hE : E = (E.toNat : ℤ) - (-E).toNat := by omega
  conv_rhs => rw [hE, zpow_sub₀ h10, zpow_natCast, zpow_natCast]
  push_cast
  rw [mul_div_assoc]

/-- What the decoder makes of ±D·10^E: the nearest value, or none from the bound on. -/
theorem decimalPlain_spec (neg : Bool) (D : ℕ) (E : ℤ) :
    (D * (10 : ℚ) ^ E < overflowBound → ∃ x, decimalPlain neg D E = some x ∧ f32Sign x = neg ∧
        NearestEven (if neg then -(D * (10 : ℚ) ^ E) else D * (10 : ℚ) ^ E) x) ∧
      (overflowBound ≤ D * (10 : ℚ) ^ E → decimalPlain neg D E = none) := by
  have hden : 0 < 10 ^ (-E).toNat := by positivity
  rw [← decimal_fraction]
  refine ⟨fun hlt => ?_, fun hle => ?_⟩
  · have hfinite := roundMag_lt hden ((lt_overflowBound_iff hden).mp hlt)
    exact ⟨_, decimalPlain_of_finite hfinite.not_ge, f32Sign_f32Round .., f32Round_nearestEven hden neg hlt⟩
  · rw [← not_lt, lt_overflowBound_iff hden, not_lt] at hle
    exact if_pos (roundMag_eq_infinity hden hle).ge

theorem NumToken.magnitude_nonneg (p : NumToken) : 0 ≤ p.magnitude := by
  unfold NumToken.magnitude
  positivity

theorem NumToken.abs_value (p : NumToken) : |p.value| = p.magnitude := by
  unfold NumToken.value
  split
  · rw [abs_neg, abs_of_nonneg p.magnitude_nonneg]
  · exact abs_of_nonneg p.magnitude_nonneg

/-! ## The tokens that are NUM -/

/-- What the decoder takes for the whole digits, after SIGN?. -/
def numWhole (tok : List Byte) : List Byte := (takeSign tok).2.takeWhile isDigitByte

/-- What the decoder takes for the fraction digits. -/
def numFrac (tok : List Byte) : List Byte := (takeFraction ((takeSign tok).2.dropWhile isDigitByte)).1

/-- What the decoder takes for EXP?. -/
def numExp (tok : List Byte) : List Byte := (takeFraction ((takeSign tok).2.dropWhile isDigitByte)).2

theorem parseNum_eq (tok : List Byte) :
    parseNum tok = (parseExp (numExp tok)).bind fun e =>
      if numWhole tok ++ numFrac tok = [] then none
      else decimalF32 (takeSign tok).1 (numWhole tok ++ numFrac tok).length (digitsValue (numWhole tok ++ numFrac tok))
        (e - (numFrac tok).length) := by
  unfold parseNum numExp numFrac numWhole
  dsimp only
  cases parseExp (takeFraction ((takeSign tok).2.dropWhile isDigitByte)).2 with
  | none => rfl
  | some e => simp only [Option.bind_some, Bool.cond_eq_ite, List.isEmpty_iff]

/-- The pieces put together again are the token. -/
theorem numPieces_spec (tok : List Byte) :
    ∃ sign point, IsSign sign ∧ tok = sign ++ (numWhole tok ++ (pointText point (numFrac tok) ++ numExp tok)) ∧
      IsDigits (numWhole tok) ∧ IsDigits (numFrac tok) ∧ (point = false → numFrac tok = []) := by
  obtain ⟨sign, hsign, htok, -⟩ := takeSign_spec tok
  obtain ⟨point, hbody, hfrac, hpoint⟩ := takeFraction_spec ((takeSign tok).2.dropWhile isDigitByte)
  refine ⟨sign, point, hsign, ?_, takeWhile_isDigits _, hfrac, hpoint⟩
  unfold numFrac numExp numWhole
  rw [← hbody, List.takeWhile_append_dropWhile, ← htok]

theorem NumToken.text_eq (p : NumToken) : p.text = p.sign ++ (p.whole ++ (pointText p.point p.frac ++ p.expText)) := by
  simp [NumToken.text, pointText]

section
variable {p : NumToken} (h : p.Legal)
include h

theorem NumToken.Legal.expLegal : ExpLegal p := ⟨h.exp_byte, h.exp_sign, h.exp_digits⟩

/-- What follows the whole digits is a `.`, an exponent or nothing. -/
theorem noDigitFirst_afterWhole : NoDigitFirst (pointText p.point p.frac ++ p.expText) := by
  cases hpoint : p.point with
  | true =>
    rintro c ⟨⟩
    exact byteDot_not_digit
  | false => exact h.expLegal.head.1

/-- The mantissa begins with a digit or a `.`. -/
theorem unsigned_mantissa : Unsigned (p.whole ++ (pointText p.point p.frac ++ p.expText)) := by
  cases hwhole : p.whole with
  | cons c cs =>
    have hdigits := h.whole
    rw [hwhole, isDigits_cons] at hdigits
    exact unsigned_of_digit hdigits.1
  | nil =>
    have hpoint : p.point = true := (h.mantissa.resolve_left (by simp [hwhole])).1
    rw [hpoint]
    rintro c ⟨⟩
    decide

/-- The decoder's pieces of a token of the grammar are the grammar's. -/
theorem numPieces_text :
    (takeSign p.text).1 = decide (p.sign = [byteMinus]) ∧ numWhole p.text = p.whole ∧ numFrac p.text = p.frac ∧
      numExp p.text = p.expText := by
  obtain ⟨htake, hdrop⟩ := digits_append h.whole (noDigitFirst_afterWhole h)
  obtain ⟨hdigit, hdot⟩ := h.expLegal.head
  have hsign := takeSign_append h.sign (unsigned_mantissa h)
  have hfraction := takeFraction_append h.frac h.no_point hdigit hdot
  unfold numWhole numFrac numExp
  rw [p.text_eq, hsign, htake, hdrop, hfraction]
  exact ⟨rfl, rfl, rfl, rfl⟩

/-- A token of the grammar is rounded from the digits and the exponent it spells. -/
theorem parseNum_text :
    parseNum p.text = decimalPlain (decide (p.sign = [byteMinus])) (digitsNumber (p.whole ++ p.frac))
      (p.exponent - p.frac.length) := by
  obtain ⟨hsign, hwhole, hfrac, hexp⟩ := numPieces_text h
  have hlt := digitsNumber_lt (isDigits_append.mpr ⟨h.whole, h.frac⟩)
  have hne : p.whole ++ p.frac ≠ [] := by
    rw [Ne, List.append_eq_nil_iff]
    rintro ⟨hwhole, hfrac⟩
    rcases h.mantissa with hm | ⟨-, hm⟩ <;> contradiction
  rw [parseNum_eq, hsign, hwhole, hfrac, hexp, parseExp_expText h.expLegal, Option.bind_some, if_neg hne,
    digitsValue_eq, decimalF32_eq _ _ hlt]

end

/-- Every NUM is a token of the grammar. -/
theorem legal_of_parseNum {tok : List Byte} {x : F32} (h : parseNum tok = some x) :
    ∃ p : NumToken, p.Legal ∧ p.text = tok := by
  obtain ⟨sign, point, hsign, htok, hwhole, hfrac, hpoint⟩ := numPieces_spec tok
  rw [parseNum_eq, Option.bind_eq_some_iff] at h
  obtain ⟨e, he, hround⟩ := h
  rw [Option.ite_none_left_eq_some, List.append_eq_nil_iff] at hround
  obtain ⟨hne, -⟩ := hround
  obtain ⟨q, hq, hexp⟩ := parseExp_spec he
  refine ⟨{ q with sign, whole := numWhole tok, point, frac := numFrac tok },
    ⟨hsign, hwhole, hfrac, ?_, hpoint, hq.byte, hq.sign, hq.digits⟩, ?_⟩
  · by_cases hnil : numWhole tok = []
    · refine .inr ⟨?_, fun hfrac => hne ⟨hnil, hfrac⟩⟩
      by_contra hfalse
      exact hne ⟨hnil, hpoint (by simpa using hfalse)⟩
    · exact .inl hnil
  · rw [NumToken.text_eq]
    show sign ++ (numWhole tok ++ (pointText point (numFrac tok) ++ q.expText)) = tok
    rw [hexp, ← htok]

/-- Settles O8: the token is rounded as `parseNum_text` says, and `decimalPlain_spec` says what that is. -/
theorem numberTokens : Obligations.NumberTokens := by
  refine ⟨fun p h => ?_, fun tok x => legal_of_parseNum⟩
  obtain ⟨hfinite, hinfinite⟩ := decimalPlain_spec (decide (p.sign = [byteMinus])) (digitsNumber (p.whole ++ p.frac))
    (p.exponent - p.frac.length)
  rw [parseNum_text h, p.abs_value]
  refine ⟨fun hlt => ?_, hinfinite⟩
  obtain ⟨x, hx, hsign, hnear⟩ := hfinite hlt
  exact ⟨x, hx, by simpa [NumToken.value, NumToken.magnitude] using hnear, hsign⟩

/-! ## BARG (30_encoding.md R92) -/

theorem abs_lt_overflowBound {v : ℤ} (h : i32InRange v = true) : |(v : ℚ)| < overflowBound := by
  rw [i32InRange_iff] at h
  have hlow : (-2147483648 : ℚ) ≤ v := by exact_mod_cast h.1
  have hhigh : (v : ℚ) ≤ 2147483647 := by exact_mod_cast h.2
  rw [abs_lt, overflowBound]
  constructor <;> linarith

theorem brightOfInt_spec {v : ℤ} (h : i32InRange v = true) :
    f32Sign (brightOfInt v) = decide (v < 0) ∧ NearestEven (if 1 < v then (v : ℚ) / 100 else v) (brightOfInt v) := by
  have hbound := abs_lt_overflowBound h
  by_cases hv : 1 < v
  · have hround : brightOfInt v = f32Round (decide (v < 0)) v.natAbs 100 := by
      simp [brightOfInt, hv, show ¬ v < 0 by omega, show v.toNat = v.natAbs by omega]
    have hrounds := f32Round_int_roundsTo v (den := 100) (by norm_num)
    rw [hround, if_pos hv]
    refine ⟨hrounds.sign, hrounds.nearest ?_⟩
    rw [abs_div]
    exact (div_le_self (abs_nonneg _) (by norm_num)).trans_lt hbound
  · have hround : brightOfInt v = f32OfInt v := by simp [brightOfInt, hv]
    rw [hround, if_neg hv]
    exact ⟨(f32OfInt_roundsTo v).sign, (f32OfInt_roundsTo v).nearest hbound⟩

theorem parseBright_eq (tok : List Byte) :
    parseBright tok = if byteDot ∈ tok then parseNum tok else (parseInt tok).map brightOfInt := by
  rw [parseBright, List.any_beq', List.contains_eq_mem, Bool.cond_decide]

/-- Settles O9: the two branches of `parseBright_eq`, and the value of an integer (`brightOfInt_spec`). -/
theorem brightTokens : Obligations.BrightTokens := by
  intro tok
  rw [parseBright_eq]
  refine ⟨fun hdot => if_pos hdot, fun (hdot : byteDot ∉ tok) => ?_⟩
  rw [if_neg hdot]
  refine ⟨fun hnone => by rw [hnone, Option.map_none], fun v hv => ⟨brightOfInt v, by rw [hv, Option.map_some], ?_⟩⟩
  exact brightOfInt_spec (parseInt_inRange hv)

end Sys2Proof.Machine
end

section
/-! SUPPORT. The canonical spelling (30_encoding.md R95) read back: the digits of a number and of a fraction, the spelling of
a finite f32 as a token of the grammar, and the tokens of a spelled line. -/

namespace Sys2Proof.Machine

/-! ## Decimal digits -/

theorem digitByte_toNat {d : ℕ} (h : d < 10) : (digitByte d).toNat = 0x30 + d := by
  rw [digitByte, BitVec.toNat_ofNat]
  omega

theorem isDigitByte_digitByte {d : ℕ} (h : d < 10) : isDigitByte (digitByte d) = true := by
  rw [isDigitByte_iff, digitByte_toNat h]
  omega

theorem digitsNumber_digitByte_cons {d : ℕ} (h : d < 10) (s : List Byte) :
    digitsNumber (digitByte d :: s) = d * 10 ^ s.length + digitsNumber s := by
  rw [digitsNumber_cons, digitByte_toNat h, Nat.add_sub_cancel_left]

/-- s spells n in decimal. -/
structure Spells (s : List Byte) (n : ℕ) : Prop where
  ne_nil : s ≠ []
  digits : IsDigits s
  number : digitsNumber s = n

theorem natTextAux_spells (fuel : ℕ) : ∀ (n : ℕ) (acc : List Byte), n < fuel →
    ∃ s, natTextAux fuel n acc = s ++ acc ∧ Spells s n := by
  induction fuel with
  | zero => intro n acc h; omega
  | succ fuel ih =>
    intro n acc h
    have hlast : n % 10 < 10 := Nat.mod_lt _ (by norm_num)
    have hdigit : IsDigits [digitByte (n % 10)] := isDigits_cons.mpr ⟨isDigitByte_digitByte hlast, isDigits_nil⟩
    have hnumber : digitsNumber [digitByte (n % 10)] = n % 10 := by
      rw [digitsNumber_digitByte_cons hlast]
      simp [digitsNumber]
    unfold natTextAux
    cases hn : n / 10 == 0 with
    | true =>
      have : n / 10 = 0 := by simpa using hn
      exact ⟨[digitByte (n % 10)], rfl, by simp, hdigit, by omega⟩
    | false =>
      have : n / 10 ≠ 0 := by simpa using hn
      obtain ⟨s, hs, hspells⟩ := ih (n / 10) (digitByte (n % 10) :: acc) (by omega)
      refine ⟨s ++ [digitByte (n % 10)], by simp [hs], by simp, isDigits_append.mpr ⟨hspells.digits, hdigit⟩, ?_⟩
      rw [digitsNumber_append, hspells.number, hnumber, List.length_singleton]
      omega

theorem natText_spells (n : ℕ) : Spells (natText n) n := by
  obtain ⟨s, hs, hspells⟩ := natTextAux_spells (n + 1) n [] (Nat.lt_succ_self n)
  rw [natText, hs, List.append_nil]
  exact hspells

/-! ## INT -/

theorem intText_eq (v : ℤ) : intText v = (if v < 0 then [byteMinus] else []) ++ natText v.natAbs := by
  unfold intText
  by_cases hv : v < 0 <;> simp [hv]

theorem parseInt_intText {v : ℤ} (h : i32InRange v = true) : parseInt (intText v) = some v := by
  obtain ⟨hne, hdigits, hnumber⟩ := natText_spells v.natAbs
  refine (integerTokens _ _).mpr ⟨if v < 0 then [byteMinus] else [], natText v.natAbs, ?sign, hne, hdigits,
    intText_eq v, ?value, (i32InRange_iff v).mp h⟩
  case sign =>
    split
    · exact .inr (.inr rfl)
    · exact .inl rfl
  case value =>
    rw [hnumber]
    rcases lt_or_ge v 0 with hv | hv
    · simp [hv, abs_of_neg hv]
    · simp [hv.not_gt, abs_of_nonneg hv]

/-! ## NUM -/

/-- The digits of r / 2^149: no more than 149 are needed, since 2^149 divides 10^149. -/
theorem fracText_spells (fuel : ℕ) : ∀ r, r < f32Scale → f32Scale ∣ r * 10 ^ fuel →
    IsDigits (fracText fuel r) ∧ digitsNumber (fracText fuel r) * f32Scale = r * 10 ^ (fracText fuel r).length := by
  induction fuel with
  | zero =>
    intro r hr hdvd
    obtain rfl : r = 0 := Nat.eq_zero_of_dvd_of_lt (by simpa using hdvd) hr
    exact ⟨isDigits_nil, by simp [fracText, digitsNumber]⟩
  | succ fuel ih =>
    intro r hr hdvd
    unfold fracText
    cases hz : r == 0 with
    | true =>
      obtain rfl : r = 0 := by simpa using hz
      exact ⟨isDigits_nil, by simp [digitsNumber]⟩
    | false =>
      have hdigit : r * 10 / f32Scale < 10 := Nat.div_lt_of_lt_mul (by omega)
      have hdiv := Nat.div_add_mod (r * 10) f32Scale
      have hdvd' : f32Scale ∣ r * 10 % f32Scale * 10 ^ fuel := by
        rw [pow_succ', ← mul_assoc, ← hdiv, add_mul, mul_assoc] at hdvd
        exact (Nat.dvd_add_right (Dvd.intro _ rfl)).mp hdvd
      obtain ⟨hdigits, hnumber⟩ := ih (r * 10 % f32Scale) (Nat.mod_lt _ f32Scale_pos) hdvd'
      refine ⟨isDigits_cons.mpr ⟨isDigitByte_digitByte hdigit, hdigits⟩, ?_⟩
      rw [cond_false, digitsNumber_digitByte_cons hdigit, List.length_cons, add_mul, hnumber, pow_succ']
      linear_combination hdiv * 10 ^ (fracText fuel (r * 10 % f32Scale)).length

/-- The fraction digits that `numText` writes. -/
def numTextFrac (x : F32) : List Byte :=
  bif f32Mag x % f32Scale == 0 then [digitByte 0] else fracText 149 (f32Mag x % f32Scale)

theorem numTextFrac_spells (x : F32) :
    IsDigits (numTextFrac x) ∧
      digitsNumber (numTextFrac x) * f32Scale = f32Mag x % f32Scale * 10 ^ (numTextFrac x).length := by
  unfold numTextFrac
  cases hz : f32Mag x % f32Scale == 0 with
  | true =>
    have hzero : f32Mag x % f32Scale = 0 := by simpa using hz
    have hdigit := isDigitByte_digitByte (d := 0) (by norm_num)
    refine ⟨isDigits_cons.mpr ⟨hdigit, isDigits_nil⟩, ?_⟩
    rw [hzero, cond_true, digitsNumber_digitByte_cons (by norm_num)]
    simp [digitsNumber]
  | false =>
    refine fracText_spells 149 _ (Nat.mod_lt _ f32Scale_pos) (Dvd.dvd.mul_left ?_ _)
    exact pow_dvd_pow_of_dvd (by norm_num) 149

/-- The token that `numText` writes. -/
def numTextToken (x : F32) : NumToken where
  sign := if f32Sign x then [byteMinus] else []
  whole := natText (f32Mag x / f32Scale)
  point := true
  frac := numTextFrac x
  expByte := none
  expSign := []
  expDigits := []

theorem numText_eq (x : F32) : numText x = (numTextToken x).text := by
  simp only [NumToken.text_eq, numTextToken, NumToken.expText, pointText, numText, numTextFrac]
  cases f32Sign x <;> simp

theorem numTextToken_legal (x : F32) : (numTextToken x).Legal where
  sign := by
    unfold numTextToken
    split
    · exact .inr (.inr rfl)
    · exact .inl rfl
  whole := (natText_spells _).digits
  frac := (numTextFrac_spells x).1
  mantissa := .inl (natText_spells _).ne_nil
  no_point := nofun
  exp_byte := nofun
  exp_sign := .inl rfl
  exp_digits := isDigits_nil

/-- The spelling is exact. -/
theorem numTextToken_value (x : F32) : (numTextToken x).value = f32Value x := by
  have hfrac : (digitsNumber (numTextFrac x) * f32Scale : ℚ) =
      (f32Mag x % f32Scale : ℕ) * 10 ^ (numTextFrac x).length := by
    exact_mod_cast (numTextFrac_spells x).2
  have hmag : (f32Mag x : ℚ) = f32Scale * (f32Mag x / f32Scale : ℕ) + (f32Mag x % f32Scale : ℕ) := by
    exact_mod_cast (Nat.div_add_mod (f32Mag x) f32Scale).symm
  have hscale : (f32Scale : ℚ) ≠ 0 := by exact_mod_cast f32Scale_pos.ne'
  have hmagnitude : (numTextToken x).magnitude = f32Mag x / f32Scale := by
    simp only [NumToken.magnitude, NumToken.exponent, numTextToken, digitsNumber_append, (natText_spells _).number]
    rw [zero_sub, zpow_neg, zpow_natCast, eq_div_iff hscale, hmag]
    push_cast
    field_simp
    linear_combination hfrac
  have hsign : (numTextToken x).sign = [byteMinus] ↔ f32Sign x = true := by simp [numTextToken]
  rw [NumToken.value, hmagnitude, f32Value, f32Units_eq_ite]
  simp only [hsign]
  have hpow : (f32Scale : ℚ) = 2 ^ 149 := by norm_num [f32Scale]
  split <;> simp [hpow, neg_div]

/-- A finite value is told by its sign and its number. -/
theorem eq_of_value_eq {x y : F32} (hx : f32Finite x = true) (hy : f32Finite y = true) (hsign : f32Sign x = f32Sign y)
    (hvalue : f32Value x = f32Value y) : x = y := by
  have hunits : f32Units x = f32Units y := by
    unfold f32Value at hvalue
    exact_mod_cast (div_left_inj' (by norm_num)).mp hvalue
  have hmag : f32Mag x = f32Mag y := by
    rw [f32Units_eq_ite, f32Units_eq_ite, hsign] at hunits
    split at hunits <;> omega
  rw [← f32Round_self hx, ← f32Round_self hy, hsign, hmag]

/-- The largest finite value is (2^24 - 1)·2^253 units. -/
theorem f32Mag_le {x : F32} (hx : f32Finite x = true) : f32Mag x ≤ 16777215 * 2 ^ 253 := by
  have hexp : f32Exp x ≠ 255 := by simpa [f32Finite] using hx
  have hlt : f32Exp x < 256 := Nat.mod_lt _ (by norm_num)
  have hfrac : f32Frac x < 2 ^ 23 := Nat.mod_lt _ (by norm_num)
  unfold f32Mag
  cases f32Exp x == 0 with
  | true => exact hfrac.le.trans (by norm_num)
  | false => exact Nat.mul_le_mul (by omega) (Nat.pow_le_pow_right (by norm_num) (by omega))

theorem abs_f32Value_lt {x : F32} (hx : f32Finite x = true) : |f32Value x| < overflowBound := by
  have hmag : (f32Mag x : ℚ) ≤ 16777215 * 2 ^ 253 := by exact_mod_cast f32Mag_le hx
  have habs : |f32Value x| = f32Mag x / 2 ^ 149 := by
    rw [f32Value, f32Units_eq_ite, abs_div, abs_of_pos (by positivity : (0 : ℚ) < 2 ^ 149)]
    split <;> simp
  rw [habs, div_lt_iff₀ (by positivity), overflowBound]
  exact hmag.trans_lt (by norm_num)

/-- A finite value is the one nearest to itself, so its exact decimal is read back as it. -/
theorem parseNum_numText {x : F32} (hx : f32Finite x = true) : parseNum (numText x) = some x := by
  obtain ⟨y, hy, hnear, hsign⟩ := (numberTokens.1 _ (numTextToken_legal x)).1
    (by rw [numTextToken_value]; exact abs_f32Value_lt hx)
  rw [numTextToken_value] at hnear
  have hvalue : f32Value y = f32Value x := by
    have := (hnear.2 x hx).1
    rwa [sub_self, abs_zero, abs_nonpos_iff, sub_eq_zero] at this
  have hxsign : f32Sign y = f32Sign x := by
    rw [hsign, numTextToken]
    cases f32Sign x <;> simp
  rw [numText_eq, hy, eq_of_value_eq hnear.1 hx hxsign hvalue]

theorem parseBright_numText {x : F32} (hx : f32Finite x = true) : parseBright (numText x) = some x := by
  have hdot : byteDot ∈ numText x := by simp [numText]
  rw [parseBright_eq, if_pos hdot, parseNum_numText hx]

/-! ## The spelled line (30_encoding.md R95) -/

theorem tokens_spelled {run : List Byte} (hrun : IsRun run) {args : List (List Byte)} (h : ∀ a ∈ args, IsRun a) :
    tokens (run ++ (args.map (byteSpace :: ·)).flatten) = run :: args := by
  induction args generalizing run with
  | nil => simpa using tokens_run hrun
  | cons a args ih =>
    rw [List.forall_mem_cons] at h
    rw [List.map_cons, List.flatten_cons, List.cons_append, tokens_append_space _ _ (by decide), tokens_run hrun,
      ih h.1 h.2, List.singleton_append]

theorem tokens_spell (m : Mnemonic) {args : List (List Byte)} (h : ∀ a ∈ args, IsRun a) :
    tokens (spell m args) = mnemonicBytes m :: args := by
  refine tokens_spelled ?_ h
  cases m <;> simp [IsRun, mnemonicBytes] <;> decide

theorem not_space_of_digit {c : Byte} (h : isDigitByte c = true) : isSpaceByte c = false := by
  rw [← Bool.not_eq_true, isSpaceByte_iff]
  rw [isDigitByte_iff] at h
  rintro (rfl | rfl | rfl | rfl | rfl) <;> simp at h

theorem no_space_of_isDigits {s : List Byte} (h : IsDigits s) : ∀ c ∈ s, isSpaceByte c = false :=
  fun c hc => not_space_of_digit ((isDigits_iff s).mp h c hc)

theorem intText_isRun (v : ℤ) : IsRun (intText v) := by
  obtain ⟨hne, hdigits, -⟩ := natText_spells v.natAbs
  have hspace := no_space_of_isDigits hdigits
  unfold intText
  cases decide (v < 0) with
  | true => exact ⟨List.cons_ne_nil _ _, List.forall_mem_cons.mpr ⟨by decide, hspace⟩⟩
  | false => exact ⟨hne, hspace⟩

theorem numText_isRun (x : F32) : IsRun (numText x) := by
  have hwhole := no_space_of_isDigits (natText_spells (f32Mag x / f32Scale)).digits
  have hfrac := no_space_of_isDigits (numTextFrac_spells x).1
  have hsign : ∀ c ∈ bif f32Sign x then [byteMinus] else [], isSpaceByte c = false := by
    cases f32Sign x with
    | true => simp; decide
    | false => simp
  refine ⟨by simp [numText], ?_⟩
  show ∀ c ∈ _ ++ _ ++ byteDot :: numTextFrac x, isSpaceByte c = false
  simp only [List.forall_mem_append, List.forall_mem_cons]
  exact ⟨⟨hsign, hwhole⟩, by decide, hfrac⟩

/-- A command is read back if its spelling's arguments are each one token and parse to its fields. -/
theorem decode_encode_of_spell {m : Mnemonic} {args : List (List Byte)} {i : Instr}
    (hspell : encode i = .line (spell m args)) (hargs : ∀ a ∈ args, IsRun a) (harity : arity m ≤ args.length)
    (hparse : parseArgs m args = some i) :
    decode (encode i) = .cmd i := by
  rw [hspell]
  exact decodeLine_cmd (tokens_spell m hargs) harity hparse

/-- Settles O1: each argument of the spelling is one token (`intText_isRun`, `numText_isRun`) and is read back
(`parseInt_intText`, `parseNum_numText`). -/
theorem decodeEncodeAgree : Obligations.DecodeEncodeAgree := by
  intro i hi
  cases i with
  | color r g b =>
    simp only [Instr.wf, Bool.and_eq_true] at hi
    obtain ⟨⟨hr, hg⟩, hb⟩ := hi
    exact decode_encode_of_spell rfl (by simp [intText_isRun]) le_rfl
      (by simp [parseArgs, argToken, parseInt_intText hr, parseInt_intText hg, parseInt_intText hb])
  | pix idx r g b =>
    simp only [Instr.wf, Bool.and_eq_true] at hi
    obtain ⟨⟨⟨hidx, hr⟩, hg⟩, hb⟩ := hi
    exact decode_encode_of_spell rfl (by simp [intText_isRun]) le_rfl
      (by simp [parseArgs, argToken, parseInt_intText hidx, parseInt_intText hr, parseInt_intText hg,
        parseInt_intText hb])
  | bright x =>
    exact decode_encode_of_spell rfl (by simp [numText_isRun]) le_rfl
      (by simp [parseArgs, argToken, parseBright_numText hi])
  | gamma x =>
    exact decode_encode_of_spell rfl (by simp [numText_isRun]) le_rfl
      (by simp [parseArgs, argToken, parseNum_numText hi])
  | smooth x =>
    exact decode_encode_of_spell rfl (by simp [numText_isRun]) le_rfl
      (by simp [parseArgs, argToken, parseNum_numText hi])
  | showStrip | clear | status => exact decode_encode_of_spell rfl (by simp) le_rfl rfl
  | frame px => rfl

end Sys2Proof.Machine
end

section
/-! SUPPORT. Every step keeps frames and snapshots at 3N bytes, transition by transition (`Transition.framesWhole`), and BUSLOG
grows by whole frames with an answer that DEV_XFER can give (30_encoding.md R99, 00_scope.md R6, 41_color_state.md R149). -/

namespace Sys2Proof.Machine

/-! ## Frames and snapshots -/

/-- The clauses of `TransferInv` about the frame in transfer and the waiting snapshots. -/
structure FrameLengths (n : ℕ) (bus : Bus) (cs : List Channel) (fs : FrameSeq) : Prop where
  frame_length : bus.state ≠ .idle → bus.frame.length = 3 * n
  channel_snapshots : ∀ c ∈ cs, jobFrameLength n c.job = true
  fs_snapshot : jobFrameLength n fs.job = true

/-- Every frame and every snapshot of s is whole. -/
def FramesWhole (s : State) : Prop := FrameLengths s.params.n s.bus s.channels s.fs

theorem transferInv_iff (s : State) :
    TransferInv s ↔ FramesWhole s ∧ ∀ r ∈ s.buslog, recordLegal s.params.n r = true :=
  ⟨fun h => ⟨⟨h.frame_length, h.channel_snapshots, h.fs_snapshot⟩, h.records_legal⟩,
    fun ⟨h, hrecords⟩ => ⟨h.frame_length, h.channel_snapshots, h.fs_snapshot, hrecords⟩⟩

namespace FramesWhole

variable {s : State} (h : FramesWhole s)
include h

theorem snapshot_length {a : Agent} (ha : a ≠ .sys) : jobFrameLength s.params.n (jobOf a s) = true := by
  cases a with
  | ch k =>
    cases hfind : findChannel k s with
    | none => simp [jobOf, hfind, jobFrameLength]
    | some c => exact jobOf_ch hfind ▸ h.channel_snapshots c (findChannel_mem hfind)
  | fs => exact h.fs_snapshot
  | bus => rfl
  | sys => exact absurd rfl ha

theorem withBus {b : Bus} (hb : b.state ≠ .idle → b.frame.length = 3 * s.params.n) : FramesWhole (s.withBus b) :=
  ⟨hb, h.channel_snapshots, h.fs_snapshot⟩

/-- Channels whose snapshots stay whole. -/
theorem map_channels {f : Channel → Channel}
    (hf : ∀ c, jobFrameLength s.params.n c.job = true → jobFrameLength s.params.n (f c).job = true) :
    FramesWhole (s.withChannels (s.channels.map f)) := by
  refine ⟨h.frame_length, fun d hd => ?_, h.fs_snapshot⟩
  obtain ⟨c, hc, rfl⟩ := List.mem_map.mp hd
  exact hf c (h.channel_snapshots c hc)

theorem updateChannel (k : ℕ) {f : Channel → Channel}
    (hf : ∀ c, jobFrameLength s.params.n c.job = true → jobFrameLength s.params.n (f c).job = true) :
    FramesWhole (updateChannel k f s) := by
  refine h.map_channels fun c hc => ?_
  cases c.id == k with
  | true => exact hf c hc
  | false => exact hc

theorem map_keepsProgress {f : Channel → Channel} (hf : KeepsProgress f) :
    FramesWhole (s.withChannels (s.channels.map f)) := by
  refine h.map_channels fun c hc => ?_
  obtain ⟨-, -, hjob⟩ := hf c
  rwa [hjob]

theorem setJob (a : Agent) {j : Job} (hj : jobFrameLength s.params.n j = true) : FramesWhole (setJob a j s) := by
  cases a with
  | ch k => exact h.updateChannel k fun _ _ => hj
  | fs => exact ⟨h.frame_length, h.channel_snapshots, hj⟩
  | bus | sys => exact h

theorem completeJob (a : Agent) : FramesWhole (completeJob a s) := by
  cases a with
  | ch k => exact h.updateChannel k fun _ _ => rfl
  | fs =>
    refine ⟨h.frame_length, h.channel_snapshots, ?_⟩
    rw [Machine.completeJob, State.withFs_fs, fsAfterFrame_job]
    rfl
  | bus | sys => exact h

/-- A section ends with its whole output requested or waiting. -/
theorem endSection (a : Agent) (hout : s.color.mem.o.length = 3 * s.params.n) : FramesWhole (endSection a s) := by
  cases horder : s.params.busOrder with
  | inLock =>
    rw [endSection_inLock horder]
    exact setJob (s := (s.withLock (.held a)).withBus _) (h.withBus fun _ => hout) a rfl
  | snapshot =>
    rw [endSection_snapshot horder]
    exact h.setJob a (by simpa [jobFrameLength] using hout)

theorem acquireBusLock (a : Agent) {bytes : List Byte} (hbytes : bytes.length = 3 * s.params.n) :
    FramesWhole (acquireBusLock a bytes s) := by
  rcases acquireBusLock_cases a bytes s with ⟨-, -, heq⟩ | heq <;> rw [heq]
  · exact (h.withBus fun _ => hbytes).setJob a rfl
  · exact h

theorem releaseLock : FramesWhole (releaseLock s) := by
  rcases releaseLock_cases s with ⟨-, heq⟩ | ⟨-, heq⟩ <;> rw [heq]
  · exact h
  · exact h.withBus h.frame_length

theorem finishTransfer (a : Agent) : FramesWhole (finishTransfer a s) := by
  rcases finishTransfer_cases a s with ⟨-, heq⟩ | heq <;> rw [heq]
  · exact h.releaseLock.completeJob a
  · exact h

theorem started {t : State} {a : Agent} {i : Instr} (starts : CommandStarts s a i t) : FramesWhole t := by
  cases starts with
  | line channel idle ready fate => exact (h.map_keepsProgress (removeLine_keepsProgress.onChannel _)).setJob _ rfl
  | frame px mode request => exact h.setJob .fs rfl

/-- The output that the command leaves is what it transfers. -/
theorem ran {t : State} {i : Instr} (hout : t.color.mem.o.length = 3 * t.params.n) (result : ExecResult i s t) :
    FramesWhole t := by
  cases result with
  | waits => exact h
  | endsSection c es begins =>
    have hends := endSection_proceeds (runnerOf i s) ((s.withColor c).withEvlog es)
    rw [hends.color, hends.params] at hout
    exact endSection (s := (s.withColor c).withEvlog es) h _ hout
  | completes c es free => exact completeJob (s := (s.withColor c).withEvlog es) h _

end FramesWhole

theorem Transition.framesWhole {s t : State} (h : FramesWhole s) (hout : t.color.mem.o.length = 3 * t.params.n)
    (step : Transition s t) : FramesWhole t := by
  cases step with
  | unchanged | booted | openFailed => exact h
  | elapsed | woke => exact ⟨h.frame_length, h.channel_snapshots, h.fs_snapshot⟩
  | reset => exact ⟨fun hbusy => absurd rfl hbusy, nofun, rfl⟩
  | shutdown mode =>
    obtain ⟨-, hjob⟩ := haltFs_progress s.fs
    have hmap := h.map_keepsProgress discardLines_keepsProgress
    rw [shutdownRequest_of_run mode]
    exact ⟨hmap.frame_length, hmap.channel_snapshots, hjob ▸ h.fs_snapshot⟩
  | finalClear mode job quiet => exact ⟨fun _ => hout, h.channel_snapshots, h.fs_snapshot⟩
  | stopped mode job released => exact ⟨h.frame_length, nofun, h.fs_snapshot⟩
  | transferred res bus =>
    obtain ⟨es, heq⟩ := xferStep_eq res s
    rw [heq]
    exact h.withBus fun _ => h.frame_length (by simp [bus])
  | latchEnded bus => exact h.withBus fun hbusy => absurd rfl hbusy
  | opened k mode absent =>
    refine ⟨h.frame_length, fun c hc => ?_, h.fs_snapshot⟩
    rcases mem_insertChannel.mp hc with rfl | hc
    · rfl
    · exact h.channel_snapshots c hc
  | buffered k f es keeps => exact h.map_keepsProgress (keeps.onChannel k)
  | removed k c channel idle =>
    exact ⟨h.frame_length, fun d hd => h.channel_snapshots d (List.mem_of_mem_filter hd), h.fs_snapshot⟩
  | started a i t starts => exact h.started starts
  | ran a i s' t starts runs =>
    have hstarted : FramesWhole s' := h.started starts
    exact FramesWhole.ran (s := s'.withActor a) hstarted hout runs
  | retried a i t not_sys job runs => exact FramesWhole.ran (s := s.withActor a) h hout runs
  | awaitedBus a bytes not_sys job =>
    have hbytes := h.snapshot_length not_sys
    rw [job, jobFrameLength, beq_iff_eq] at hbytes
    exact h.acquireBusLock a hbytes
  | awaitedClient a not_sys job => exact h.finishTransfer a

/-! ## The records of BUSLOG -/

theorem recordLegal_iff (n : ℕ) (r : BusRecord) :
    recordLegal n r = true ↔ r.bytes.length = 3 * n ∧ xferAnswerLegal n r.result = true := by
  rw [recordLegal, Bool.and_eq_true, beq_iff_eq]
  cases r.result <;> rfl

theorem stepAction_bus {res : XferResult} {s t : State} (h : stepAction (.bus res) s = .next t) :
    t = busStep res s ∨ t = s := by
  unfold stepAction at h
  cases mode : s.mode <;> simp only [mode] at h <;> cases h
  case run | shutdown => exact .inl rfl
  case init | stopped => exact .inr rfl

/-- A new record is of the frame in transfer, with an answer that DEV_XFER can give. -/
theorem stepAction_records {a : Action} {s t : State} (h : stepAction a s = .next t) :
    ∀ r ∈ t.buslog, r ∈ s.buslog ∨
      (s.bus.state = .xfer ∧ r.bytes = s.bus.frame ∧ xferAnswerLegal s.params.n r.result = true) := by
  by_cases hreset : a = .reset
  · rw [hreset, stepAction_reset] at h
    cases h
    nofun
  obtain ⟨-, heq | ⟨res, rfl, hxfer, heq⟩⟩ := stepAction_logs h hreset
  · exact fun r hr => .inl (heq ▸ hr)
  have hlegal : xferAnswerLegal s.params.n res = true := by
    rcases busStep_cases res s with ⟨-, hlegal, -⟩ | ⟨hlatch, -⟩ | hstay
    · exact hlegal
    · simp [hxfer] at hlatch
    · obtain rfl : t = s := (stepAction_bus h).elim (·.trans hstay) id
      simp at heq
  intro r hr
  rw [heq, List.mem_append, List.mem_singleton] at hr
  exact hr.imp_right fun hnew => by rw [hnew]; exact ⟨hxfer, rfl, hlegal⟩

theorem stepAction_transferInv {a : Action} {s t : State} (hwf : s.color.mem.wf s.params.n = true) (h : TransferInv s)
    (hstep : stepAction a s = .next t) : TransferInv t := by
  obtain ⟨hparams, hlengths⟩ := stepAction_lengths hstep
  obtain ⟨-, -, hout⟩ := (memory_wf_iff _ _).mp (hlengths hwf)
  rw [transferInv_iff] at h ⊢
  obtain ⟨hframes, hrecords⟩ := h
  refine ⟨(stepAction_transition hstep).framesWhole hframes hout, fun r hr => ?_⟩
  rw [hparams]
  rcases stepAction_records hstep r hr with hold | ⟨hxfer, hbytes, hlegal⟩
  · exact hrecords r hold
  · exact (recordLegal_iff _ _).mpr ⟨hbytes ▸ hframes.frame_length (by simp [hxfer]), hlegal⟩

theorem TransferInv.consume {s : State} (h : TransferInv s) : TransferInv (consume s) := by
  rw [transferInv_iff, FramesWhole] at h ⊢
  simpa using h

/-- Settles O56, transition by transition (`stepAction_transferInv`). -/
theorem stepKeepsTransferInv : Obligations.StepKeepsTransferInv := by
  intro s t hwf h hstep
  exact stepAction_transferInv (by simpa using hwf) h.consume hstep

end Sys2Proof.Machine
end

section
/-! SUPPORT. The table of build as a table of reals (40_gamma_lut.md R121, R125, R126): the exact comparison of natural numbers
is a comparison with the real power (`reaches_iff_le_lutReal`), so the count of the reached thresholds is the rounded power
(`lutCount_eq_floor`), and the properties of R125 are those of the power function. -/

namespace Sys2Proof.Machine

/-! ## The real rule -/

/-- r of R121: 255·(i/255)^γ. -/
noncomputable def lutReal (γ : ℝ) (i : ℕ) : ℝ := 255 * ((i : ℝ) / 255) ^ γ

theorem lutReal_nonneg (γ : ℝ) (i : ℕ) : 0 ≤ lutReal γ i := by
  unfold lutReal
  positivity

theorem lutReal_mono {γ : ℝ} (hγ : 0 ≤ γ) : Monotone (lutReal γ) := by
  intro i j hij
  unfold lutReal
  gcongr

theorem lutReal_zero {γ : ℝ} (hγ : γ ≠ 0) : lutReal γ 0 = 0 := by
  simp [lutReal, Real.zero_rpow hγ]

theorem lutReal_255 (γ : ℝ) : lutReal γ 255 = 255 := by
  simp [lutReal]

theorem lutReal_one (i : ℕ) : lutReal 1 i = i := by
  rw [lutReal, Real.rpow_one]
  ring

/-- Both sides of threshold k + 1 raised to the power q and cleared of denominators: what is left is `reaches`. -/
theorem reaches_iff_le_lutReal (p : ℕ) {q : ℕ} (hq : 0 < q) (k i : ℕ) :
    reaches p q (k + 1) i = true ↔ (k : ℝ) + 1 / 2 ≤ lutReal ((p : ℝ) / q) i := by
  have hpow : (((i : ℝ) / 255) ^ ((p : ℝ) / q)) ^ q = ((i : ℝ) / 255) ^ p := by
    rw [← Real.rpow_mul_natCast (by positivity), div_mul_cancel₀ _ (by positivity), Real.rpow_natCast]
  calc reaches p q (k + 1) i = true
      ↔ (2 * k + 1) ^ q * 255 ^ p ≤ i ^ p * 510 ^ q := decide_eq_true_iff
    _ ↔ ((2 * k + 1 : ℝ) / 510) ^ q ≤ ((i : ℝ) / 255) ^ p := by
      rw [div_pow, div_pow, div_le_div_iff₀ (by positivity) (by positivity)]
      exact_mod_cast Iff.rfl
    _ ↔ (2 * k + 1 : ℝ) / 510 ≤ ((i : ℝ) / 255) ^ ((p : ℝ) / q) := by
      rw [← hpow, pow_le_pow_iff_left₀ (by positivity) (by positivity) hq.ne']
    _ ↔ (k : ℝ) + 1 / 2 ≤ lutReal ((p : ℝ) / q) i := by
      rw [lutReal, div_le_iff₀ (by positivity)]
      constructor <;> intro h <;> linarith

/-- The count of the reached thresholds is rnd(r) of R121; the clamp never acts, as 0 ≤ r ≤ 255. -/
theorem lutCount_eq_floor (p : ℕ) {q i : ℕ} (hq : 0 < q) (hi : i ≤ 255) :
    (lutCount p q i : ℤ) = ⌊lutReal ((p : ℝ) / q) i + 1 / 2⌋ := by
  have hle : lutReal ((p : ℝ) / q) i ≤ 255 := lutReal_255 ((p : ℝ) / q) ▸ lutReal_mono (by positivity) hi
  have hcount := lutCount_le p q i
  have reached (k : ℕ) (hk : k < 255) : k < lutCount p q i ↔ (k : ℝ) + 1 / 2 ≤ lutReal ((p : ℝ) / q) i :=
    (lutCount_iff p q i k hk).trans (reaches_iff_le_lutReal p hq k i)
  symm
  rw [Int.floor_eq_iff, Int.cast_natCast]
  constructor
  · cases hv : lutCount p q i with
    | zero => simpa using (lutReal_nonneg _ i).trans (le_add_of_nonneg_right (by norm_num))
    | succ k =>
      have := (reached k (by omega)).mp (by omega)
      push_cast
      linarith
  · rcases hcount.lt_or_eq with hlt | htop
    · have := mt (reached _ hlt).mpr (lt_irrefl _)
      linarith
    · rw [htop]
      push_cast
      linarith

/-! ## The exponent -/

theorem f32Units_pos_of_gammaLegal {g : F32} (h : gammaLegal g = true) : 0 < f32Units g := by
  have hpos : 0 < f32Units f32Hundredth := by decide
  simp only [gammaLegal, f32Lt, Bool.and_eq_true, decide_eq_true_eq] at h
  exact hpos.trans h.2.2

theorem f32Value_pos_of_gammaLegal {g : F32} (h : gammaLegal g = true) : 0 < f32Value g :=
  div_pos (Int.cast_pos.mpr (f32Units_pos_of_gammaLegal h)) (by positivity)

theorem f32Units_eq_f32Mag_of_pos {x : F32} (h : 0 < f32Units x) : f32Units x = f32Mag x := by
  rw [f32Units_eq_ite] at h ⊢
  split at h
  · omega
  · rename_i hsign
    exact if_neg hsign

/-- The fraction that build works with is real(g). -/
theorem f32Value_eq_gammaRatio {g : F32} (h : gammaLegal g = true) :
    f32Value g = ((gammaRatio g).1 : ℚ) / (gammaRatio g).2 := by
  obtain ⟨hratio, hq⟩ := gammaRatio_spec g
  have hcast : ((gammaRatio g).1 : ℚ) * 2 ^ 149 = (gammaRatio g).2 * f32Mag g := by exact_mod_cast hratio
  rw [f32Value, f32Units_eq_f32Mag_of_pos (f32Units_pos_of_gammaLegal h), Int.cast_natCast,
    div_eq_div_iff (by positivity) (by positivity), hcast, mul_comm]

/-! ## The table -/

/-- Entry i of build(g) is rnd(r) (R121, R126). -/
theorem lutLookup_buildLut_eq_floor {g : F32} (h : gammaLegal g = true) {i : ℕ} (hi : i ≤ 255) :
    ((lutLookup (buildLut g) i).toNat : ℤ) = ⌊lutReal (f32Value g : ℚ) i + 1 / 2⌋ := by
  rw [lutLookup_buildLut g (by omega), lutCount_eq_floor _ (gammaRatio_spec g).2 hi, f32Value_eq_gammaRatio h]
  push_cast
  rfl

/-- Where r is an integer, it is the entry. -/
theorem lutLookup_buildLut_of_lutReal_eq {g : F32} (h : gammaLegal g = true) {i n : ℕ} (hi : i ≤ 255)
    (hr : lutReal (f32Value g : ℚ) i = n) : (lutLookup (buildLut g) i).toNat = n := by
  have hentry := lutLookup_buildLut_eq_floor h hi
  have hround : ⌊(1 / 2 : ℝ)⌋ = 0 := by norm_num
  rw [hr, Int.floor_natCast_add, hround, add_zero] at hentry
  exact_mod_cast hentry

/-- Settles O12: entry i counts the thresholds that the real power reaches (`lutCount_eq_floor`), and the fraction that build
works with is real(g). -/
theorem lutIsTheExactRealTable : Obligations.LutIsTheExactRealTable := by
  intro g hg
  exact ⟨buildLut_length g, fun i hi => lutLookup_buildLut_eq_floor hg (by omega)⟩

/-- Settles O13 from the real rule: the power is 0 at 0, 1 at 1, increasing, and the identity for the exponent 1. -/
theorem lutProperties : Obligations.LutProperties := by
  intro g hg
  have hγ : (0 : ℝ) < (f32Value g : ℚ) := Rat.cast_pos.mpr (f32Value_pos_of_gammaLegal hg)
  refine ⟨?first, ?last, ?monotone, ?identity⟩
  case first =>
    exact BitVec.eq_of_toNat_eq
      (lutLookup_buildLut_of_lutReal_eq hg (by norm_num) (by simpa using lutReal_zero hγ.ne'))
  case last =>
    exact BitVec.eq_of_toNat_eq
      (lutLookup_buildLut_of_lutReal_eq hg le_rfl (by simpa using lutReal_255 _))
  case monotone =>
    intro i i' hle hi'
    have hfloor : ⌊lutReal (f32Value g : ℚ) i + 1 / 2⌋ ≤ ⌊lutReal (f32Value g : ℚ) i' + 1 / 2⌋ :=
      Int.floor_mono (by gcongr; exact lutReal_mono hγ.le hle)
    rw [← lutLookup_buildLut_eq_floor hg (hle.trans hi'), ← lutLookup_buildLut_eq_floor hg hi'] at hfloor
    exact_mod_cast hfloor
  case identity =>
    rintro rfl i hi
    have hone : f32Value 0x3F800000#32 = 1 := by
      have hunits : f32Units 0x3F800000#32 = 2 ^ 149 := by decide +kernel
      norm_num [f32Value, hunits]
    exact lutLookup_buildLut_of_lutReal_eq hg hi (by rw [hone, Rat.cast_one, lutReal_one])

end Sys2Proof.Machine
end

section
/-! SUPPORT. Shaping on exact values (41_color_state.md R144, R153): the comparisons and the clamp of finite values, `rndUnits` as
the floor of a rational, and from them the index and the byte that `shape` forms. -/

namespace Sys2Proof.Machine

/-! ## Finite values and their order -/

theorem f32Value_le_iff {x y : F32} : f32Value x ≤ f32Value y ↔ f32Units x ≤ f32Units y := by
  unfold f32Value
  rw [div_le_div_iff_of_pos_right (by positivity), Int.cast_le]

theorem f32Value_eq_of_units {x : F32} {u : ℤ} {r : ℚ} (hu : f32Units x = u) (hr : (u : ℚ) / 2 ^ 149 = r) :
    f32Value x = r := by
  rw [f32Value, hu, hr]

@[simp] theorem f32Value_f32Zero : f32Value f32Zero = 0 :=
  f32Value_eq_of_units (u := 0) (by decide) (by norm_num)

@[simp] theorem f32Value_f32One : f32Value f32One = 1 :=
  f32Value_eq_of_units (u := 2 ^ 149) (by decide +kernel) (by norm_num)

@[simp] theorem f32Value_f32Max255 : f32Value f32Max255 = 255 :=
  f32Value_eq_of_units (u := 255 * 2 ^ 149) (by decide +kernel) (by norm_num)

/-- Between finite values the IEEE comparison is that of the numbers. -/
theorem f32Lt_eq_decide {x y : F32} (hx : f32Finite x = true) (hy : f32Finite y = true) :
    f32Lt x y = decide (f32Value x < f32Value y) := by
  have hlt : f32Value x < f32Value y ↔ f32Units x < f32Units y := lt_iff_lt_of_le_iff_le f32Value_le_iff
  simp [f32Lt, f32IsNan_of_finite hx, f32IsNan_of_finite hy, hlt]

/-- clamp of finite values (00_scope.md R9). -/
theorem f32Value_f32Clamp {x lo hi : F32} (hx : f32Finite x = true) (hlo : f32Finite lo = true) (hhi : f32Finite hi = true)
    (hle : f32Value lo ≤ f32Value hi) :
    f32Value (f32Clamp x lo hi) = max (f32Value lo) (min (f32Value hi) (f32Value x)) := by
  unfold f32Clamp
  rw [f32Lt_eq_decide hx hlo, f32Lt_eq_decide hhi hx, Bool.cond_decide, Bool.cond_decide]
  split_ifs with hbelow habove
  · rw [min_eq_right (hbelow.le.trans hle), max_eq_left hbelow.le]
  · rw [min_eq_left habove.le, max_eq_right hle]
  · rw [min_eq_right (not_lt.mp habove), max_eq_right (not_lt.mp hbelow)]

/-- A magnitude with the exponent field of an infinity exceeds 1. -/
theorem f32Scale_lt_f32Mag_of_exp {x : F32} (h : f32Exp x = 255) : f32Scale < f32Mag x := by
  have hbeq : (f32Exp x == 0) = false := by rw [h]; rfl
  rw [f32Mag, hbeq, cond_false, h]
  calc f32Scale < 2 ^ 23 * 2 ^ (255 - 1) := by unfold f32Scale; norm_num
    _ ≤ (2 ^ 23 + f32Frac x) * 2 ^ (255 - 1) := Nat.mul_le_mul_right _ (Nat.le_add_right ..)

/-- What BRIGHT and ALPHA may hold: a finite number from 0 to 1 (10_state.md R24). -/
theorem unitLegal_bounds {x : F32} (h : unitLegal x = true) : f32Finite x = true ∧ 0 ≤ f32Value x ∧ f32Value x ≤ 1 := by
  have hbounds : f32Units f32Zero ≤ f32Units x ∧ f32Units x ≤ f32Units f32One := by
    simp only [unitLegal, f32Le, Bool.and_eq_true, decide_eq_true_eq] at h
    exact ⟨h.1.2, h.2.2⟩
  refine ⟨?_, by simpa using f32Value_le_iff.mpr hbounds.1, by simpa using f32Value_le_iff.mpr hbounds.2⟩
  have hzero : f32Units f32Zero = 0 := by decide
  have hone : f32Units f32One = f32Scale := by decide +kernel
  rw [hzero, hone, f32Units_eq_ite] at hbounds
  have hexp : f32Exp x ≠ 255 := by
    intro hinf
    have := f32Scale_lt_f32Mag_of_exp hinf
    split at hbounds <;> omega
  simpa [f32Finite] using hexp

/-! ## Rounding to an integer -/

/-- `rndUnits` is rnd of 00_scope.md R9. -/
theorem rndUnits_eq_floor (u : ℤ) : rndUnits u = ⌊(u : ℚ) / 2 ^ 149 + 1 / 2⌋ := by
  have hquot : (u : ℚ) / 2 ^ 149 + 1 / 2 = ((2 * u + f32Scale : ℤ) : ℚ) / ((2 * f32Scale : ℕ) : ℚ) := by
    rw [f32Scale]
    push_cast
    ring
  rw [hquot, Rat.floor_intCast_div_natCast, rndUnits]
  rfl

theorem clampByte_toNat (v : ℤ) : ((clampByte v).toNat : ℤ) = max 0 (min 255 v) := by
  rw [clampByte, BitVec.toNat_ofNat]
  omega

/-! ## The two stages of shape -/

/-- The index is rnd of the clamped target. -/
theorem shapeIndex_eq_floor {t : F32} (ht : f32Finite t = true) :
    shapeIndex t = ⌊max 0 (min 255 (f32Value t)) + 1 / 2⌋.toNat := by
  have hclamp := f32Value_f32Clamp (lo := f32Zero) (hi := f32Max255) ht (by decide) (by decide) (by simp)
  rw [f32Value_f32Zero, f32Value_f32Max255] at hclamp
  rw [shapeIndex, rndUnits_eq_floor, ← hclamp, f32Value]

/-- A clamped target rounds to an index of the table (20_memory.md R55). -/
theorem floor_clamped_mem_range (r : ℚ) :
    0 ≤ ⌊max 0 (min 255 r) + 1 / 2⌋ ∧ ⌊max 0 (min 255 r) + 1 / 2⌋ ≤ 255 := by
  have hlow : 0 ≤ max 0 (min 255 r) := le_max_left ..
  have hhigh : max 0 (min 255 r) ≤ 255 := max_le (by norm_num) (min_le_left ..)
  refine ⟨Int.floor_nonneg.mpr (by linarith), Int.lt_add_one_iff.mp (Int.floor_lt.mpr ?_)⟩
  push_cast
  linarith

/-- The byte is the clamped rnd of the product. -/
theorem scaleByte_toNat (b : F32) (gv : Byte) :
    ((scaleByte b gv).toNat : ℤ) = max 0 (min 255 ⌊(gv.toNat : ℚ) * f32Value b + 1 / 2⌋) := by
  rw [scaleByte, clampByte_toNat, rndUnits_eq_floor, f32Value]
  push_cast
  rw [mul_div_assoc]

/-- Settles O14: the index by `shapeIndex_eq_floor`, the byte by `scaleByte_toNat`. -/
theorem shapeIsExact : Obligations.ShapeIsExact := by
  intro lut b t _ ht
  obtain ⟨hlow, hhigh⟩ := floor_clamped_mem_range (f32Value t)
  refine ⟨hlow, hhigh, ?_⟩
  rw [shape, shapeIndex_eq_floor ht, scaleByte_toNat]

/-- A product with a factor of at most 1 does not round above the other factor. -/
theorem scaleByte_le {b : F32} (hb : unitLegal b = true) (gv : Byte) : (scaleByte b gv).toNat ≤ gv.toNat := by
  obtain ⟨-, -, hone⟩ := unitLegal_bounds hb
  have hproduct : (gv.toNat : ℚ) * f32Value b ≤ gv.toNat := mul_le_of_le_one_right (by positivity) hone
  have hfloor : ⌊(gv.toNat : ℚ) * f32Value b + 1 / 2⌋ < gv.toNat + 1 := Int.floor_lt.mpr (by push_cast; linarith)
  have hbyte := scaleByte_toNat b gv
  omega

theorem scaleByte_of_value_zero {b : F32} (hb : f32Value b = 0) (gv : Byte) : scaleByte b gv = 0#8 := by
  have hhalf : ⌊(1 / 2 : ℚ)⌋ = 0 := by norm_num
  have hbyte := scaleByte_toNat b gv
  rw [hb, mul_zero, zero_add, hhalf] at hbyte
  exact BitVec.eq_of_toNat_eq (by simpa using hbyte)

/-- Settles O15: shape ends in the brightness stage, whatever the target and the table. -/
theorem brightnessBound : Obligations.BrightnessBound := fun _ _ _ hb =>
  ⟨scaleByte_le hb _, fun hzero => scaleByte_of_value_zero hzero _⟩

end Sys2Proof.Machine
end

section
/-! SUPPORT. One smoothing step on exact values (41_color_state.md R143, R152, R154): what a nearest value is bounded by, when a
sum or a product is the operand itself, and that a step with a legal ALPHA from a target towards an i32 ends in a target. -/

namespace Sys2Proof.Machine

/-! ## The value a number rounds to -/

@[simp] theorem f32Value_f32NegZero : f32Value f32NegZero = 0 :=
  f32Value_eq_of_units (u := 0) (by decide) (by norm_num)

/-- Rounding does not pass a binary32 value above. -/
theorem NearestEven.le_of_le {r : ℚ} {x y : F32} (h : NearestEven r x) (hy : f32Finite y = true) (hr : r ≤ f32Value y) :
    f32Value x ≤ f32Value y := by
  have hnear := (h.2 y hy).1
  rw [abs_of_nonneg (sub_nonneg.mpr hr)] at hnear
  linarith [le_abs_self (f32Value x - r)]

/-- Rounding does not pass a binary32 value below. -/
theorem NearestEven.ge_of_ge {r : ℚ} {x y : F32} (h : NearestEven r x) (hy : f32Finite y = true) (hr : f32Value y ≤ r) :
    f32Value y ≤ f32Value x := by
  have hnear := (h.2 y hy).1
  rw [abs_of_nonpos (sub_nonpos.mpr hr)] at hnear
  linarith [neg_abs_le (f32Value x - r)]

/-- A binary32 value is the one nearest to itself. -/
theorem NearestEven.value_eq {x y : F32} (h : NearestEven (f32Value y) x) (hy : f32Finite y = true) :
    f32Value x = f32Value y :=
  le_antisymm (h.le_of_le hy le_rfl) (h.ge_of_ge hy le_rfl)

/-- Of a whole number of units only 0 rounds to 0. -/
theorem NearestEven.value_ne_zero {z : ℤ} {x : F32} (h : NearestEven ((z : ℚ) / 2 ^ 149) x) (hz : z ≠ 0) :
    f32Value x ≠ 0 := by
  have hunit : f32Value 1#32 = 1 / 2 ^ 149 := f32Value_eq_of_units (u := 1) (by decide) (by norm_num)
  have hpos : 0 < f32Value 1#32 := by rw [hunit]; positivity
  rcases lt_or_gt_of_ne hz with hneg | hgt
  · have hle : (z : ℚ) ≤ -1 := by exact_mod_cast Int.le_sub_one_of_lt hneg
    have hbelow := h.le_of_le (y := f32Neg 1#32) (by decide) (by
      rw [f32Value_neg, hunit, ← neg_div]
      gcongr)
    rw [f32Value_neg] at hbelow
    linarith
  · have hge : (1 : ℚ) ≤ z := by exact_mod_cast hgt
    have habove := h.ge_of_ge (y := 1#32) (by decide) (by
      rw [hunit]
      gcongr)
    linarith

theorem RoundsTo.finite {r : ℚ} {neg : Bool} {x : F32} (h : RoundsTo r neg x) (hr : |r| < overflowBound) :
    f32Finite x = true := (h.nearest hr).1

/-- A binary32 value rounds to itself, its sign given. -/
theorem RoundsTo.eq {neg : Bool} {x y : F32} (h : RoundsTo (f32Value y) neg x) (hy : f32Finite y = true)
    (hsign : neg = f32Sign y) : x = y := by
  have hnear := h.nearest (abs_f32Value_lt hy)
  exact eq_of_value_eq hnear.1 hy (h.sign.trans hsign) (hnear.value_eq hy)

theorem f32Value_eq_ite (x : F32) :
    f32Value x = if f32Sign x then -((f32Mag x : ℚ) / 2 ^ 149) else (f32Mag x : ℚ) / 2 ^ 149 := by
  rw [f32Value, f32Units_eq_ite]
  split <;> simp [neg_div]

/-- The sign of a finite value, as the rules of IEEE 754 for sums speak of it. -/
theorem f32Sign_eq_ite {x : F32} (hx : f32Finite x = true) :
    f32Sign x = if f32Value x = 0 then decide (x = f32NegZero) else decide (f32Value x < 0) := by
  rcases Nat.eq_zero_or_pos (f32Mag x) with hmag | hmag
  · have hzero : f32Value x = 0 := by simp [f32Value_eq_ite, hmag]
    have hx := eq_zero_of_mag_eq_zero hx hmag
    rw [if_pos hzero]
    cases hs : f32Sign x <;> rw [hx, hs] <;> decide
  · have hpos : (0 : ℚ) < (f32Mag x : ℚ) / 2 ^ 149 := by positivity
    rw [f32Value_eq_ite]
    cases f32Sign x with
    | true => simp [hmag.ne', hpos]
    | false => simp [hmag.ne', hpos.le]

/-- The largest finite value is 2^128 - 2^104. -/
theorem abs_f32Value_le {x : F32} (hx : f32Finite x = true) : |f32Value x| ≤ 2 ^ 128 - 2 ^ 104 := by
  have hmag : (f32Mag x : ℚ) ≤ 16777215 * 2 ^ 253 := by exact_mod_cast f32Mag_le hx
  have habs : |f32Value x| = f32Mag x / 2 ^ 149 := by
    have hnonneg : (0 : ℚ) ≤ f32Mag x / 2 ^ 149 := by positivity
    rw [f32Value_eq_ite]
    split
    · rw [abs_neg, abs_of_nonneg hnonneg]
    · exact abs_of_nonneg hnonneg
  rw [habs, div_le_iff₀ (by positivity)]
  exact hmag.trans (by norm_num)

/-! ## Sums and products that are an operand -/

theorem fmul_value_zero {a d : F32} (ha : f32Finite a = true) (hd : f32Finite d = true) (h : f32Value a = 0) :
    f32Finite (fmul a d) = true ∧ f32Value (fmul a d) = 0 := by
  have hrounds := fmul_roundsTo ha hd
  rw [h, zero_mul, ← f32Value_f32Zero] at hrounds
  have hnear := hrounds.nearest (abs_f32Value_lt (by decide))
  exact ⟨hnear.1, (hnear.value_eq (by decide)).trans f32Value_f32Zero⟩

theorem fmul_one {d : F32} (hd : f32Finite d = true) : fmul f32One d = d := by
  have hrounds := fmul_roundsTo (a := f32One) (by decide) hd
  rw [f32Value_f32One, one_mul] at hrounds
  exact hrounds.eq hd (by simp [show f32Sign f32One = false by decide])

/-- A sum that is a binary32 value is exact; a zero sum is +0.0 unless both addends are -0.0. -/
theorem fadd_eq {t d n : F32} (ht : f32Finite t = true) (hd : f32Finite d = true) (hn : f32Finite n = true)
    (hsum : f32Value t + f32Value d = f32Value n) (hne : n ≠ f32NegZero) (hsigns : ¬ (t = f32NegZero ∧ d = f32NegZero)) :
    fadd t d = n := by
  have hrounds := fadd_roundsTo ht hd
  rw [hsum] at hrounds
  exact hrounds.eq hn (by rw [f32Sign_eq_ite hn, decide_eq_false hsigns, decide_eq_false hne])

/-- A zero difference is -0.0 only from -0.0. -/
theorem fsub_ne_negZero {t n : F32} (ht : f32Finite t = true) (hn : f32Finite n = true) (hne : n ≠ f32NegZero)
    (hexact : f32Value (fsub n t) = f32Value n - f32Value t) : fsub n t ≠ f32NegZero := by
  intro hd
  have hsign := (fsub_roundsTo hn ht).sign
  rw [hd, f32Value_f32NegZero] at hexact
  rw [hd, if_pos hexact.symm, decide_eq_false fun h => hne h.1] at hsign
  exact absurd hsign (by decide)

/-- Settles O16: with ALPHA = 0 the product is a zero, with ALPHA = 1 it is the difference (`fmul_one`), and both sums are exact
(`fadd_eq`). -/
theorem smoothingEndpoints : Obligations.SmoothingEndpoints := by
  intro t n ht hn hbound
  have hd : f32Finite (fsub n t) = true := (fsub_roundsTo hn ht).finite hbound
  refine ⟨fun htne a ha hafin => ?alpha_zero, fun hne hexact => ?alpha_one⟩
  case alpha_zero =>
    obtain ⟨hpfin, hp⟩ := fmul_value_zero hafin hd ha
    exact fadd_eq ht hpfin ht (by rw [hp, add_zero]) htne fun h => htne h.1
  case alpha_one =>
    rw [fmul_one hd]
    exact fadd_eq ht hd hn (by rw [hexact, add_sub_cancel]) hne fun h => fsub_ne_negZero ht hn hne hexact h.2

/-! ## A step keeps a target a target (41_color_state.md R154) -/

/-- What T may hold: a finite value that is not -0.0. -/
def IsTarget (t : F32) : Prop := f32Finite t = true ∧ t ≠ f32NegZero

theorem targetsFinite_iff (m : Memory) : TargetsFinite m ↔ ∀ t ∈ m.t, IsTarget t := Iff.rfl

theorem isTarget_f32Zero : IsTarget f32Zero := ⟨by decide, by decide⟩

/-- What a target is smoothed towards: the value of an i32. -/
def IsSmoothingInput (n : F32) : Prop := IsTarget n ∧ |f32Value n| ≤ 2 ^ 31

/-- A zero sum is -0.0 only of two negative zeros, and no other sum rounds to 0. -/
theorem fadd_isTarget {t p : F32} (ht : IsTarget t) (hp : f32Finite p = true)
    (hbound : |f32Value t + f32Value p| < overflowBound) : IsTarget (fadd t p) := by
  obtain ⟨htfin, htne⟩ := ht
  have hrounds := fadd_roundsTo htfin hp
  refine ⟨hrounds.finite hbound, fun hneg => ?_⟩
  have hsum : f32Value t + f32Value p = ((f32Units t + f32Units p : ℤ) : ℚ) / 2 ^ 149 := by
    rw [f32Value, f32Value, Int.cast_add, add_div]
  by_cases hz : f32Value t + f32Value p = 0
  · have hsign := hrounds.sign
    rw [if_pos hz, decide_eq_false fun h => htne h.1, hneg] at hsign
    exact absurd hsign (by decide)
  · have hunits : f32Units t + f32Units p ≠ 0 := fun h => hz (by rw [hsum, h]; simp)
    refine (hsum ▸ hrounds.nearest hbound).value_ne_zero hunits (by rw [hneg, f32Value_f32NegZero])

/-- The product with a legal ALPHA is finite, of the sign of the other factor or zero. -/
theorem fmul_between {a d : F32} (ha : unitLegal a = true) (hd : f32Finite d = true) :
    f32Finite (fmul a d) = true ∧ (0 ≤ f32Value d → 0 ≤ f32Value (fmul a d)) ∧
      (f32Value d ≤ 0 → f32Value (fmul a d) ≤ 0) := by
  obtain ⟨hafin, hlow, hhigh⟩ := unitLegal_bounds ha
  have hbound : |f32Value a * f32Value d| < overflowBound := by
    rw [abs_mul, abs_of_nonneg hlow]
    exact (mul_le_of_le_one_left (abs_nonneg _) hhigh).trans_lt (abs_f32Value_lt hd)
  have hnear := (fmul_roundsTo hafin hd).nearest hbound
  refine ⟨hnear.1, fun h => ?_, fun h => ?_⟩
  · simpa using hnear.ge_of_ge (y := f32Zero) (by decide) (by simpa using mul_nonneg hlow h)
  · simpa using hnear.le_of_le (y := f32Zero) (by decide) (by simpa using mul_nonpos_of_nonneg_of_nonpos hlow h)

/-- The product points from t towards n, so the sum lies between t and n plus the product: at most 2^31 beyond the largest finite
value, which is short of overflow. -/
theorem emaStep_isTarget {a t n : F32} (ha : unitLegal a = true) (ht : IsTarget t) (hn : IsSmoothingInput n) :
    IsTarget (emaStep a t n) := by
  obtain ⟨⟨hnfin, -⟩, hnle⟩ := hn
  have hover : (2 : ℚ) ^ 31 + (2 ^ 128 - 2 ^ 104) < overflowBound := by norm_num [overflowBound]
  have htle := abs_f32Value_le ht.1
  have hdiff : |f32Value n - f32Value t| < overflowBound := (abs_sub _ _).trans_lt (by linarith)
  have hdnear := (fsub_roundsTo hnfin ht.1).nearest hdiff
  obtain ⟨hpfin, hpnonneg, hpnonpos⟩ := fmul_between ha hdnear.1
  have hple := abs_f32Value_le hpfin
  refine fadd_isTarget ht hpfin ?_
  rw [abs_le] at hnle htle hple
  rcases le_total (f32Value t) (f32Value n) with hup | hdown
  · have hd := hdnear.ge_of_ge (y := f32Zero) (by decide) (by simpa using hup)
    have hp := hpnonneg (by simpa using hd)
    exact abs_lt.mpr ⟨by linarith, by linarith⟩
  · have hd := hdnear.le_of_le (y := f32Zero) (by decide) (by simpa using hdown)
    have hp := hpnonpos (by simpa using hd)
    exact abs_lt.mpr ⟨by linarith, by linarith⟩

/-! ## The inputs of a step -/

/-- An i32 operand, as COLOR and PIX use it (00_scope.md R10). -/
theorem f32OfInt_isSmoothingInput {v : ℤ} (hv : i32InRange v = true) : IsSmoothingInput (f32OfInt v) := by
  have hbound := abs_lt_overflowBound hv
  have hrounds := f32OfInt_roundsTo v
  have hnear := hrounds.nearest hbound
  rw [i32InRange_iff] at hv
  have hlow : (-2147483648 : ℚ) ≤ v := by exact_mod_cast hv.1
  have hhigh : (v : ℚ) ≤ 2147483647 := by exact_mod_cast hv.2
  have htop : f32Value 0x4F000000#32 = 2 ^ 31 := f32Value_eq_of_units (u := 2 ^ 180) (by decide +kernel) (by norm_num)
  refine ⟨⟨hnear.1, fun hneg => ?_⟩, abs_le.mpr ⟨?_, ?_⟩⟩
  · have hunits : (v : ℚ) = ((v * 2 ^ 149 : ℤ) : ℚ) / 2 ^ 149 := by
      rw [Int.cast_mul, Int.cast_pow, Int.cast_ofNat, mul_div_cancel_right₀ _ (by positivity)]
    have hvneg : v < 0 := by
      have hsign := hrounds.sign
      rw [hneg] at hsign
      simpa [show f32Sign f32NegZero = true by decide] using hsign
    refine (hunits ▸ hnear).value_ne_zero (mul_ne_zero hvneg.ne (by norm_num)) (by rw [hneg, f32Value_f32NegZero])
  · have := hnear.ge_of_ge (y := f32Neg 0x4F000000#32) (by decide) (by rw [f32Value_neg, htop]; linarith)
    rwa [f32Value_neg, htop] at this
  · have := hnear.le_of_le (y := 0x4F000000#32) (by decide) (by rw [htop]; linarith)
    rwa [htop] at this

theorem repeatColor_isSmoothingInput {n : ℕ} {r g b : F32} (hr : IsSmoothingInput r) (hg : IsSmoothingInput g)
    (hb : IsSmoothingInput b) : ∀ v ∈ repeatColor n r g b, IsSmoothingInput v := by
  induction n with
  | zero => nofun
  | succ n ih => simpa [repeatColor, hr, hg, hb] using ih

/-- A byte of a frame is an i32 (44_frame_port.md R262). -/
theorem frameInput_isSmoothingInput (px : List Pixel) : ∀ v ∈ frameInput px, IsSmoothingInput v := by
  intro v hv
  obtain ⟨x, -, rfl⟩ := List.mem_map.mp hv
  exact f32OfInt_isSmoothingInput ((i32InRange_iff _).mpr (by omega))

/-! ## Every step -/

theorem smoothAll_targetsFinite {c : ColorState} {new : List F32} (ha : unitLegal c.alpha = true)
    (ht : TargetsFinite c.mem) (hnew : ∀ v ∈ new, IsSmoothingInput v) : TargetsFinite (smoothAll new c).mem := by
  intro x hx
  obtain ⟨j, hj, rfl⟩ := List.mem_iff_getElem.mp hx
  simp only [smoothAll, List.getElem_zipWith]
  exact emaStep_isTarget ha (ht _ (List.getElem_mem _)) (hnew _ (List.getElem_mem _))

theorem smoothFitting_targetsFinite {n : ℕ} {c : ColorState} {new : List F32} (ha : unitLegal c.alpha = true)
    (ht : TargetsFinite c.mem) (hnew : ∀ v ∈ new, IsSmoothingInput v) : TargetsFinite (smoothFitting n new c).mem := by
  rcases smoothFitting_cases n new c with ⟨-, heq⟩ | heq <;> rw [heq]
  · exact smoothAll_targetsFinite ha ht hnew
  · exact ht

theorem writeT_targetsFinite {j : ℕ} {v : F32} {m : Memory} (hv : IsTarget v) (ht : TargetsFinite m) :
    TargetsFinite (writeT j v m) := by
  intro x hx
  rcases List.mem_or_eq_of_mem_set hx with hold | rfl
  · exact ht x hold
  · exact hv

theorem setPixel_targetsFinite {n : ℕ} {i r g b : ℤ} {c : ColorState} (hr : IsTarget (f32OfInt r))
    (hg : IsTarget (f32OfInt g)) (hb : IsTarget (f32OfInt b)) (ht : TargetsFinite c.mem) :
    TargetsFinite (setPixel n i r g b c).mem := by
  unfold setPixel
  cases decide (0 ≤ i) && decide (i < n) with
  | true => exact writeT_targetsFinite hb (writeT_targetsFinite hg (writeT_targetsFinite hr ht))
  | false => exact ht

@[simp] theorem setGamma_t (g : F32) (c : ColorState) : (setGamma g c).mem.t = c.mem.t := by
  unfold setGamma
  cases gammaRefused g <;> rfl

theorem clearColor_targetsFinite (n : ℕ) (c : ColorState) : TargetsFinite (clearColor n c).mem := by
  intro t ht
  rw [List.eq_of_mem_replicate ht]
  exact isTarget_f32Zero

/-- A well-formed command keeps every target finite: COLOR and FRAME smooth, PIX writes i32 values, CLEAR writes zeros, and the
others leave T alone. -/
theorem sectionColor_targetsFinite {n : ℕ} {i : Instr} {c : ColorState} (hi : i.wf = true)
    (ha : unitLegal c.alpha = true) (ht : TargetsFinite c.mem) : TargetsFinite (sectionColor n i c).mem := by
  cases i with
  | color r g b =>
    simp only [Instr.wf, Bool.and_eq_true] at hi
    obtain ⟨⟨hr, hg⟩, hb⟩ := hi
    exact smoothFitting_targetsFinite ha ht (repeatColor_isSmoothingInput (f32OfInt_isSmoothingInput hr)
      (f32OfInt_isSmoothingInput hg) (f32OfInt_isSmoothingInput hb))
  | pix idx r g b =>
    simp only [Instr.wf, Bool.and_eq_true] at hi
    obtain ⟨⟨⟨-, hr⟩, hg⟩, hb⟩ := hi
    exact setPixel_targetsFinite (f32OfInt_isSmoothingInput hr).1 (f32OfInt_isSmoothingInput hg).1
      (f32OfInt_isSmoothingInput hb).1 ht
  | gamma g =>
    rw [targetsFinite_iff, sectionColor, reshape_t, setGamma_t]
    exact ht
  | clear => exact clearColor_targetsFinite n c
  | frame px => exact smoothFitting_targetsFinite ha ht (frameInput_isSmoothingInput px)
  | bright _ | smooth _ | showStrip | status => exact ht

/-- An action keeps every target finite: the sections do, the boot and the reset write zeros. -/
theorem stepAction_targetsFinite {a : Action} {s t : State} (hcmd : CommandInv s) (halpha : unitLegal s.color.alpha = true)
    (ht : TargetsFinite s.color.mem) (h : stepAction a s = .next t) : TargetsFinite t.color.mem := by
  cases stepAction_result h with
  | reset input => exact resetWith_targetsFinite s.params
  | booted mode boots => exact clearColor_targetsFinite s.params.n _
  | openFailed mode boots => exact clearColor_targetsFinite s.params.n _
  | shutdown mode input => rw [shutdownRequest_of_run mode]; exact ht
  | stopped mode acts job released => exact ht
  | transferred res acts bus =>
    rw [(xferStep_proceeds res s).color]
    exact ht
  | advanced t steps =>
    rcases steps with hp | ⟨i, hi, hp⟩ <;> rw [hp.color]
    · exact ht
    · exact sectionColor_targetsFinite (hi hcmd) halpha ht

/-- Settles O55, action by action (`stepAction_targetsFinite`). -/
theorem stepKeepsTargetsFinite : Obligations.StepKeepsTargetsFinite := by
  intro s t hcmd hcolor ht h
  exact stepAction_targetsFinite hcmd.consume (by simpa using hcolor.alpha_legal) (by simpa using ht) h

end Sys2Proof.Machine
end

section
/-! SUPPORT. What one step can make of the bus, said once (`stepAction_busResult`): a request on the IDLE bus or a change of
BUS_LOCK by an agent, the two steps of BUS, and elapsed time (42_bus_writer.md R180-R189); and the two statements read off it, on
the transitions of BUS_STATE and on the latch. -/

namespace Sys2Proof.Machine

/-! ## The agents and the bus (42_bus_writer.md R181, R188, R189) -/

/-- What an agent other than BUS can make of the bus: it takes or gives back BUS_LOCK, or requests a transfer once the bus is
IDLE. -/
inductive AgentMovesBus (b : Bus) : Bus → Prop
  | relocks (l : Lock) : AgentMovesBus b { b with lock := l }
  | requests (idle : b.state = .idle) (bytes : List Byte) (client : Option Agent) (l : Lock) :
      AgentMovesBus b { b with state := .xfer, frame := bytes, client := client, lock := l }

theorem AgentMovesBus.refl (b : Bus) : AgentMovesBus b b := .relocks b.lock

theorem AgentMovesBus.of_eq {b b' : Bus} (h : b' = b) : AgentMovesBus b b' := h ▸ .refl b

theorem setJob_bus (a : Agent) (j : Job) (s : State) : (setJob a j s).bus = s.bus := by
  obtain ⟨-, -, -, -, hbus, -⟩ := setJob_frame a j s
  exact hbus

theorem completeJob_bus (a : Agent) (s : State) : (completeJob a s).bus = s.bus := by
  obtain ⟨-, -, -, -, hbus, -⟩ := completeJob_frame a s
  exact hbus

theorem endSection_movesBus (a : Agent) {s : State} (begins : mayBeginTransfer s = true) :
    AgentMovesBus s.bus (endSection a s).bus := by
  cases horder : s.params.busOrder with
  | inLock =>
    rw [endSection_inLock horder, setJob_bus]
    exact .requests (((mayBeginTransfer_iff s).mp begins).2 horder) _ _ _
  | snapshot =>
    rw [endSection_snapshot horder]
    exact .of_eq (setJob_bus ..)

theorem ExecResult.movesBus {i : Instr} {s t : State} (result : ExecResult i s t) : AgentMovesBus s.bus t.bus := by
  cases result with
  | waits => exact .refl _
  | endsSection c es begins => exact endSection_movesBus (s := (s.withColor c).withEvlog es) _ begins
  | completes c es free => exact .of_eq (completeJob_bus ..)

theorem acquireBusLock_movesBus (a : Agent) (bytes : List Byte) (s : State) :
    AgentMovesBus s.bus (acquireBusLock a bytes s).bus := by
  rcases acquireBusLock_cases a bytes s with ⟨-, idle, heq⟩ | heq <;> rw [heq]
  · rw [requestTransfer, setJob_bus]
    exact .requests idle bytes (some a) (.held a)
  · exact .refl _

theorem finishTransfer_movesBus (a : Agent) (s : State) : AgentMovesBus s.bus (finishTransfer a s).bus := by
  rcases finishTransfer_cases a s with ⟨-, heq⟩ | heq <;> rw [heq]
  · rw [completeJob_bus]
    rcases releaseLock_cases s with ⟨-, heq⟩ | ⟨-, heq⟩ <;> rw [heq]
    · exact .refl _
    · exact .relocks .free
  · exact .refl _

theorem jobStep_movesBus {a : Agent} {j : Job} {s t : State} (h : jobStep a j s = .next t) :
    AgentMovesBus s.bus t.bus := by
  cases j with
  | idle => cases h; exact .refl _
  | waitLock i => exact (exec_result h).movesBus
  | waitBus bytes => cases h; exact acquireBusLock_movesBus a bytes s
  | transfer => cases h; exact finishTransfer_movesBus a s

theorem takeLine_bus (k : ℕ) (fate : LineFate) (s : State) : (takeLine k fate s).bus = s.bus := by
  cases fate <;> rfl

theorem runLine_movesBus {k : ℕ} {fate : LineFate} {s t : State} (h : runLine k fate s = .next t) :
    AgentMovesBus s.bus t.bus := by
  cases fate with
  | command i => exact (exec_result h).movesBus
  | tail | overlong | dropped d => cases h; exact .of_eq (takeLine_bus ..)

theorem idleChannelStep_movesBus {k : ℕ} {c : Channel} {s t : State} (h : idleChannelStep k c s = .next t) :
    AgentMovesBus s.bus t.bus := by
  unfold idleChannelStep at h
  cases ready : canTakeLine s c with
  | true =>
    rw [ready, cond_true] at h
    exact runLine_movesBus h
  | false =>
    cases hremove : canRemove c <;> simp only [ready, hremove, cond_true, cond_false] at h <;> cases h
    · exact .refl _
    · exact .refl _

theorem chStep_movesBus {k : ℕ} {s t : State} (h : chStep k s = .next t) : AgentMovesBus s.bus t.bus := by
  unfold chStep at h
  cases channel : findChannel k s with
  | none => simp only [channel] at h; cases h; exact .refl _
  | some c =>
    simp only [channel] at h
    split at h
    · exact idleChannelStep_movesBus h
    · exact jobStep_movesBus h

theorem chStart_bus (k : ℕ) (s : State) : (chStart k s).bus = s.bus := by
  unfold chStart
  cases findChannel k s with
  | none => rfl
  | some c =>
    dsimp only
    cases c.job == .idle && canTakeLine s c with
    | true => exact takeLine_bus ..
    | false => rfl

theorem fsStep_movesBus {px : List Pixel} {s t : State} (h : fsStep px s = .next t) : AgentMovesBus s.bus t.bus := by
  unfold fsStep at h
  cases hfs : s.fs.state with
  | req =>
    cases hrun : s.mode == .run <;> simp only [hfs, hrun, cond_true, cond_false] at h
    · cases h; exact .refl _
    · exact (exec_result h).movesBus
  | waitBus =>
    simp only [hfs] at h
    exact jobStep_movesBus h
  | sleep =>
    cases hwake : s.mode == .run && s.fs.timer == 0 <;> simp only [hfs, hwake, cond_true, cond_false] at h <;> cases h
    · exact .refl _
    · exact .refl _
  | halt => simp only [hfs] at h; cases h; exact .refl _

theorem fsStart_bus (px : List Pixel) (s : State) : (fsStart px s).bus = s.bus := by
  unfold fsStart
  cases s.fs.state with
  | req =>
    dsimp only
    cases s.mode == .run <;> rfl
  | waitBus | sleep | halt => rfl

/-- SYS requests its final transfer once the block is quiet, its bus IDLE (70_reset_and_hazards.md R324). -/
theorem sysStep_movesBus (s : State) : AgentMovesBus s.bus (sysStep s).bus := by
  unfold sysStep
  cases s.mode with
  | shutdown =>
    rcases shutdownStep_cases s with ⟨-, quiet, heq⟩ | ⟨-, -, heq⟩ | heq <;> simp only [heq]
    · rw [quiescent, Bool.and_eq_true, busIdle_iff] at quiet
      exact .requests quiet.2 (snapshot (clearColor s.params.n s.color)) (some .sys) s.bus.lock
    · exact .refl _
    · exact .refl _
  | init | run | failed | stopped => exact .refl _

theorem openChannel_bus (k : ℕ) (s : State) : (openChannel k s).bus = s.bus := by
  rcases openChannel_cases k s with ⟨-, -, -, heq⟩ | heq <;> rw [heq]
  rfl

theorem receive_bus (k : ℕ) (bytes : List Byte) (s : State) : (receive k bytes s).bus = s.bus := by
  rcases receive_cases k bytes s with ⟨_, -, -, -, heq⟩ | ⟨_, -, -, -, heq⟩ | heq <;> rw [heq] <;> rfl

theorem shutdownRequest_bus (s : State) : (shutdownRequest s).bus = s.bus := by
  unfold shutdownRequest
  cases s.mode == .run <;> rfl

/-! ## The step and the bus -/

/-- The time that an action lets pass (log 5). -/
def elapsedBy : Action → ℕ
  | .tick d => d
  | _ => 0

/-- What action a makes of the bus of s. -/
inductive BusResult (a : Action) (s : State) : Bus → Prop
  /-- Outside RUN and SHUTDOWN the bus rests. -/
  | rests (mode : ¬ (s.mode = .run ∨ s.mode = .shutdown)) : BusResult a s s.bus
  /-- An agent other than BUS, or the host. -/
  | moved (b : Bus) (no_time : elapsedBy a = 0) (moves : AgentMovesBus s.bus b) : BusResult a s b
  /-- The transfer step of BUS (42_bus_writer.md R182). -/
  | transferred (res : XferResult) (acts : a = .bus res) (bus : s.bus.state = .xfer) :
      BusResult a s { s.bus with state := .latch, latchLeft := s.params.tLatch }
  /-- BUS ends the latch (R185). -/
  | latchEnded (res : XferResult) (acts : a = .bus res) (bus : s.bus.state = .latch) (waited : s.bus.latchLeft = 0) :
      BusResult a s { s.bus with state := .idle, frame := [], client := none }
  /-- Elapsed time. -/
  | elapsed (d : ℕ) (acts : a = .tick d) : BusResult a s { s.bus with latchLeft := s.bus.latchLeft - d }

theorem BusResult.unmoved {a : Action} {s : State} {b : Bus} (no_time : elapsedBy a = 0) (h : b = s.bus) :
    BusResult a s b := .moved b no_time (.of_eq h)

theorem busStep_busResult (res : XferResult) (s : State) : BusResult (.bus res) s (busStep res s).bus := by
  rcases busStep_cases res s with ⟨bus, -, heq⟩ | ⟨bus, waited, heq⟩ | heq <;> rw [heq]
  · exact .transferred res rfl bus
  · exact .latchEnded res rfl bus waited
  · exact .unmoved rfl rfl

theorem act_busResult {a : Action} {s t : State} (h : act a s = .next t) (ha : a ≠ .reset) : BusResult a s t.bus := by
  cases a with
  | sys r => cases h; exact .moved _ rfl (sysStep_movesBus s)
  | bus res => cases h; exact busStep_busResult res s
  | ch k => exact .moved _ rfl (chStep_movesBus h)
  | chStart k => cases h; exact .unmoved rfl (chStart_bus k s)
  | fs px => exact .moved _ rfl (fsStep_movesBus h)
  | fsStart px => cases h; exact .unmoved rfl (fsStart_bus px s)
  | openCh k => cases h; exact .unmoved rfl (openChannel_bus k s)
  | closeCh k => cases h; exact .unmoved rfl rfl
  | recv k bytes => cases h; exact .unmoved rfl (receive_bus k bytes s)
  | shutdownReq => cases h; exact .unmoved rfl (shutdownRequest_bus s)
  | reset => exact absurd rfl ha
  | tick d => cases h; exact .elapsed d rfl

/-- The boot leaves the bus alone, and so does every other action but the reset input in INIT, FAILED and STOPPED. -/
theorem stepAction_bus_of_not_active {a : Action} {s t : State} (hmode : ¬ (s.mode = .run ∨ s.mode = .shutdown))
    (h : stepAction a s = .next t) (ha : a ≠ .reset) : t.bus = s.bus := by
  unfold stepAction at h
  cases mode : s.mode <;> simp only [mode] at h
  case init =>
    unfold actInit at h
    split at h
    next r => rcases boot_cases r s with ⟨-, -, heq⟩ | ⟨-, -, heq⟩ | ⟨-, heq⟩ <;> cases heq.symm.trans h <;> rfl
    next => exact absurd rfl ha
    next => cases h; rfl
  case run | shutdown => simp [mode] at hmode
  case failed =>
    unfold actFailed at h
    split at h
    next => exact absurd rfl ha
    next => cases h
  case stopped =>
    unfold actStopped at h
    split at h
    next => exact absurd rfl ha
    next => cases h; rfl

theorem stepAction_busResult {a : Action} {s t : State} (h : stepAction a s = .next t) (ha : a ≠ .reset) :
    BusResult a s t.bus := by
  by_cases hmode : s.mode = .run ∨ s.mode = .shutdown
  · rw [stepAction_of_active hmode] at h
    exact act_busResult h ha
  · rw [stepAction_bus_of_not_active hmode h ha]
    exact .rests hmode

/-! ## The transitions of BUS_STATE (42_bus_writer.md R180) -/

theorem BusResult.transition {a : Action} {s : State} {b : Bus} (result : BusResult a s b) :
    (b.state = s.bus.state ∨ (s.bus.state = .idle ∧ b.state = .xfer) ∨ (s.bus.state = .xfer ∧ b.state = .latch) ∨
        (s.bus.state = .latch ∧ b.state = .idle)) ∧
      (s.bus.state ≠ .idle → b.state ≠ .idle → b.frame = s.bus.frame ∧ b.client = s.bus.client) := by
  cases result with
  | rests | elapsed => exact ⟨.inl rfl, fun _ _ => ⟨rfl, rfl⟩⟩
  | moved b no_time moves =>
    cases moves with
    | relocks l => exact ⟨.inl rfl, fun _ _ => ⟨rfl, rfl⟩⟩
    | requests idle => exact ⟨.inr (.inl ⟨idle, rfl⟩), fun hbusy => absurd idle hbusy⟩
  | transferred res acts bus => exact ⟨.inr (.inr (.inl ⟨bus, rfl⟩)), fun _ _ => ⟨rfl, rfl⟩⟩
  | latchEnded res acts bus waited => exact ⟨.inr (.inr (.inr ⟨bus, rfl⟩)), fun _ hbusy => absurd rfl hbusy⟩

/-- Settles O35, read off what a step can make of the bus (`BusResult.transition`). -/
theorem busTransitions : Obligations.BusTransitions := by
  intro s t h ha
  simpa using (stepAction_busResult h ha).transition

/-! ## The latch (42_bus_writer.md R185) -/

/-- BUS alone ends the latch, and time alone lowers LATCH_LEFT. -/
theorem BusResult.during_latch {a : Action} {s : State} {b : Bus} (result : BusResult a s b)
    (latched : s.bus.state = .latch) :
    (b.state = .latch ∨ ∃ res, a = .bus res ∧ s.bus.latchLeft = 0 ∧ b.state = .idle) ∧
      (s.mode = .run ∨ s.mode = .shutdown → b.latchLeft = s.bus.latchLeft - elapsedBy a) := by
  cases result with
  | rests mode => exact ⟨.inl latched, fun hmode => absurd hmode mode⟩
  | moved b no_time moves =>
    cases moves with
    | relocks l => exact ⟨.inl latched, fun _ => by rw [no_time]; rfl⟩
    | requests idle => simp [latched] at idle
  | transferred res acts bus => simp [latched] at bus
  | latchEnded res acts bus waited => exact ⟨.inr ⟨res, acts, waited, rfl⟩, fun _ => by rw [acts]; rfl⟩
  | elapsed d acts => exact ⟨.inl latched, fun _ => by rw [acts]; rfl⟩

theorem busStep_of_latch {s : State} (latched : s.bus.state = .latch) (res : XferResult) :
    busStep res s = if s.bus.latchLeft = 0 then latchEnd s else s := by
  simp only [busStep, latched, Bool.cond_eq_ite, beq_iff_eq]

theorem step_bus {s : State} (hmode : s.mode = .run ∨ s.mode = .shutdown) {res : XferResult}
    (hnext : nextAction s = .bus res) : step s = .next (busStep res (consume s)) := by
  rw [step_of_active hmode, hnext]
  rfl

/-- Settles O34: BUS's own step in LATCH (`busStep_of_latch`), and every step (`BusResult.during_latch`). -/
theorem latchStep : Obligations.LatchStep := by
  intro s latched
  refine ⟨fun hmode res hnext => ?_, fun t h ha => ?_⟩
  · have latched' : (consume s).bus.state = .latch := by simpa using latched
    rw [step_bus hmode hnext, busStep_of_latch latched', latchEnd, consume_bus]
    refine ⟨fun hleft => ?_, fun hleft => ?_⟩
    · rw [if_pos hleft]
      rfl
    · rw [if_neg hleft.ne']
  · obtain ⟨hstate, hleft⟩ := (stepAction_busResult h ha).during_latch (by simpa using latched)
    rw [consume_bus] at hstate hleft
    rw [consume_mode] at hleft
    exact ⟨hstate, hleft⟩

end Sys2Proof.Machine
end

section
/-! SUPPORT. The steps by which a transferring command goes on after its section (42_bus_writer.md R182, R184, R185, R188,
R189): the transfer step of BUS, the taking of BUS_LOCK under SNAPSHOT, and the release of the lock with the completion. -/

namespace Sys2Proof.Machine

/-! ## The transfer step (42_bus_writer.md R182, R184) -/

theorem emitXferEvent_done (k : ℕ) (s : State) :
    emitXferEvent (.done k) s = s.withEvlog
      (if k < 3 * s.params.n then
        s.evlog ++ [{ code := .busPartial, agent := .bus, info := .partialWrite k (3 * s.params.n) }]
      else s.evlog) := by
  rw [emitXferEvent]
  by_cases hk : k < 3 * s.params.n
  · rw [if_pos hk, Nat.blt_eq.mpr hk]
    rfl
  · rw [if_neg hk, Bool.eq_false_iff.mpr (mt Nat.blt_eq.mp hk)]
    rfl

theorem busStep_of_xfer {s : State} (transfers : s.bus.state = .xfer) {res : XferResult}
    (legal : xferAnswerLegal s.params.n res = true) : busStep res s = xferStep res s := by
  rw [busStep, transfers]
  simp [legal]

/-- Settles O33: BUS's step in XFER (`busStep_of_xfer`), with the event of each answer. -/
theorem transferStep : Obligations.TransferStep := by
  intro s hmode
  rw [← consume_bus s, ← consume_params s, ← consume_evlog s, ← consume_buslog s]
  refine fun transfers => ⟨fun k hnext hk => ⟨?_, rfl⟩, fun hnext => ?_⟩
  · rw [step_bus hmode hnext, busStep_of_xfer (res := .done k) transfers (Nat.ble_eq.mpr hk), xferStep, emitXferEvent_done]
    rfl
  · rw [step_bus hmode hnext, busStep_of_xfer transfers rfl]
    rfl

/-! ## A command in progress goes on -/

theorem updateChannel_eq (k : ℕ) (f : Channel → Channel) (s : State) :
    updateChannel k f s = s.withChannels (s.channels.map fun c => if c.id = k then f c else c) := by
  simp [updateChannel, Bool.cond_eq_ite]

theorem step_ch_of_job {s : State} (hmode : s.mode = .run ∨ s.mode = .shutdown) {k : ℕ} {c : Channel}
    (hnext : nextAction s = .ch k) (hfind : findChannel k s = some c) (hjob : c.job ≠ .idle) :
    step s = jobStep (.ch k) c.job (consume s) := by
  rw [step_of_active hmode, hnext, act, chStep, findChannel_consume, hfind]
  dsimp only
  split
  next hidle => exact absurd hidle hjob
  next => rfl

theorem step_fs_of_waitBus {s : State} (hmode : s.mode = .run ∨ s.mode = .shutdown) {px : List Pixel}
    (hnext : nextAction s = .fs px) (hwait : s.fs.state = .waitBus) : step s = jobStep .fs s.fs.job (consume s) := by
  rw [step_of_active hmode, hnext, act, fsStep, consume_fs, hwait]

/-! ## BUS_LOCK under SNAPSHOT (42_bus_writer.md R189) -/

theorem acquireBusLock_of_free (a : Agent) (bytes : List Byte) {s : State} (free : s.bus.lock = .free)
    (idle : s.bus.state = .idle) :
    acquireBusLock a bytes s =
      setJob a .transfer (s.withBus { s.bus with state := .xfer, frame := bytes, client := some a, lock := .held a }) := by
  rw [acquireBusLock, (lockFree_iff _).mpr free, (busIdle_iff _).mpr idle]
  rfl

theorem acquireBusLock_of_held (a : Agent) (bytes : List Byte) {s : State} {b : Agent} (held : s.bus.lock = .held b) :
    acquireBusLock a bytes s = s := by
  rw [acquireBusLock, held]
  rfl

/-- Settles O32: the step of a command waiting for BUS_LOCK is `acquireBusLock`. -/
theorem snapshotTakesBusLock : Obligations.SnapshotTakesBusLock := by
  intro s bytes hmode
  rw [← consume_bus s]
  refine ⟨fun k c hnext hfind hjob => ?_, fun px hnext hwait hjob => ?_⟩
  · rw [step_ch_of_job hmode hnext hfind (by simp [hjob]), hjob, jobStep]
    refine ⟨fun free idle => ?_, fun a held => by rw [acquireBusLock_of_held _ _ held]⟩
    rw [acquireBusLock_of_free _ _ free idle, setJob, updateChannel_eq, State.withBus_channels, consume_channels]
    rfl
  · rw [step_fs_of_waitBus hmode hnext hwait, hjob, jobStep]
    refine ⟨fun free idle => ?_, fun a held => by rw [acquireBusLock_of_held _ _ held]⟩
    rw [acquireBusLock_of_free _ _ free idle, setJob, State.withBus_fs, consume_fs, ← hwait]
    rfl

/-! ## The release and the completion (42_bus_writer.md R185, R188, R189) -/

theorem finishTransfer_of_client {a : Agent} {s : State} (client : s.bus.client = some a) : finishTransfer a s = s := by
  simp [finishTransfer, client]

theorem finishTransfer_of_released {a : Agent} {s : State} (released : s.bus.client ≠ some a) :
    finishTransfer a s = completeJob a (releaseLock s) := by
  rw [finishTransfer, beq_eq_false_iff_ne.mpr released, cond_false]

/-- FS goes to sleep in RUN, and halts in SHUTDOWN (44_frame_port.md R264, R265). -/
theorem fsAfterFrame_of_active {s : State} (hmode : s.mode = .run ∨ s.mode = .shutdown) :
    fsAfterFrame s = if s.mode = .run then { state := .sleep, timer := s.params.tFrame, job := .idle }
      else { s.fs with state := .halt, job := .idle } := by
  rcases hmode with hmode | hmode <;> simp [fsAfterFrame, hmode]

/-- Settles O37: the step of a command in transfer is `finishTransfer`, under either order of the locks. -/
theorem finishReleasesTheLock : Obligations.FinishReleasesTheLock := by
  intro s hmode
  have hmode' : (consume s).mode = .run ∨ (consume s).mode = .shutdown := by rwa [consume_mode]
  rw [← consume_bus s, ← consume_params s, ← consume_lock s, ← consume_channels s, ← consume_mode s]
  refine ⟨fun k c hnext hfind hjob => ?_, fun px hnext hwait hjob => ?_⟩
  · rw [step_ch_of_job hmode hnext hfind (by simp [hjob]), hjob, jobStep]
    refine ⟨fun client => by rw [finishTransfer_of_client client], fun released => ?_⟩
    rw [finishTransfer_of_released released, completeJob, updateChannel_eq]
    rcases releaseLock_cases (consume s) with ⟨horder, heq⟩ | ⟨horder, heq⟩ <;> rw [heq, horder] <;> rfl
  · rw [step_fs_of_waitBus hmode hnext hwait, hjob, jobStep, ← consume_fs s]
    refine ⟨fun client => by rw [finishTransfer_of_client client], fun released => ?_⟩
    rw [finishTransfer_of_released released, completeJob]
    rcases releaseLock_cases (consume s) with ⟨horder, heq⟩ | ⟨horder, heq⟩ <;>
      rw [heq, horder, fsAfterFrame_of_active (by exact hmode')] <;> rfl

end Sys2Proof.Machine
end

section
/-! SUPPORT. The statements of 43_commands.md on what each line command leaves (R220-R227), in two parts: the template of
R218, which says where the command, the locks and the bus stand once the section has run (`runTransferring_starts`,
`runPlain_done`), and what the section makes of Color State, which ends in a reshape of new targets (`retargeted_reshape`). -/

namespace Sys2Proof.Machine

/-! ## Where the command stands once its section has run (43_commands.md R218) -/

/-- An agent's own progress, after a section and what it does to the locks and the bus. -/
theorem setJob_onlyAgentMoves {a : Agent} (ha : a ≠ .sys) (j : Job) (s : State) (c : ColorState) (es : List Event)
    (l : Lock) (b : Bus) :
    OnlyAgentMoves a true j s (setJob a j ((((s.withColor c).withEvlog es).withLock l).withBus b)) := by
  cases a with
  | ch k => exact ⟨rfl, rfl, by simp [setJob, updateChannel_eq], rfl, rfl, rfl, rfl, rfl, rfl, rfl⟩
  | fs | bus => exact ⟨rfl, rfl, by simp [setJob], by simp [setJob], rfl, rfl, rfl, rfl, rfl, rfl⟩
  | sys => exact absurd rfl ha

theorem completeJob_onlyAgentMoves (k : ℕ) (s : State) (c : ColorState) (es : List Event) :
    OnlyAgentMoves (.ch k) false .idle s (completeJob (.ch k) ((s.withColor c).withEvlog es)) :=
  ⟨rfl, rfl, by simp [completeJob, updateChannel_eq], rfl, rfl, rfl, rfl, rfl, rfl, rfl⟩

/-- What follows the section writes neither Color State nor EVLOG. -/
theorem endSection_leaves (a : Agent) (s : State) :
    (endSection a s).color = s.color ∧ (endSection a s).evlog = s.evlog := by
  cases order : s.params.busOrder with
  | inLock =>
    rw [endSection_inLock order]
    obtain ⟨-, -, hcolor, -, -, hevlog, -⟩ := setJob_frame a .transfer
      ((s.withLock (.held a)).withBus { s.bus with state := .xfer, frame := s.color.mem.o, client := some a })
    exact ⟨hcolor, hevlog⟩
  | snapshot =>
    rw [endSection_snapshot order]
    obtain ⟨-, -, hcolor, -, -, hevlog, -⟩ := setJob_frame a (.waitBus s.color.mem.o) s
    exact ⟨hcolor, hevlog⟩

theorem endSection_transferStarted {a : Agent} (ha : a ≠ .sys) {s : State} (free : s.lock = .free) (c : ColorState)
    (es : List Event) : TransferStarted a s (endSection a ((s.withColor c).withEvlog es)) := by
  obtain ⟨hcolor, -⟩ := endSection_leaves a ((s.withColor c).withEvlog es)
  refine ⟨fun order => ?_, fun order => ?_⟩ <;> rw [hcolor]
  · rw [endSection_inLock (by exact order)]
    obtain ⟨-, -, -, hlock, hbus, -⟩ := setJob_frame a .transfer
      ((((s.withColor c).withEvlog es).withLock (.held a)).withBus
        { s.bus with state := .xfer, frame := c.mem.o, client := some a })
    exact ⟨hlock, hbus, setJob_onlyAgentMoves ha ..⟩
  · rw [endSection_snapshot (by exact order)]
    obtain ⟨-, -, -, hlock, hbus, -⟩ := setJob_frame a (.waitBus c.mem.o) ((s.withColor c).withEvlog es)
    exact ⟨hlock.trans free, hbus, setJob_onlyAgentMoves ha _ s c es s.lock s.bus⟩

/-- A transferring command that may begin: its section is run and its transfer started. -/
theorem runTransferring_starts {a : Agent} (ha : a ≠ .sys) {body : State → State} {s : State} {c : ColorState}
    {es : List Event} (hbody : body s = (s.withColor c).withEvlog es) (begins : TransferMayBegin s) :
    ∃ t, runTransferring a body s = .next t ∧ TransferStarted a s t ∧ t.color = c ∧ t.evlog = es := by
  have hstarted := endSection_transferStarted ha begins.1 c es
  obtain ⟨hcolor, hevlog⟩ := endSection_leaves a ((s.withColor c).withEvlog es)
  refine ⟨_, ?_, hstarted, hcolor, hevlog⟩
  rw [runTransferring, (mayBeginTransfer_iff s).mpr begins, cond_true, hbody]

/-- A non-transferring command that may begin: its section is run and it is complete. -/
theorem runPlain_done (k : ℕ) {body : State → State} {s : State} {c : ColorState} {es : List Event}
    (hbody : body s = (s.withColor c).withEvlog es) (free : s.lock = .free) :
    ∃ t, runPlain (.ch k) body s = .next t ∧ PlainDone (.ch k) s t ∧ t.color = c ∧ t.evlog = es := by
  have hdone : PlainDone (.ch k) s (completeJob (.ch k) ((s.withColor c).withEvlog es)) :=
    ⟨free, rfl, completeJob_onlyAgentMoves k s c es⟩
  refine ⟨_, ?_, hdone, rfl, rfl⟩
  rw [runPlain, mayBegin, (lockFree_iff _).mpr free, cond_true, hbody]

/-! ## New targets, and the reshape (41_color_state.md R142-R144) -/

theorem memRead_t_eq_some_iff {m : Memory} {j : ℕ} {x : F32} :
    memRead .t j m = some (.real x) ↔ m.t[j]? = some x := by simp [memRead]

theorem memRead_o_eq_some_iff {m : Memory} {j : ℕ} {x : Byte} :
    memRead .o j m = some (.byte x) ↔ m.o[j]? = some x := by simp [memRead]

theorem reshape_reshaped (c : ColorState) : Reshaped (reshape c) := by
  intro j x hx
  rw [memRead_t_eq_some_iff] at hx
  rw [memRead_o_eq_some_iff, reshape_o, ← reshape_t c, hx]
  rfl

/-- Color State with new targets, reshaped. -/
theorem retargeted_reshape {n : ℕ} {target : ℕ → F32 → F32} {c : ColorState} {ts : List F32}
    (hwf : c.mem.wf n = true) (hlen : ts.length = 3 * n)
    (htargets : ∀ j x, c.mem.t[j]? = some x → ts[j]? = some (target j x)) :
    Retargeted n target c (reshape { c with mem := { c.mem with t := ts } }) := by
  obtain ⟨hlut, -, ho⟩ := (memory_wf_iff n c.mem).mp hwf
  refine ⟨rfl, rfl, rfl, reshape_wf ((memory_wf_iff ..).mpr ⟨hlut, hlen, ho⟩), fun _ => rfl, fun j x hx => ?_,
    reshape_reshaped _⟩
  rw [memRead_t_eq_some_iff] at hx ⊢
  exact htargets j x hx

theorem retargeted_reshape_self {n : ℕ} {c : ColorState} (hwf : c.mem.wf n = true) :
    Retargeted n (fun _ x => x) c (reshape c) :=
  retargeted_reshape hwf ((memory_wf_iff n c.mem).mp hwf).2.1 fun _ _ hx => hx

theorem repeatColor_getElem?_channelOf {n j : ℕ} (r g b : F32) (hj : j < 3 * n) :
    (repeatColor n r g b)[j]? = some (channelOf r g b j) := by
  obtain ⟨h0, h1, h2⟩ := repeatColor_getElem? (i := j / 3) r g b (by omega : j / 3 < n)
  unfold channelOf
  split_ifs with hr hg
  · rwa [show 3 * (j / 3) = j by omega] at h0
  · rwa [show 3 * (j / 3) + 1 = j by omega] at h1
  · rwa [show 3 * (j / 3) + 2 = j by omega] at h2

/-- One smoothing step of every target toward its new value (41_color_state.md R143), reshaped. -/
theorem retargeted_reshape_smoothAll {n : ℕ} {c : ColorState} {new : List F32} {value : ℕ → F32}
    (hwf : c.mem.wf n = true) (hlen : new.length = 3 * n) (hnew : ∀ j, j < 3 * n → new[j]? = some (value j)) :
    Retargeted n (fun j x => fadd x (fmul c.alpha (fsub (value j) x))) c (reshape (smoothAll new c)) := by
  obtain ⟨-, ht, -⟩ := (memory_wf_iff n c.mem).mp hwf
  refine retargeted_reshape hwf (by simp [ht, hlen]) fun j x hx => ?_
  have hj : j < 3 * n := ht ▸ (List.getElem?_eq_some_iff.mp hx).1
  exact smoothAll_t c new hx (hnew j hj)

/-- The three targets of LED i, and no target when there is no LED i (41_color_state.md R142). -/
theorem retargeted_reshape_setPixel {n : ℕ} {c : ColorState} (i r g b : ℤ) (hwf : c.mem.wf n = true) :
    Retargeted n
      (fun j x =>
        if (j : ℤ) = 3 * i then f32OfInt r else if (j : ℤ) = 3 * i + 1 then f32OfInt g
        else if (j : ℤ) = 3 * i + 2 then f32OfInt b else x)
      c (reshape (setPixel n i r g b c)) := by
  obtain ⟨ts, heq⟩ := setPixel_eq_withTargets n i r g b c
  have hts : (setPixel n i r g b c).mem.t = ts := by rw [heq]
  obtain ⟨-, ht, -⟩ := (memory_wf_iff n c.mem).mp hwf
  obtain ⟨-, hlen, -⟩ := (memory_wf_iff ..).mp (setPixel_wf i r g b hwf)
  rw [heq]
  refine retargeted_reshape hwf (hts ▸ hlen) fun j x hx => ?_
  have hj : j < c.mem.t.length := (List.getElem?_eq_some_iff.mp hx).1
  by_cases hin : 0 ≤ i ∧ i < n
  · obtain ⟨h0, h1⟩ := hin
    have hplace : ∀ d : ℕ, (j : ℤ) = 3 * i + d ↔ j = 3 * i.toNat + d := by omega
    have hred := hplace 0
    have hgreen := hplace 1
    have hblue := hplace 2
    simp only [Nat.cast_zero, Nat.cast_one, Nat.cast_ofNat, add_zero] at hred hgreen hblue
    rw [← hts, setPixel_t r g b c h0 h1 j hj, hx]
    simp only [hred, hgreen, hblue]
    split_ifs <;> rfl
  · have houtside : ∀ d : ℤ, 0 ≤ d → d ≤ 2 → (j : ℤ) ≠ 3 * i + d := by omega
    have hred : (j : ℤ) ≠ 3 * i := by simpa using houtside 0
    rw [← hts, setPixel_outside r g b c (by omega), hx, if_neg hred, if_neg (houtside 1 (by decide) (by decide)),
      if_neg (houtside 2 (by decide) (by decide))]

/-! ## The registers (10_state.md R24-R27) -/

theorem clampUnit_eq (x : F32) :
    clampUnit x = if f32Lt x f32Zero then f32Zero else if f32Lt f32One x then f32One else x := by
  simp only [clampUnit, f32Clamp, Bool.cond_eq_ite]

theorem f32Lt_eq_false_iff {a b : F32} (ha : f32IsNan a = false) (hb : f32IsNan b = false) :
    f32Lt a b = false ↔ f32Le b a = true := by
  simp [f32Lt, f32Le, ha, hb]

/-- A clamped number is legal, an infinity too. -/
theorem clampUnit_legal_of_number {x : F32} (h : f32IsNan x = false) : unitLegal (clampUnit x) = true := by
  rw [clampUnit_eq]
  split_ifs with hlo hhi
  · decide
  · decide
  · rw [Bool.not_eq_true, f32Lt_eq_false_iff h (by decide)] at hlo
    rw [Bool.not_eq_true, f32Lt_eq_false_iff (by decide) h] at hhi
    rw [unitLegal, hlo, hhi, Bool.and_true]

/-- A legal exponent exceeds the threshold of setGamma (41_color_state.md R145). -/
theorem gammaRefused_of_legal {g : F32} (h : gammaLegal g = true) : gammaRefused g = false := by
  rw [gammaLegal, Bool.and_eq_true] at h
  by_contra hle
  rw [Bool.not_eq_false, gammaRefused, ← f32Lt_eq_false_iff (by decide) (f32IsNan_of_finite h.1)] at hle
  simp [hle] at h

/-! ## The line commands (43_commands.md R220-R227) -/

/-- `runTransferring_starts` for a line command of CH[k] whose section writes Color State only. -/
theorem exec_starts {i : Instr} {body : State → State} {c : ColorState} {s : State} {k : ℕ} (actor : s.actor = .ch k)
    (hexec : exec i s = runTransferring s.actor body s) (hbody : body s = s.withColor c) (begins : TransferMayBegin s) :
    ∃ t, exec i s = .next t ∧ TransferStarted (.ch k) s t ∧ t.color = c ∧ t.evlog = s.evlog := by
  rw [hexec, actor]
  exact runTransferring_starts (a := .ch k) (es := s.evlog) nofun hbody begins

theorem applySmoothing_of_length {a : Agent} {new : List F32} {s : State} (h : new.length = 3 * s.params.n) :
    applySmoothing a new s = s.withColor (smoothAll new s.color) := by
  rcases applySmoothing_cases a new s with ⟨-, heq⟩ | ⟨hne, -⟩
  · exact heq
  · exact absurd h hne

theorem colorSection_eq (r g b : ℤ) (s : State) :
    colorSection r g b s =
      s.withColor (reshape (smoothAll (repeatColor s.params.n (f32OfInt r) (f32OfInt g) (f32OfInt b)) s.color)) := by
  rw [colorSection, applySmoothing_of_length (repeatColor_length ..)]
  rfl

theorem exec_gamma_of_finite {g : F32} (h : f32Finite g = true) (s : State) :
    exec (.gamma g) s = runTransferring s.actor (gammaSection g) s := by
  rw [exec, execGamma, h, cond_true]

/-- Settles O21: the section smooths every target toward its color (`retargeted_reshape_smoothAll`). -/
theorem colorResult : Obligations.ColorResult := by
  intro r g b s k hwf actor begins
  obtain ⟨t, hexec, hstarted, hcolor, hevlog⟩ :=
    exec_starts (i := .color r g b) actor rfl (colorSection_eq r g b s) begins
  refine ⟨t, hexec, hstarted, hcolor ▸ ?_, hevlog⟩
  exact retargeted_reshape_smoothAll hwf (repeatColor_length ..) fun _ hj => repeatColor_getElem?_channelOf _ _ _ hj

/-- Settles O22: the section writes the three targets of the LED (`retargeted_reshape_setPixel`), if there is one. -/
theorem pixResult : Obligations.PixResult := by
  intro idx r g b s k hwf actor begins
  obtain ⟨t, hexec, hstarted, hcolor, hevlog⟩ :=
    exec_starts (i := .pix idx r g b) (body := pixSection idx r g b)
      (c := reshape (setPixel s.params.n idx r g b s.color)) actor rfl rfl begins
  refine ⟨t, hexec, hstarted, hcolor ▸ retargeted_reshape_setPixel idx r g b hwf, fun houtside j => ?_, hevlog⟩
  rw [hcolor, setPixel_outside r g b s.color houtside]
  rfl

/-- Settles O23: BRIGHT is clamped (`clampUnit_eq`), and every output reshaped under it. -/
theorem brightResult : Obligations.BrightResult := by
  intro b s k hwf actor begins
  obtain ⟨t, hexec, hstarted, hcolor, hevlog⟩ :=
    exec_starts (i := .bright b) (body := brightSection b) actor rfl rfl begins
  have hbright : t.color.bright = clampUnit b := by rw [hcolor]; rfl
  refine ⟨t, hexec, hstarted, ?_⟩
  rw [hbright, hcolor]
  refine ⟨clampUnit_eq b, clampUnit_legal_of_number, ?_, hevlog⟩
  exact retargeted_reshape_self (c := { s.color with bright := clampUnit b }) hwf

/-- Settles O24: a legal exponent is not refused (`gammaRefused_of_legal`), and the table is built from it. -/
theorem gammaResult : Obligations.GammaResult := by
  intro g s k legal hwf actor begins
  have hfinite : f32Finite g = true := by
    rw [gammaLegal, Bool.and_eq_true] at legal
    exact legal.1
  obtain ⟨t, hexec, hstarted, hcolor, hevlog⟩ :=
    exec_starts (body := gammaSection g) (c := reshape (setGamma g s.color)) actor (exec_gamma_of_finite hfinite s) rfl
      begins
  rw [setGamma, gammaRefused_of_legal legal, cond_false] at hcolor
  refine ⟨t, hexec, hstarted, ?_⟩
  rw [hcolor]
  exact ⟨rfl, fun _ => rfl, rfl, rfl, reshape_wf (reshape_wf (rebuiltLut_wf g hwf)), fun _ => rfl, reshape_reshaped _,
    hevlog⟩

/-- Settles O26: ALPHA alone is written, clamped (`clampUnit_eq`). -/
theorem smoothResult : Obligations.SmoothResult := by
  intro a s k actor free
  obtain ⟨t, hexec, hdone, hcolor, hevlog⟩ :=
    runPlain_done k (body := smoothSection a) (s := s) (c := setSmoothingAlpha a s.color) rfl free
  refine ⟨t, by rw [exec, execSmooth, actor, hexec], hdone, ?_⟩
  rw [hcolor]
  exact ⟨clampUnit_eq a, clampUnit_legal_of_number, rfl, hevlog⟩

/-- Settles O27: the section is a reshape of the targets as they are (`retargeted_reshape_self`). -/
theorem showResult : Obligations.ShowResult := by
  intro s k hwf actor begins
  obtain ⟨t, hexec, hstarted, hcolor, hevlog⟩ := exec_starts (i := .showStrip) (body := showSection) actor rfl rfl begins
  exact ⟨t, hexec, hstarted, hcolor ▸ retargeted_reshape_self hwf, hevlog⟩

/-- Settles O28: the section zeroes every target and every output. -/
theorem clearResult : Obligations.ClearResult := by
  intro s k hwf actor begins
  obtain ⟨t, hexec, hstarted, hcolor, hevlog⟩ := exec_starts (i := .clear) (body := clearSection) actor rfl rfl begins
  refine ⟨t, hexec, hstarted, ?_⟩
  rw [hcolor]
  refine ⟨rfl, rfl, rfl, clearColor_wf hwf, fun _ => rfl, fun j hj => ?_, hevlog⟩
  rw [memRead_t_eq_some_iff, memRead_o_eq_some_iff]
  simp [clearColor, f32Zero, hj]

/-- Settles O29: the section is one event. -/
theorem statusResult : Obligations.StatusResult := by
  intro s k actor free
  obtain ⟨t, hexec, hdone, hcolor, hevlog⟩ :=
    runPlain_done k (body := statusSection) (s := s) (c := s.color) rfl free
  refine ⟨t, by rw [exec, execStatus, actor, hexec], hdone, hcolor, ?_⟩
  rw [hevlog, actor]

end Sys2Proof.Machine
end

section
/-! SUPPORT. The statements of 43_commands.md on the channels: the step on a complete line (R212-R214, R216), OPEN_CH,
CLOSE_CH and the removal (R211), and RECV (R212, R213, R217, R231), whose bytes arrive in pieces as they arrive in one
(`appendBytes_append`). -/

namespace Sys2Proof.Machine

/-! ## A channel's step on a complete line (43_commands.md R212-R214, R216) -/

theorem updateChannel_updateChannel (k : ℕ) {f : Channel → Channel} (hf : ∀ c, (f c).id = c.id)
    (g : Channel → Channel) (s : State) : updateChannel k g (updateChannel k f s) =
      updateChannel k (fun c => g (f c)) s := by
  have hmap : ∀ c : Channel, (if (if c.id = k then f c else c).id = k then g (if c.id = k then f c else c)
      else if c.id = k then f c else c) = if c.id = k then g (f c) else c := by
    intro c
    by_cases hc : c.id = k <;> simp [hc, hf]
  simp only [updateChannel_eq, State.withChannels_channels, List.map_map, Function.comp_def, hmap]
  rfl

theorem lineFate_of_skipping {c : Channel} (p : Params) (skipping : c.discard = true) : lineFate p c = .tail := by
  rw [lineFate, skipping, cond_true]

theorem lineFate_of_overlong {p : Params} {c : Channel} (not_skipping : c.discard = false)
    (overlong : overLineMax p (beforeLF c.acc).length = true) : lineFate p c = .overlong := by
  rw [lineFate, not_skipping, overlong, cond_false, cond_true]

theorem lineFate_of_drop {p : Params} {c : Channel} {v : DropCode} (not_skipping : c.discard = false)
    (not_overlong : overLineMax p (beforeLF c.acc).length = false) (decodes : decodeLine (beforeLF c.acc) = .drop v) :
    lineFate p c = .dropped v := by
  rw [lineFate, not_skipping, not_overlong, cond_false, cond_false, decodes]

theorem lineFate_of_cmd {p : Params} {c : Channel} {i : Instr} (not_skipping : c.discard = false)
    (not_overlong : overLineMax p (beforeLF c.acc).length = false) (decodes : decodeLine (beforeLF c.acc) = .cmd i) :
    lineFate p c = .command i := by
  rw [lineFate, not_skipping, not_overlong, cond_false, cond_false, decodes]

theorem step_ch_of_idle {s : State} (mode : s.mode = .run ∨ s.mode = .shutdown) {k : ℕ} {c : Channel}
    (channel : findChannel k s = some c) (idle : c.job = .idle) (hnext : nextAction s = .ch k) :
    step s = idleChannelStep k c (consume s) := by
  rw [step_of_active mode, hnext, act, chStep, findChannel_consume, channel]
  simp only [idle]

section
variable {s : State} {k : ℕ} {c : Channel} (mode : s.mode = .run) (channel : findChannel k s = some c)
  (idle : c.job = .idle) (not_busy : c.busy = false) (complete : hasLF c.acc = true)
include mode channel idle not_busy complete

theorem step_ch_of_line (hnext : nextAction s = .ch k) : step s = runLine k (lineFate s.params c) (consume s) := by
  rw [step_ch_of_idle (.inl mode) channel idle hnext, idleChannelStep, canTakeLine, not_busy, complete, consume_mode, mode,
    consume_params]
  rfl

theorem step_chStart_of_line (hnext : nextAction s = .chStart k) :
    step s = .next (takeLine k (lineFate s.params c) (consume s)) := by
  rw [step_of_active (.inl mode), hnext, act, chStart, findChannel_consume, channel]
  dsimp only
  rw [canTakeLine, idle, not_busy, complete, consume_mode, mode, consume_params]
  rfl

/-- A line that starts no command is taken by either action alike. -/
theorem step_of_line_without_command (hnext : nextAction s = .ch k ∨ nextAction s = .chStart k)
    (no_command : ∀ i, lineFate s.params c ≠ .command i) :
    step s = .next (takeLine k (lineFate s.params c) (consume s)) := by
  rcases hnext with hnext | hnext
  · rw [step_ch_of_line mode channel idle not_busy complete hnext]
    cases fate : lineFate s.params c with
    | command i => exact absurd fate (no_command i)
    | tail | overlong | dropped v => rfl
  · exact step_chStart_of_line mode channel idle not_busy complete hnext

end

/-- The channel BUSY with the command of its removed line. -/
theorem takeLine_command (k : ℕ) (i : Instr) (s : State) :
    takeLine k (.command i) s = s.withChannels (s.channels.map fun d =>
      if d.id = k then { d with acc := afterLF d.acc, discard := false, busy := true, job := .waitLock i } else d) := by
  rw [takeLine, setJob, updateChannel_updateChannel k (f := removeLine) (fun _ => rfl), updateChannel_eq]
  rfl

/-- Settles O17: the line's fate is its command (`lineFate_of_cmd`), which the two actions run and leave waiting. -/
theorem stepRunsTheDecodedLine : Obligations.StepRunsTheDecodedLine := by
  intro s k c i mode ready
  obtain ⟨channel, idle, not_busy, complete, not_skipping, not_overlong, decodes⟩ := ready
  have fate := lineFate_of_cmd not_skipping not_overlong decodes
  have htake := takeLine_command k i (consume s)
  rw [consume_channels] at htake
  refine ⟨fun hnext => ?_, fun hnext => ?_⟩
  · rw [step_ch_of_line mode channel idle not_busy complete hnext, fate, runLine, htake]
    rfl
  · rw [step_chStart_of_line mode channel idle not_busy complete hnext, fate, htake]
    rfl

/-- Settles O39: each fate but a command (`step_of_line_without_command`), with its event. -/
theorem linesThatStartNoCommand : Obligations.LinesThatStartNoCommand := by
  intro s k c hnext mode channel idle not_busy complete
  have hstep := step_of_line_without_command mode channel idle not_busy complete hnext
  have hremoved := updateChannel_eq k removeLine (consume s)
  rw [consume_channels] at hremoved
  rw [← consume_evlog s]
  refine ⟨fun skipping => ?_, fun not_skipping overlong => ?_, fun v not_skipping not_overlong decodes => ?_⟩
  · rw [lineFate_of_skipping s.params skipping] at hstep
    rw [hstep nofun, takeLine, hremoved]
    rfl
  · rw [lineFate_of_overlong not_skipping overlong] at hstep
    rw [hstep nofun, takeLine, hremoved]
    rfl
  · rw [lineFate_of_drop not_skipping not_overlong decodes] at hstep
    rw [hstep nofun, takeLine, hremoved]
    cases v <;> rfl

/-! ## OPEN_CH, CLOSE_CH and the removal (43_commands.md R211) -/

theorem roomForChannel_iff (p : Params) (count : ℕ) :
    roomForChannel p count = true ↔ ∀ m, p.maxChannels = some m → count < m := by
  simp [roomForChannel, Option.all_eq_true]

theorem openChannel_of_room {k : ℕ} {s : State} (mode : s.mode = .run)
    (room : roomForChannel s.params s.channels.length = true) (absent : findChannel k s = none) :
    openChannel k s = s.withChannels (insertChannel (newChannel k) s.channels) := by
  simp [openChannel, mode, room, absent]

/-- The new channel is found by its id. -/
theorem find?_insertChannel_self {p : Channel → Bool} {c : Channel} (hc : p c = true) {cs : List Channel}
    (hcs : ∀ d ∈ cs, p d = false) : (insertChannel c cs).find? p = some c := by
  induction cs with
  | nil => simp [insertChannel, hc]
  | cons d ds ih =>
    obtain ⟨hd, hds⟩ := List.forall_mem_cons.mp hcs
    unfold insertChannel
    cases Nat.blt c.id d.id with
    | true => simp [hc]
    | false => simpa [hd] using ih hds

/-- The new channel stands in no other's way. -/
theorem find?_insertChannel_of_neg {p : Channel → Bool} {c : Channel} (hc : p c = false) (cs : List Channel) :
    (insertChannel c cs).find? p = cs.find? p := by
  induction cs with
  | nil => simp [insertChannel, hc]
  | cons d ds ih =>
    unfold insertChannel
    cases Nat.blt c.id d.id with
    | true => simp [hc]
    | false => simp [List.find?_cons, ih]

theorem openChannel_of_not_run (k : ℕ) {s : State} (mode : s.mode ≠ .run) : openChannel k s = s := by
  rcases openChannel_cases k s with ⟨run, -⟩ | heq
  · exact absurd run mode
  · exact heq

/-- Outside RUN no channel opens (70_reset_and_hazards.md R324). -/
theorem step_openCh_of_not_run {s : State} {k : ℕ} (hnext : nextAction s = .openCh k)
    (mode : s.mode = .init ∨ s.mode = .shutdown ∨ s.mode = .stopped) : step s = .next (consume s) := by
  rw [step, hnext, stepAction]
  rcases mode with mode | mode | mode <;> rw [consume_mode, mode]
  · rfl
  · rw [act, openChannel_of_not_run k (by simp [mode])]
  · rfl

theorem step_openCh {s : State} {k : ℕ} (hnext : nextAction s = .openCh k) (mode : s.mode = .run) :
    step s = .next (openChannel k (consume s)) := by
  rw [step_of_active (.inl mode), hnext]
  rfl

theorem removeChannel_eq (k : ℕ) (s : State) :
    removeChannel k s = s.withChannels (s.channels.filter fun d => decide (d.id ≠ k)) := by
  have hkeep : (fun d : Channel => !(d.id == k)) = fun d => decide (d.id ≠ k) := by
    funext d
    by_cases hd : d.id = k <;> simp [hd]
  rw [removeChannel, hkeep]

/-- A closing channel with nothing left to do is removed. -/
theorem idleChannelStep_of_removable {k : ℕ} {c : Channel} {s : State} (closing : c.openState = .closing)
    (not_busy : c.busy = false) (no_line : hasLF c.acc = false) :
    idleChannelStep k c s = .next (removeChannel k s) := by
  simp [idleChannelStep, canTakeLine, canRemove, closing, not_busy, no_line]

/-- Settles O40: the new channel in its place (`find?_insertChannel_self`, `channelsWf_insertChannel`), and each other case
by the definition of its action. -/
theorem openAndCloseChannels : Obligations.OpenAndCloseChannels := by
  intro s k
  refine ⟨fun hnext mode room absent => ?_, fun hnext mode refused => ?_, step_openCh_of_not_run, fun hnext mode => ?_,
    fun c hnext mode channel closing not_busy idle no_line => ?_⟩
  · have others : ∀ d ∈ s.channels, d.id ≠ (newChannel k).id := findChannel_eq_none_iff.mp absent
    refine ⟨insertChannel (newChannel k) s.channels, ?_, ?_, channelsWf_insertChannel others, fun j hj => ?_⟩
    · rw [step_openCh hnext mode, openChannel_of_room (by simpa using mode)
        (by simpa using (roomForChannel_iff s.params s.channels.length).mpr room)
        (by rwa [findChannel_consume]), consume_channels]
      rfl
    · exact find?_insertChannel_self (by simp [newChannel]) fun d hd => beq_eq_false_iff_ne.mpr (others d hd)
    · exact find?_insertChannel_of_neg (by simpa [newChannel] using hj.symm) s.channels
  · rw [step_openCh hnext mode]
    rcases openChannel_cases k (consume s) with ⟨-, room, absent, -⟩ | heq
    · rw [consume_params, consume_channels, roomForChannel_iff] at room
      rw [findChannel_consume] at absent
      rcases refused with ⟨m, hmax, hfull⟩ | present
      · exact absurd (room m hmax) (by omega)
      · exact absurd absent present
    · rw [heq]
  · rw [step_of_active mode, hnext, act, closeChannel, updateChannel_eq, consume_channels]
    rfl
  · rw [step_ch_of_idle mode channel idle hnext, idleChannelStep_of_removable closing not_busy no_line, removeChannel_eq,
      consume_channels]
    rfl

/-! ## RECV (43_commands.md R212, R213, R217) -/

theorem overLineMax_iff (p : Params) (len : ℕ) :
    overLineMax p len = true ↔ ∃ m, p.lineMax = some m ∧ m < len := by
  simp [overLineMax, Option.any_eq_true]

/-- What an open channel's bytes are after a RECV. -/
theorem appendBytes_eq (bytes : List Byte) (c : Channel) :
    appendBytes bytes c =
      { c with acc := c.acc ++ if c.discard && !hasLF c.acc then bytes.dropWhile (· != byteLF) else bytes } := by
  unfold appendBytes
  cases c.discard && !hasLF c.acc <;> rfl

theorem bne_byteLF : (fun x : Byte => x != byteLF) = fun x => decide (x ≠ 0x0A#8) := by
  funext x
  by_cases hx : x = 0x0A#8 <;> simp [byteLF, hx]

theorem receive_of_closing {k : ℕ} {bytes : List Byte} {s : State} {c : Channel} (channel : findChannel k s = some c)
    (closing : c.openState = .closing) : receive k bytes s = s := by
  simp only [receive, channel, closing]

theorem receive_of_opened {k : ℕ} (bytes : List Byte) {s : State} {c : Channel} (channel : findChannel k s = some c)
    (opened : c.openState = .opened) :
    receive k bytes s = if accOverlong s.params (appendBytes bytes c) then
        emit .lineOverlong (.ch k) .none (updateChannel k (fun c => { c with acc := [], discard := true }) s)
      else updateChannel k (fun c => settleLines s.mode (appendBytes bytes c)) s := by
  simp only [receive, channel, opened, Bool.cond_eq_ite]

/-- With rising ids an update of CH[k] is what it does to the one channel k. -/
theorem updateChannel_congr {k : ℕ} {s : State} {c : Channel} (wf : channelsWf s.channels = true)
    (channel : findChannel k s = some c) {f g : Channel → Channel} (h : f c = g c) :
    updateChannel k f s = updateChannel k g s := by
  have hmap : ∀ d ∈ s.channels, (if d.id = k then f d else d) = if d.id = k then g d else d := by
    intro d hd
    split_ifs with hid
    · have := (findChannel_eq_some_iff wf).mpr ⟨hd, hid⟩
      rw [channel, Option.some_inj] at this
      exact this ▸ h
    · rfl
  rw [updateChannel_eq, updateChannel_eq, List.map_congr_left hmap]

/-- The complete lines of a buffer, and the partial line after the last 0x0A. -/
theorem eq_lines_append_partial {bytes : List Byte} (h : hasLF bytes = true) :
    ∃ lines, bytes = lines ++ byteLF :: (bytes.reverse.takeWhile (· != byteLF)).reverse := by
  induction bytes using List.reverseRecOn with
  | nil => cases h
  | append_singleton bytes x ih =>
    by_cases hx : x = byteLF
    · exact ⟨bytes, by simp [hx]⟩
    · have hbytes : hasLF bytes = true := by simpa [Laws.hasLF_append, hasLF, hx] using h
      obtain ⟨lines, heq⟩ := ih hbytes
      refine ⟨lines, ?_⟩
      have hsnoc : ((bytes ++ [x]).reverse.takeWhile (· != byteLF)).reverse =
          (bytes.reverse.takeWhile (· != byteLF)).reverse ++ [x] := by simp [hx]
      rw [hsnoc, ← List.cons_append, ← List.append_assoc, ← heq]

theorem hasLF_partial (bytes : List Byte) : hasLF (bytes.reverse.takeWhile (· != byteLF)).reverse = false := by
  simp only [hasLF, List.any_reverse, List.any_eq_false]
  intro x hx
  simpa using List.mem_takeWhile_imp hx

/-- The complete lines go, the partial line stays (43_commands.md R217). -/
theorem discardLines_of_hasLF {c : Channel} (h : hasLF c.acc = true) :
    ∃ lines rest, c.acc = lines ++ byteLF :: rest ∧ hasLF rest = false ∧
      discardLines c = { c with acc := rest, discard := false } := by
  obtain ⟨lines, heq⟩ := eq_lines_append_partial h
  exact ⟨lines, _, heq, hasLF_partial c.acc, by rw [discardLines, h, cond_true]⟩

theorem settleLines_of_quiet {m : Mode} {c : Channel} (h : m = .run ∨ hasLF c.acc = false) : settleLines m c = c := by
  unfold settleLines
  split
  · have hacc : hasLF c.acc = false := by simpa using h
    rw [discardLines, hacc, cond_false]
  · rfl

theorem step_recv {s : State} (mode : s.mode = .run ∨ s.mode = .shutdown) {k : ℕ} {bytes : List Byte}
    (hnext : nextAction s = .recv k bytes) : step s = .next (receive k bytes (consume s)) := by
  rw [step_of_active mode, hnext]
  rfl

/-- Settles O41: `receive_of_opened`, whose branches are the statement's (`accOverlong`, `settleLines`). -/
theorem receivedBytesAreAppended : Obligations.ReceivedBytesAreAppended := by
  intro s k bytes c hnext mode channel
  have channel' : findChannel k (consume s) = some c := (findChannel_consume k s).trans channel
  rw [step_recv mode hnext]
  refine ⟨fun closing => by rw [receive_of_closing channel' closing], fun opened wf => ?_⟩
  intro late acc tooLong
  have happend : appendBytes bytes c = { c with acc := acc } := by
    rw [appendBytes_eq, bne_byteLF]
  have hlong : accOverlong s.params { c with acc := acc } = true ↔ tooLong := by
    simp [accOverlong, overLineMax_iff, tooLong, and_assoc]
  have hupdate : ∀ {f g : Channel → Channel}, f c = g c →
      updateChannel k f (consume s) = updateChannel k g (consume s) :=
    updateChannel_congr (by rwa [consume_channels]) channel'
  rw [receive_of_opened bytes channel' opened, happend, consume_params, consume_mode]
  refine ⟨fun long => ?_, fun fits quiet => ?_, fun shutdown complete => ?_⟩
  · rw [if_pos (hlong.mpr long), emit_eq, updateChannel_eq, consume_channels, State.withChannels_evlog, consume_evlog]
    rfl
  · rw [if_neg (mt hlong.mp fits), hupdate (g := fun d => { d with acc := acc })
      (by rw [happend, settleLines_of_quiet quiet]), updateChannel_eq, consume_channels]
    rfl
  · obtain ⟨lines, rest, heq, hrest, hdiscard⟩ := discardLines_of_hasLF (c := { c with acc := acc }) complete
    have fits : ¬ tooLong := by
      rintro ⟨no_line, -⟩
      simp [complete] at no_line
    refine ⟨lines, rest, heq, hrest, ?_⟩
    rw [if_neg (mt hlong.mp fits), hupdate (g := fun d => { d with acc := rest, discard := false })
      (by rw [happend, shutdown, settleLines, hdiscard]), updateChannel_eq, consume_channels]
    rfl

/-! ## Reassembly (43_commands.md R212, R231) -/

theorem hasLF_eq_false_iff {bytes : List Byte} : hasLF bytes = false ↔ byteLF ∉ bytes := by
  rw [hasLF, List.any_beq', ← Bool.not_eq_true, List.contains_iff_mem]

/-- The bytes from the first 0x0A on: none if there is no 0x0A. -/
theorem dropWhile_of_hasLF_false {bytes : List Byte} (h : hasLF bytes = false) :
    bytes.dropWhile (· != byteLF) = [] := by
  simpa [hasLF] using h

theorem hasLF_dropWhile (bytes : List Byte) : hasLF (bytes.dropWhile (· != byteLF)) = hasLF bytes := by
  induction bytes with
  | nil => rfl
  | cons x xs ih =>
    by_cases hx : x = byteLF
    · rw [List.dropWhile_cons_of_neg (by simp [hx])]
    · rw [List.dropWhile_cons_of_pos (by simp [hx]), ih, Laws.hasLF_cons, beq_eq_false_iff_ne.mpr hx, Bool.false_or]

theorem dropWhile_append_of_hasLF {a : List Byte} (h : hasLF a = true) (b : List Byte) :
    (a ++ b).dropWhile (· != byteLF) = a.dropWhile (· != byteLF) ++ b := by
  rw [List.dropWhile_append, if_neg]
  intro hempty
  rw [← hasLF_dropWhile, List.isEmpty_iff.mp hempty] at h
  cases h

theorem appendBytes_of_skipping {c : Channel} (h : (c.discard && !hasLF c.acc) = true) (bytes : List Byte) :
    appendBytes bytes c = { c with acc := c.acc ++ bytes.dropWhile (· != byteLF) } := by
  rw [appendBytes, h, cond_true]

theorem appendBytes_of_not_skipping {c : Channel} (h : (c.discard && !hasLF c.acc) = false) (bytes : List Byte) :
    appendBytes bytes c = { c with acc := c.acc ++ bytes } := by
  rw [appendBytes, h, cond_false]

/-- Bytes in two pieces fill the buffer as they do in one: what is skipped of an overlong line ends at its 0x0A, in whichever
piece that is. -/
theorem appendBytes_append (a b : List Byte) (c : Channel) :
    appendBytes b (appendBytes a c) = appendBytes (a ++ b) c := by
  cases hskip : c.discard && !hasLF c.acc with
  | false =>
    have hskip' : (c.discard && !hasLF (c.acc ++ a)) = false := by
      rw [Laws.hasLF_append]
      revert hskip
      cases c.discard <;> cases hasLF c.acc <;> simp
    rw [appendBytes_of_not_skipping hskip, appendBytes_of_not_skipping hskip', appendBytes_of_not_skipping hskip,
      List.append_assoc]
  | true =>
    have hskip' := hskip
    rw [Bool.and_eq_true, Bool.not_eq_true'] at hskip'
    obtain ⟨hdiscard, hacc⟩ := hskip'
    rw [appendBytes_of_skipping hskip, appendBytes_of_skipping hskip]
    cases ha : hasLF a with
    | false =>
      have hskip' : (c.discard && !hasLF (c.acc ++ [])) = true := by rwa [List.append_nil]
      rw [dropWhile_of_hasLF_false ha, appendBytes_of_skipping hskip', List.append_nil, List.dropWhile_append,
        dropWhile_of_hasLF_false ha]
      rfl
    | true =>
      have hended : (c.discard && !hasLF (c.acc ++ a.dropWhile (· != byteLF))) = false := by
        rw [Laws.hasLF_append, hasLF_dropWhile, ha, Bool.or_true, Bool.not_true, Bool.and_false]
      rw [appendBytes_of_not_skipping hended, dropWhile_append_of_hasLF ha, List.append_assoc]

/-- Without a line bound RECV only appends. -/
theorem receive_of_unbounded {k : ℕ} (bytes : List Byte) {s : State} {c : Channel} (mode : s.mode = .run)
    (unbounded : s.params.lineMax = none) (channel : findChannel k s = some c) (opened : c.openState = .opened) :
    receive k bytes s = updateChannel k (appendBytes bytes) s := by
  have fits : accOverlong s.params (appendBytes bytes c) = false := by
    simp [accOverlong, overLineMax, unbounded]
  rw [receive_of_opened bytes channel opened, fits, mode]
  rfl

theorem receive_receive {k : ℕ} {s : State} (mode : s.mode = .run) (unbounded : s.params.lineMax = none)
    (a b : List Byte) : receive k b (receive k a s) = receive k (a ++ b) s := by
  have keeps_id : ∀ c, (appendBytes a c).id = c.id := fun c => (appendBytes_keepsProgress a c).1
  cases channel : findChannel k s with
  | none => simp only [receive, channel]
  | some c =>
    cases hopen : c.openState with
    | closing => rw [receive_of_closing channel hopen, receive_of_closing channel hopen, receive_of_closing channel hopen]
    | opened =>
      have channel' : findChannel k (updateChannel k (appendBytes a) s) = some (appendBytes a c) := by
        rw [findChannel_updateChannel_self _ keeps_id, channel, Option.map_some]
      have hopen' : (appendBytes a c).openState = .opened := by rw [appendBytes_eq]; exact hopen
      rw [receive_of_unbounded a mode unbounded channel hopen, receive_of_unbounded (a ++ b) mode unbounded channel hopen,
        receive_of_unbounded b (by exact mode) (by exact unbounded) channel' hopen', updateChannel_updateChannel k keeps_id]
      simp only [appendBytes_append]

/-- RECV neither reads nor writes the environment's choices. -/
theorem receive_withScript (k : ℕ) (bytes : List Byte) (s : State) (as : List Action) (n : ℕ) :
    receive k bytes (s.withScript as n) = (receive k bytes s).withScript as n := by
  have channel : findChannel k (s.withScript as n) = findChannel k s := rfl
  unfold receive
  rw [channel]
  cases findChannel k s with
  | none => rfl
  | some c =>
    dsimp only
    cases c.openState with
    | closing => rfl
    | opened =>
      dsimp only
      rw [State.withScript_params]
      cases accOverlong s.params (appendBytes bytes c) <;> rfl

/-- One step of a run. -/
theorem run_succ {s t : State} (h : step s = .next t) (m : ℕ) : Sys2Proof.core.run (m + 1) s = Sys2Proof.core.run m t := by
  have hcore : Sys2Proof.core.step s = .next t := h
  simp only [Host.Core.run, hcore]

theorem step_script_recv {s : State} (mode : s.mode = .run) (k : ℕ) (bytes : List Byte) (rest : List Action) (n : ℕ) :
    step (s.withScript (.recv k bytes :: rest) n) = .next ((receive k bytes s).withScript rest n) := by
  rw [step_script (rest := rest) rfl, stepAction_of_active (.inl (by exact mode)), act, ← receive_withScript]
  rfl

/-- Settles O42: the pieces fill the buffer alike (`receive_receive`), and a piece without 0x0A brings none. -/
theorem linesAreReassembled : Obligations.LinesAreReassembled := by
  intro s k a b rest mode unbounded
  have first := step_script_recv mode k a (.recv k b :: rest) s.drawn
  have mode' : (receive k a s).mode = .run := (receive_proceeds k a s).mode.trans mode
  refine ⟨?_, fun t c d hrun hc hd hacc ha => ?_⟩
  · calc Sys2Proof.core.run 2 (s.withScript (.recv k a :: .recv k b :: rest) s.drawn)
        = .next ((receive k b (receive k a s)).withScript rest s.drawn) :=
          (run_succ first 1).trans (run_succ (step_script_recv mode' k b rest s.drawn) 0)
      _ = .next ((receive k (a ++ b) s).withScript rest s.drawn) := by rw [receive_receive mode unbounded]
      _ = Sys2Proof.core.run 1 (s.withScript (.recv k (a ++ b) :: rest) s.drawn) :=
          (run_succ (step_script_recv mode k (a ++ b) rest s.drawn) 0).symm
  · cases (run_succ (step_script_recv mode k a rest s.drawn) 0).symm.trans hrun
    have hd : findChannel k (receive k a s) = some d := hd
    have hLF : hasLF a = false := hasLF_eq_false_iff.mpr ha
    cases hopen : c.openState with
    | closing =>
      rw [receive_of_closing hc hopen, hc, Option.some_inj] at hd
      exact hd ▸ hacc
    | opened =>
      rw [receive_of_unbounded a mode unbounded hc hopen,
        findChannel_updateChannel_self _ fun c => (appendBytes_keepsProgress a c).1, hc, Option.map_some,
        Option.some_inj] at hd
      rw [← hd, appendBytes_eq, Laws.hasLF_append, hacc, dropWhile_of_hasLF_false hLF]
      split_ifs
      · rfl
      · exact hLF

end Sys2Proof.Machine
end

section
/-! SUPPORT. In SHUTDOWN nothing new starts (43_commands.md R217): what it means that a step starts nothing (`StartsNothing`),
that a command in progress goes on without starting one, and so for every transition (`Transition.startsNothing`). -/

namespace Sys2Proof.Machine

/-- A command runs for the agent whose turn it is. -/
theorem runnerOf_withActor {i : Instr} {a : Agent} {s : State} (hframe : isFrame i = true → a = .fs) :
    runnerOf i (s.withActor a) = a := by
  unfold runnerOf
  cases hi : isFrame i with
  | true => exact (hframe hi).symm
  | false => rfl

/-- From s to t no channel comes into being, and neither a channel nor FS takes a command up. -/
structure StartsNothing (s t : State) : Prop where
  channels : ∀ k d, findChannel k t = some d →
    ∃ c, findChannel k s = some c ∧ (c.job = .idle → d.job = .idle ∧ d.busy = c.busy)
  fs : s.fs.job = .idle → t.fs.job = .idle

namespace StartsNothing

theorem of_eq {s t : State} (hchannels : t.channels = s.channels) (hfs : t.fs.job = s.fs.job) : StartsNothing s t := by
  refine ⟨fun k d hd => ⟨d, ?_, fun hjob => ⟨hjob, rfl⟩⟩, fun hjob => hfs.trans hjob⟩
  rwa [findChannel, ← hchannels]

theorem refl (s : State) : StartsNothing s s := of_eq rfl rfl

/-- A step that starts nothing, after writes to neither the channels nor FS. -/
theorem of_writes {s s' t : State} (h : StartsNothing s' t) (hchannels : s'.channels = s.channels)
    (hfs : s'.fs = s.fs) : StartsNothing s t := by
  refine ⟨fun k d hd => ?_, fun hjob => h.fs (hfs ▸ hjob)⟩
  obtain ⟨c, hc, hcd⟩ := h.channels k d hd
  rw [findChannel, hchannels] at hc
  exact ⟨c, hc, hcd⟩

theorem of_no_channels {s t : State} (hchannels : t.channels = []) (hfs : s.fs.job = .idle → t.fs.job = .idle) :
    StartsNothing s t := by
  refine ⟨fun k d hd => ?_, hfs⟩
  rw [findChannel, hchannels] at hd
  cases hd

/-- A change of CH[k] that leaves it idle if it was. -/
theorem updateChannel {k : ℕ} {f : Channel → Channel} {s : State} (hid : ∀ c, (f c).id = c.id)
    (hf : ∀ c, findChannel k s = some c → c.job = .idle → (f c).job = .idle ∧ (f c).busy = c.busy) :
    StartsNothing s (updateChannel k f s) := by
  refine ⟨fun j d hd => ?_, fun hjob => hjob⟩
  by_cases hj : j = k
  · subst hj
    rw [findChannel_updateChannel_self f hid, Option.map_eq_some_iff] at hd
    obtain ⟨c, hc, rfl⟩ := hd
    exact ⟨c, hc, hf c hc⟩
  · rw [findChannel_updateChannel_ne hj f hid] at hd
    exact ⟨d, hd, fun hjob => ⟨hjob, rfl⟩⟩

theorem removeChannel (k : ℕ) (s : State) : StartsNothing s (removeChannel k s) := by
  refine ⟨fun j d hd => ⟨d, ?_, fun hjob => ⟨hjob, rfl⟩⟩, fun hjob => hjob⟩
  have hne : d.id ≠ k := by
    have hmem := findChannel_mem hd
    rw [removeChannel_eq, State.withChannels_channels, List.mem_filter, decide_eq_true_eq] at hmem
    exact hmem.2
  have hj : j ≠ k := findChannel_id hd ▸ hne
  rw [findChannel, removeChannel_eq, State.withChannels_channels, List.find?_filter] at hd
  rw [findChannel, ← hd]
  congr 1
  funext c
  by_cases hc : c.id = j <;> simp [hc, hj]

section
variable {a : Agent} {s : State} (hjob : jobOf a s ≠ .idle)
include hjob

/-! A command in progress goes on. -/

theorem updateChannel_of_agent {k : ℕ} (ha : a = .ch k) {f : Channel → Channel} (hid : ∀ c, (f c).id = c.id) :
    StartsNothing s (Machine.updateChannel k f s) :=
  updateChannel hid fun _ hc hidle => absurd ((jobOf_ch hc).trans hidle) (ha ▸ hjob)

theorem setJob (j : Job) : StartsNothing s (setJob a j s) := by
  cases a with
  | ch k => exact updateChannel_of_agent hjob rfl fun _ => rfl
  | fs => exact ⟨(refl s).channels, fun hidle => absurd hidle hjob⟩
  | bus | sys => exact of_eq rfl rfl

theorem completeJob : StartsNothing s (completeJob a s) := by
  cases a with
  | ch k => exact updateChannel_of_agent hjob rfl fun _ => rfl
  | fs => exact ⟨(refl s).channels, fun _ => fsAfterFrame_job s⟩
  | bus | sys => exact of_eq rfl rfl

theorem endSection : StartsNothing s (endSection a s) := by
  cases order : s.params.busOrder with
  | inLock =>
    rw [endSection_inLock order]
    exact (setJob (by exact hjob) .transfer).of_writes rfl rfl
  | snapshot =>
    rw [endSection_snapshot order]
    exact setJob hjob _

theorem acquireBusLock (bytes : List Byte) : StartsNothing s (acquireBusLock a bytes s) := by
  rcases acquireBusLock_cases a bytes s with ⟨-, -, heq⟩ | heq <;> rw [heq]
  · exact (setJob (by exact hjob) .transfer).of_writes rfl rfl
  · exact refl s

theorem finishTransfer : StartsNothing s (finishTransfer a s) := by
  rcases finishTransfer_cases a s with ⟨-, heq⟩ | heq <;> rw [heq]
  · rcases releaseLock_cases s with ⟨-, heq⟩ | ⟨-, heq⟩ <;> rw [heq] <;>
      exact (completeJob (by exact hjob)).of_writes rfl rfl
  · exact refl s

/-- A command that waited for LOCK, run for its agent. -/
theorem ran {i : Instr} {t : State} (hframe : isFrame i = true → a = .fs)
    (result : ExecResult i (s.withActor a) t) : StartsNothing s t := by
  have hrunner := runnerOf_withActor (s := s) hframe
  cases result with
  | waits => exact of_eq rfl rfl
  | endsSection c es begins =>
    rw [hrunner]
    exact (endSection (by exact hjob)).of_writes rfl rfl
  | completes c es free =>
    rw [hrunner]
    exact (completeJob (by exact hjob)).of_writes rfl rfl

end

end StartsNothing

/-- A command starts in RUN only (43_commands.md R217, 44_frame_port.md R265). -/
theorem CommandStarts.mode_run {s t : State} {a : Agent} {i : Instr} (h : CommandStarts s a i t) : s.mode = .run := by
  cases h with
  | line channel idle ready fate =>
    simp only [canTakeLine, Bool.and_eq_true, beq_iff_eq] at ready
    exact ready.1.2
  | frame px mode request => exact mode

theorem Transition.startsNothing {s t : State} (hcmd : CommandInv s) (mode : s.mode = .shutdown)
    (step : Transition s t) : StartsNothing s t := by
  have not_run : s.mode ≠ .run := by simp [mode]
  have not_init : s.mode ≠ .init := by simp [mode]
  cases step with
  | unchanged => exact .refl s
  | reset => exact .of_no_channels rfl fun _ => rfl
  | booted mode | openFailed mode => exact absurd mode not_init
  | shutdown mode | opened _ mode => exact absurd mode not_run
  | finalClear | latchEnded | elapsed | woke => exact .of_eq rfl rfl
  | stopped => exact .of_no_channels rfl fun hjob => hjob
  | transferred res bus =>
    obtain ⟨es, heq⟩ := xferStep_eq res s
    rw [heq]
    exact .of_eq rfl rfl
  | buffered k f es keeps =>
    have hupdate : StartsNothing s (updateChannel k f s) := .updateChannel (fun c => (keeps c).1) fun c _ hidle => by
      obtain ⟨-, hbusy, hjob⟩ := keeps c
      exact ⟨hjob.trans hidle, hbusy⟩
    exact ⟨hupdate.channels, hupdate.fs⟩
  | removed k c channel idle => exact .removeChannel k s
  | started a i t starts | ran a i s' t starts runs => exact absurd starts.mode_run not_run
  | retried a i t not_sys job runs => exact .ran (by simp [job]) (hcmd.frame_is_fs job not_sys) runs
  | awaitedBus a bytes not_sys job => exact .acquireBusLock (by simp [job]) bytes
  | awaitedClient a not_sys job => exact .finishTransfer (by simp [job])

/-- Settles O60, transition by transition (`Transition.startsNothing`). -/
theorem nothingStartsInShutdown : Obligations.NothingStartsInShutdown := by
  intro s t hcmd mode h
  obtain ⟨hchannels, hfs⟩ := (step_transition h).startsNothing hcmd.consume (by rwa [consume_mode])
  simp only [findChannel_consume, consume_fs] at hchannels hfs
  refine ⟨fun k c d hc hidle hd => ?_, fun k hnone => ?_, hfs⟩
  · obtain ⟨c', hc', hcd⟩ := hchannels k d hd
    rw [hc, Option.some_inj] at hc'
    subst hc'
    exact hcd hidle
  · rw [Option.eq_none_iff_forall_ne_some]
    intro d hd
    obtain ⟨c, hc, -⟩ := hchannels k d hd
    simp [hnone] at hc

end Sys2Proof.Machine
end

section
/-! SUPPORT. A transferring line command from its line to its completion (43_commands.md R214, R218): the line and its section,
the request of the transfer, which alone differs with the order of the locks (`TransferRequested`), and the transfer, its
latch and the completion, which are the same four steps under either order (`TransferRequested.run`). -/

namespace Sys2Proof.Machine

/-! ## The line and its section -/

/-- A transferring command that a line spells begins, with no event. -/
theorem exec_line_starts {i : Instr} (hwf : i.wf = true) (htransfers : transfers i = true) (hline : isFrame i = false)
    {s : State} {k : ℕ} (actor : s.actor = .ch k) (begins : TransferMayBegin s) :
    ∃ t, exec i s = .next t ∧ TransferStarted (.ch k) s t ∧ t.evlog = s.evlog := by
  suffices h : ∃ body c, exec i s = runTransferring s.actor body s ∧ body s = s.withColor c by
    obtain ⟨body, c, hexec, hbody⟩ := h
    obtain ⟨t, hnext, hstarted, -, hevlog⟩ := exec_starts actor hexec hbody begins
    exact ⟨t, hnext, hstarted, hevlog⟩
  cases i with
  | color r g b => exact ⟨colorSection r g b, _, rfl, colorSection_eq r g b s⟩
  | pix idx r g b => exact ⟨pixSection idx r g b, _, rfl, rfl⟩
  | bright b => exact ⟨brightSection b, _, rfl, rfl⟩
  | gamma g => exact ⟨gammaSection g, _, exec_gamma_of_finite hwf s, rfl⟩
  | showStrip => exact ⟨showSection, _, rfl, rfl⟩
  | clear => exact ⟨clearSection, _, rfl, rfl⟩
  | smooth a | status => cases htransfers
  | frame px => cases hline

/-- s with the first line of CH[k] taken and its command i about to run. -/
def lineTaken (k : ℕ) (i : Instr) (s : State) : State :=
  ((consume s).withChannels (s.channels.map fun d =>
    if d.id = k then { d with acc := afterLF d.acc, discard := false, busy := true, job := .waitLock i } else d)).withActor
      (.ch k)

theorem step_of_lineReady {s : State} {k : ℕ} {c : Channel} {i : Instr} (mode : s.mode = .run)
    (ready : LineReady k c i s) (hnext : nextAction s = .ch k) : step s = exec i (lineTaken k i s) :=
  (stepRunsTheDecodedLine s k c i mode ready).1 hnext

theorem findChannel_lineTaken {s : State} {k : ℕ} {c : Channel} (i : Instr) (channel : findChannel k s = some c) :
    findChannel k (lineTaken k i s) =
      some { c with acc := afterLF c.acc, discard := false, busy := true, job := .waitLock i } := by
  have hupdate := findChannel_updateChannel_self (k := k)
    (fun d => { d with acc := afterLF d.acc, discard := false, busy := true, job := .waitLock i }) (fun _ => rfl) (consume s)
  rw [findChannel_consume, channel, updateChannel_eq, consume_channels] at hupdate
  exact hupdate

theorem consume_script {s : State} {a : Action} {acts : List Action} (h : s.script = a :: acts) :
    (consume s).script = acts := by
  simp [consume, h]

theorem nextAction_script {s : State} {a : Action} {acts : List Action} (h : s.script = a :: acts) : nextAction s = a := by
  simp [nextAction, h]

@[simp] theorem lineTaken_params (k : ℕ) (i : Instr) (s : State) : (lineTaken k i s).params = s.params := by
  simp [lineTaken]
@[simp] theorem lineTaken_mode (k : ℕ) (i : Instr) (s : State) : (lineTaken k i s).mode = s.mode := by
  simp [lineTaken]
@[simp] theorem lineTaken_lock (k : ℕ) (i : Instr) (s : State) : (lineTaken k i s).lock = s.lock := by
  simp [lineTaken]
@[simp] theorem lineTaken_bus (k : ℕ) (i : Instr) (s : State) : (lineTaken k i s).bus = s.bus := by
  simp [lineTaken]
@[simp] theorem lineTaken_evlog (k : ℕ) (i : Instr) (s : State) : (lineTaken k i s).evlog = s.evlog := by
  simp [lineTaken]
@[simp] theorem lineTaken_buslog (k : ℕ) (i : Instr) (s : State) : (lineTaken k i s).buslog = s.buslog := by
  simp [lineTaken]

theorem lineTaken_script (k : ℕ) (i : Instr) {s : State} {a : Action} {acts : List Action} (h : s.script = a :: acts) :
    (lineTaken k i s).script = acts := by
  simp [lineTaken, consume_script h]

theorem OnlyAgentMoves.findChannel {k : ℕ} {busy : Bool} {j : Job} {s t : State} (h : OnlyAgentMoves (.ch k) busy j s t)
    {c : Channel} (channel : findChannel k s = some c) : findChannel k t = some { c with busy := busy, job := j } := by
  have hupdate := findChannel_updateChannel_self (k := k) (fun d => { d with busy := busy, job := j }) (fun _ => rfl) s
  rw [channel, updateChannel_eq] at hupdate
  have hchannels : t.channels = s.channels.map fun d => if d.id = k then { d with busy := busy, job := j } else d := by
    simpa using h.channels
  rw [Machine.findChannel, hchannels]
  exact hupdate

/-! ## The transfer, its latch, and the completion (42_bus_writer.md R182, R185, R188, R189) -/

/-- From s on the command of CH[k] has come to u, where its transfer of O is requested; CH[k] is c, the lock that it does not
hold is free, the logs are those of s, and the environment's next choices are `acts`. -/
structure TransferRequested (k : ℕ) (c : Channel) (acts : List Action) (s u : State) : Prop where
  params : u.params = s.params
  buslog : u.buslog = s.buslog
  evlog : u.evlog = s.evlog
  script : u.script = acts
  mode : u.mode = .run
  bus_xfer : u.bus.state = .xfer
  frame : u.bus.frame = u.color.mem.o
  channel : findChannel k u = some c
  job : c.job = .transfer
  bus_lock : u.params.busOrder = .inLock → u.bus.lock = .free
  lock : u.params.busOrder = .snapshot → u.lock = .free

/-- u once BUS has made its whole transfer (42_bus_writer.md R182). -/
def transferMade (u : State) (acts : List Action) : State :=
  ((u.withBuslog (u.buslog ++ [{ bytes := u.bus.frame, result := .done (3 * u.params.n) }])).withBus
    { u.bus with state := .latch, latchLeft := u.params.tLatch }).withScript acts u.drawn

/-- Then d has elapsed, and BUS has ended the latch (R185). -/
def transferEnded (u : State) (d : ℕ) (acts : List Action) : State := latchEnd (elapse d (transferMade u acts))

theorem transferEnded_params (u : State) (d : ℕ) (acts : List Action) : (transferEnded u d acts).params = u.params := by
  simp [transferEnded, latchEnd, elapse, transferMade]

theorem transferEnded_channels (u : State) (d : ℕ) (acts : List Action) :
    (transferEnded u d acts).channels = u.channels := by
  simp [transferEnded, latchEnd, elapse, transferMade]

theorem step_script_active {s : State} (mode : s.mode = .run) {a : Action} {acts : List Action}
    (script : s.script = a :: acts) : step s = act a (s.withScript acts s.drawn) := by
  rw [step_script script, stepAction_of_active (.inl (by exact mode))]

theorem whole_answer_legal (n : ℕ) : xferAnswerLegal n (.done (3 * n)) = true := Nat.ble_eq.mpr le_rfl

theorem step_makes_transfer {u : State} (mode : u.mode = .run) (transfers : u.bus.state = .xfer) {acts : List Action}
    (script : u.script = .bus (.done (3 * u.params.n)) :: acts) : step u = .next (transferMade u acts) := by
  rw [step_script_active mode script, act,
    busStep_of_xfer (s := u.withScript acts u.drawn) transfers (whole_answer_legal u.params.n), xferStep,
    emitXferEvent_done, if_neg (by simp)]
  rfl

/-- The transfer step, the latch and its end are three steps, whatever the order of the locks. -/
theorem run_transfer {u : State} (mode : u.mode = .run) (transfers : u.bus.state = .xfer) {d : ℕ}
    (latched : u.params.tLatch ≤ d) (x : XferResult) (acts : List Action) (m : ℕ)
    (script : u.script = .bus (.done (3 * u.params.n)) :: .tick d :: .bus x :: acts) :
    Sys2Proof.core.run (m + 3) u = Sys2Proof.core.run m (transferEnded u d acts) := by
  have hpasses : step (transferMade u (.tick d :: .bus x :: acts)) =
      .next (elapse d (transferMade u (.bus x :: acts))) :=
    step_script_active (s := transferMade u (.tick d :: .bus x :: acts)) mode rfl
  have hends : step (elapse d (transferMade u (.bus x :: acts))) = .next (transferEnded u d acts) := by
    have hleft : (elapse d (transferMade u acts)).bus.latchLeft = 0 := Nat.sub_eq_zero_of_le latched
    rw [step_script_active (s := elapse d (transferMade u (.bus x :: acts))) mode rfl]
    exact congrArg _ ((busStep_of_latch (s := elapse d (transferMade u acts)) rfl x).trans (if_pos hleft))
  rw [run_succ (step_makes_transfer mode transfers script), run_succ hpasses, run_succ hends]

/-- CH[k], released by BUS, frees the lock it holds and is done. -/
theorem step_finishes_transfer {k : ℕ} {c : Channel} {s : State} {acts : List Action} (mode : s.mode = .run)
    (script : s.script = .ch k :: acts) (channel : findChannel k s = some c) (job : c.job = .transfer)
    (released : s.bus.client ≠ some (.ch k)) :
    step s = .next (completeJob (.ch k) (releaseLock (s.withScript acts s.drawn))) := by
  have hconsume : consume s = s.withScript acts s.drawn := by simp only [consume, script]
  rw [step_ch_of_job (.inl mode) (nextAction_script script) channel (by simp [job]), job, jobStep, hconsume,
    finishTransfer_of_released (by exact released)]

theorem releaseLock_channels (s : State) : (releaseLock s).channels = s.channels := by
  rcases releaseLock_cases s with ⟨-, heq⟩ | ⟨-, heq⟩ <;> rw [heq] <;> rfl

theorem findChannel_congr {s t : State} (h : t.channels = s.channels) (k : ℕ) : findChannel k t = findChannel k s := by
  rw [findChannel, h, findChannel]

theorem findChannel_completeJob {k : ℕ} {c : Channel} {s : State} (channel : findChannel k s = some c) :
    findChannel k (completeJob (.ch k) s) = some { c with busy := false, job := .idle } := by
  have hself := findChannel_updateChannel_self (k := k) (fun c => { c with busy := false, job := .idle })
    (fun _ => rfl) s
  rwa [channel] at hself

/-- A requested transfer, made and latched, and its command completed. -/
theorem TransferRequested.run {k : ℕ} {c : Channel} {acts : List Action} {s u : State}
    (h : TransferRequested k c acts s u) {d : ℕ} (latched : s.params.tLatch ≤ d) (x : XferResult) (rest : List Action)
    (hacts : acts = .bus (.done (3 * s.params.n)) :: .tick d :: .bus x :: .ch k :: rest) :
    ∃ t, Sys2Proof.core.run 4 u = .next t ∧
      t.buslog = s.buslog ++ [{ bytes := t.color.mem.o, result := .done (3 * s.params.n) }] ∧
      findChannel k t = some { c with busy := false, job := .idle } ∧
      t.lock = .free ∧ t.bus.lock = .free ∧ t.bus.state = .idle ∧ t.bus.client = none ∧ t.mode = .run ∧
      t.evlog = s.evlog ∧ t.script = rest := by
  have hscript := h.script.trans hacts
  rw [← h.params] at latched hscript ⊢
  rw [← h.buslog, ← h.evlog]
  have hfinish : step (transferEnded u d (.ch k :: rest)) =
      .next (completeJob (.ch k) (releaseLock (transferEnded u d rest))) :=
    step_finishes_transfer h.mode rfl ((findChannel_congr (transferEnded_channels ..) k).trans h.channel) h.job
      (by simp [transferEnded, latchEnd])
  have hdone : findChannel k (completeJob (.ch k) (releaseLock (transferEnded u d rest))) =
      some { c with busy := false, job := .idle } := by
    refine findChannel_completeJob (Eq.trans (findChannel_congr ?_ k) h.channel)
    rw [releaseLock_channels, transferEnded_channels]
  refine ⟨_, (run_transfer h.mode h.bus_xfer latched x _ 1 hscript).trans (run_succ hfinish 0), ?_⟩
  obtain ⟨-, hmode, hcolor, hlock, hbus, hevlog, hbuslog, -, -, hrest, -⟩ :=
    completeJob_frame (.ch k) (releaseLock (transferEnded u d rest))
  rw [hmode, hcolor, hlock, hbus, hevlog, hbuslog, hrest, hdone]
  rcases releaseLock_cases (transferEnded u d rest) with ⟨order, heq⟩ | ⟨order, heq⟩ <;> rw [heq] <;>
    rw [transferEnded_params] at order
  · simp [transferEnded, latchEnd, elapse, transferMade, h.frame, h.bus_lock order, h.mode]
  · simp [transferEnded, latchEnd, elapse, transferMade, h.frame, h.lock order, h.mode]

/-! ## The whole command -/

/-- Under IN_LOCK the section ends with the transfer requested (42_bus_writer.md R188). -/
theorem TransferStarted.requested {k : ℕ} {c : Channel} {s w : State} (h : TransferStarted (.ch k) s w)
    (hevlog : w.evlog = s.evlog) (order : s.params.busOrder = .inLock) (mode : s.mode = .run)
    (busLock : s.bus.lock = .free) (channel : findChannel k s = some c) :
    TransferRequested k { c with busy := true, job := .transfer } s.script s w := by
  obtain ⟨-, hbus, moves⟩ := h.in_lock order
  refine ⟨moves.params, moves.buslog, hevlog, moves.choices.1, moves.mode.trans mode, by rw [hbus], by rw [hbus],
    moves.findChannel channel, rfl, fun _ => ?_, fun order' => ?_⟩
  · rw [hbus]
    exact busLock
  · rw [moves.params, order] at order'
    cases order'

/-- Under SNAPSHOT the command takes the free BUS_LOCK and requests its transfer in its next step (R189). -/
theorem TransferStarted.takes_busLock {k : ℕ} {c : Channel} {s w : State} {acts : List Action}
    (h : TransferStarted (.ch k) s w) (hevlog : w.evlog = s.evlog) (order : s.params.busOrder = .snapshot)
    (mode : s.mode = .run) (busLock : s.bus.lock = .free) (idle : s.bus.state = .idle)
    (channel : findChannel k s = some c) (script : s.script = .ch k :: acts) :
    ∃ u, step w = .next u ∧ TransferRequested k { c with busy := true, job := .transfer } acts s u := by
  obtain ⟨lock, hbus, moves⟩ := h.by_snapshot order
  have script' := moves.choices.1.trans script
  have waiting := moves.findChannel channel
  obtain ⟨takes, -⟩ :=
    (snapshotTakesBusLock w w.color.mem.o (.inl (moves.mode.trans mode))).1 k _ (nextAction_script script') waiting rfl
  have requested := findChannel_updateChannel_self (k := k) (fun d => { d with busy := true, job := .transfer })
    (fun _ => rfl) w
  rw [waiting, updateChannel_eq] at requested
  refine ⟨_, takes (by rwa [hbus]) (by rwa [hbus]), ?_⟩
  refine ⟨by simp [moves.params], by simp [moves.buslog], by simp [hevlog], consume_script script',
    by simp [moves.mode, mode], rfl, by simp, (findChannel_congr rfl k).trans requested, rfl, fun order' => ?_,
    fun _ => by simp [lock]⟩
  rw [consume_params, moves.params, order] at order'
  cases order'

/-- The channel of a completed line is as it was, without the line. -/
theorem LineReady.completed_channel {k : ℕ} {c : Channel} {i : Instr} {s : State} (h : LineReady k c i s) :
    { c with acc := afterLF c.acc, discard := false, busy := false, job := .idle } = { c with acc := afterLF c.acc } := by
  simp only [← h.no_job]
  rw [h.not_skipping, h.not_busy]

/-- Settles O58: the section is run (`exec_line_starts`), the transfer requested under either order of the locks
(`TransferStarted.requested`, `TransferStarted.takes_busLock`), and made (`TransferRequested.run`). -/
theorem transferringCommandRuns : Obligations.TransferringCommandRuns := by
  intro s k d c i x y rest mode ready htransfers lock idle client busLock latched
  dsimp only
  intro script
  have begins : TransferMayBegin (lineTaken k i s) := by simp [TransferMayBegin, lock, idle]
  obtain ⟨w, hexec, started, hevlog⟩ := exec_line_starts (decodeLine_wf ready.decodes) htransfers
    (decodeLine_ne_frame ready.decodes) rfl begins
  have taken := findChannel_lineTaken i ready.channel
  rw [← lineTaken_mode k i s] at mode
  rw [← lineTaken_bus k i s] at busLock idle
  rw [← ready.completed_channel]
  cases order : s.params.busOrder with
  | inLock =>
    rw [order] at script
    have hstep := (step_of_lineReady (by simpa using mode) ready (nextAction_script script)).trans hexec
    obtain ⟨t, hrun, done⟩ :=
      (started.requested hevlog (by simpa using order) mode busLock taken).run (by simpa using latched) x rest
        (by simpa using lineTaken_script k i script)
    rw [lineTaken_buslog, lineTaken_evlog, lineTaken_params] at done
    exact ⟨t, (run_succ hstep 4).trans hrun, done⟩
  | snapshot =>
    rw [order] at script
    have hstep := (step_of_lineReady (by simpa using mode) ready (nextAction_script script)).trans hexec
    obtain ⟨u, hrequest, requested⟩ := started.takes_busLock hevlog (by simpa using order) mode busLock idle taken
      (lineTaken_script k i script)
    obtain ⟨t, hrun, done⟩ := requested.run (by simpa using latched) y rest (by simp)
    rw [lineTaken_buslog, lineTaken_evlog, lineTaken_params] at done
    exact ⟨t, (run_succ hstep 5).trans ((run_succ hrequest 4).trans hrun), done⟩

end Sys2Proof.Machine
end

section
/-! SUPPORT. The statements of 44_frame_port.md on FRAME: the step that takes UPSTREAM's answer up (R260, R261), and what FRAME
leaves for a frame of N triples (R262) and for one of another length (R263), by the template of 43_commands.md R218
(`runTransferring_starts`). -/

namespace Sys2Proof.Machine

/-! ## The request and its answer (44_frame_port.md R260, R261) -/

theorem fsStep_of_req {s : State} (mode : s.mode = .run) (request : s.fs.state = .req) (px : List Pixel) :
    fsStep px s = exec (.frame px) ((frameRequested px s).withActor .fs) := by
  rw [fsStep, request, mode]
  rfl

theorem fsStart_of_req {s : State} (mode : s.mode = .run) (request : s.fs.state = .req) (px : List Pixel) :
    fsStart px s = frameRequested px s := by
  rw [fsStart, request, mode]
  rfl

/-- Settles O18: both actions take the answer up (`frameRequested`), and the step of FS then runs it. -/
theorem stepRunsTheUpstreamFrame : Obligations.StepRunsTheUpstreamFrame := by
  intro s px mode request
  have mode' : (consume s).mode = .run := by rwa [consume_mode]
  rw [← consume_fs s] at request ⊢
  refine ⟨fun hnext => ?_, fun hnext => ?_⟩
  · rw [step_of_active (.inl mode), hnext, act, fsStep_of_req mode' request]
    rfl
  · rw [step_of_active (.inl mode), hnext, act, fsStart_of_req mode' request]
    rfl

/-! ## The smoothing input of FRAME (30_encoding.md R98) -/

/-- Past its first triple a frame reads as the rest of it. -/
theorem frameByte_cons_add_three (p : Pixel) (px : List Pixel) (j : ℕ) : frameByte (p :: px) (j + 3) = frameByte px j := by
  simp [frameByte]

theorem flat_getElem?_frameByte {px : List Pixel} {j : ℕ} (hj : j < 3 * px.length) :
    (flat px)[j]? = some (frameByte px j) := by
  induction px generalizing j with
  | nil => simp at hj
  | cons p px ih =>
    obtain ⟨r, g, b⟩ := p
    rw [List.length_cons] at hj
    match j with
    | 0 | 1 | 2 => rfl
    | j + 3 =>
      rw [frameByte_cons_add_three]
      exact ih (by omega)

theorem frameInput_getElem?_frameByte {px : List Pixel} {j : ℕ} (hj : j < 3 * px.length) :
    (frameInput px)[j]? = some (f32OfInt (frameByte px j).toNat) := by
  rw [frameInput, List.getElem?_map, flat_getElem?_frameByte hj]
  rfl

/-! ## The section of FRAME (44_frame_port.md R262, R263) -/

theorem frameSection_of_length {px : List Pixel} {s : State} (hlen : px.length = s.params.n) :
    frameSection px s = s.withColor (reshape (smoothAll (frameInput px) s.color)) := by
  rw [frameSection, applySmoothing_of_length (by rw [frameInput_length, hlen])]
  rfl

theorem applySmoothing_of_length_ne {a : Agent} {new : List F32} {s : State} (h : new.length ≠ 3 * s.params.n) :
    applySmoothing a new s = emit .frameLen a (.length new.length) s := by
  rcases applySmoothing_cases a new s with ⟨heq, -⟩ | ⟨-, heq⟩
  · exact absurd heq h
  · exact heq

theorem frameSection_of_length_ne {px : List Pixel} {s : State} (hlen : px.length ≠ s.params.n) :
    frameSection px s = (s.withColor (reshape s.color)).withEvlog
      (s.evlog ++ [{ code := .frameLen, agent := .fs, info := .length (3 * px.length) }]) := by
  rw [frameSection, applySmoothing_of_length_ne (by rw [frameInput_length]; omega), frameInput_length]
  rfl

/-- Settles O30: the section smooths every target toward its byte (`retargeted_reshape_smoothAll`). -/
theorem frameResult : Obligations.FrameResult := by
  intro px s hlen hwf begins
  obtain ⟨t, hexec, hstarted, hcolor, hevlog⟩ :=
    runTransferring_starts (a := .fs) (es := s.evlog) nofun (frameSection_of_length hlen) begins
  refine ⟨t, hexec, hstarted, hcolor ▸ ?_, hevlog⟩
  exact retargeted_reshape_smoothAll hwf (by rw [frameInput_length, hlen]) fun _ hj =>
    frameInput_getElem?_frameByte (hlen ▸ hj)

/-- Settles O31: the section logs the length received and reshapes the targets as they are (`retargeted_reshape_self`). -/
theorem frameLengthMismatch : Obligations.FrameLengthMismatch := by
  intro px s hlen hwf begins
  obtain ⟨t, hexec, hstarted, hcolor, hevlog⟩ :=
    runTransferring_starts (a := .fs) nofun (frameSection_of_length_ne hlen) begins
  exact ⟨t, hexec, hstarted, hcolor ▸ retargeted_reshape_self hwf, hevlog⟩

end Sys2Proof.Machine
end

section
/-! SUPPORT. FS at rest, in SLEEP or HALT (44_frame_port.md R260, R264, R265): no other agent writes the frame sequencer, since
FRAME is FS's own command (`chStep_fs`); what one step can make of FS at rest, said once (`stepAction_restingResult`); and the
statement on the sleep read off it. -/

namespace Sys2Proof.Machine

/-! ## Another agent's command leaves FS alone -/

section
variable {a : Agent} (other : a ≠ .fs)
include other

theorem setJob_fs (j : Job) (s : State) : (setJob a j s).fs = s.fs := by
  cases a with
  | fs => exact absurd rfl other
  | ch k | bus | sys => rfl

theorem completeJob_fs (s : State) : (completeJob a s).fs = s.fs := by
  cases a with
  | fs => exact absurd rfl other
  | ch k | bus | sys => rfl

theorem endSection_fs (s : State) : (endSection a s).fs = s.fs := by
  cases order : s.params.busOrder with
  | inLock =>
    rw [endSection_inLock order]
    exact setJob_fs other ..
  | snapshot =>
    rw [endSection_snapshot order]
    exact setJob_fs other ..

theorem acquireBusLock_fs (bytes : List Byte) (s : State) : (acquireBusLock a bytes s).fs = s.fs := by
  rcases acquireBusLock_cases a bytes s with ⟨-, -, heq⟩ | heq <;> rw [heq]
  exact setJob_fs other ..

theorem finishTransfer_fs (s : State) : (finishTransfer a s).fs = s.fs := by
  rcases finishTransfer_cases a s with ⟨-, heq⟩ | heq <;> rw [heq]
  rw [completeJob_fs other]
  rcases releaseLock_cases s with ⟨-, heq⟩ | ⟨-, heq⟩ <;> rw [heq] <;> rfl

/-- A command that is not FRAME, run for its agent. -/
theorem ExecResult.fs_of_line {i : Instr} {s t : State} (line : isFrame i = false)
    (result : ExecResult i (s.withActor a) t) : t.fs = s.fs := by
  have hrunner : runnerOf i (s.withActor a) ≠ .fs := by
    rwa [runnerOf_withActor (by simp [line])]
  cases result with
  | waits => rfl
  | endsSection c es begins => exact endSection_fs hrunner _
  | completes c es free => exact completeJob_fs hrunner _

theorem jobStep_fs {j : Job} {s t : State} (carries : jobCarries false j = true) (h : jobStep a j s = .next t) :
    t.fs = s.fs := by
  cases j with
  | idle => cases h; rfl
  | waitLock i =>
    simp only [jobCarries, Bool.and_eq_true, beq_iff_eq] at carries
    exact (exec_result h).fs_of_line other carries.2
  | waitBus bytes => cases h; exact acquireBusLock_fs other bytes s
  | transfer => cases h; exact finishTransfer_fs other s

end

/-! ## The channels -/

theorem takeLine_fs (k : ℕ) (fate : LineFate) (s : State) : (takeLine k fate s).fs = s.fs := by
  cases fate <;> rfl

theorem runLine_fs {k : ℕ} {p : Params} {c : Channel} {s t : State} (h : runLine k (lineFate p c) s = .next t) :
    t.fs = s.fs := by
  cases fate : lineFate p c with
  | command i =>
    rw [fate] at h
    have line : isFrame i = false := decodeLine_ne_frame (lineFate_command fate).1
    exact ((exec_result h).fs_of_line (a := .ch k) nofun line).trans (takeLine_fs ..)
  | tail | overlong | dropped d =>
    rw [fate] at h
    cases h
    exact takeLine_fs ..

theorem idleChannelStep_fs {k : ℕ} {c : Channel} {s t : State} (h : idleChannelStep k c s = .next t) : t.fs = s.fs := by
  unfold idleChannelStep at h
  cases ready : canTakeLine s c with
  | true =>
    rw [ready, cond_true] at h
    exact runLine_fs h
  | false =>
    cases hremove : canRemove c <;> simp only [ready, hremove, cond_true, cond_false] at h <;> cases h
    · rfl
    · rfl

/-- A channel carries no FRAME (30_encoding.md R98), so its step leaves FS alone. -/
theorem chStep_fs {k : ℕ} {s t : State} (hcmd : CommandInv s) (h : chStep k s = .next t) : t.fs = s.fs := by
  unfold chStep at h
  cases channel : findChannel k s with
  | none => simp only [channel] at h; cases h; rfl
  | some c =>
    simp only [channel] at h
    split at h
    · exact idleChannelStep_fs h
    · exact jobStep_fs (a := .ch k) nofun (hcmd.channel_jobs c (findChannel_mem channel)) h

theorem chStart_fs (k : ℕ) (s : State) : (chStart k s).fs = s.fs := by
  unfold chStart
  cases findChannel k s with
  | none => rfl
  | some c =>
    dsimp only
    cases c.job == .idle && canTakeLine s c with
    | true => exact takeLine_fs ..
    | false => rfl

theorem openChannel_fs (k : ℕ) (s : State) : (openChannel k s).fs = s.fs := by
  rcases openChannel_cases k s with ⟨-, -, -, heq⟩ | heq <;> rw [heq]
  rfl

theorem receive_fs (k : ℕ) (bytes : List Byte) (s : State) : (receive k bytes s).fs = s.fs := by
  rcases receive_cases k bytes s with ⟨_, -, -, -, heq⟩ | ⟨_, -, -, -, heq⟩ | heq <;> rw [heq] <;> rfl

/-! ## BUS and SYS -/

theorem busStep_fs (res : XferResult) (s : State) : (busStep res s).fs = s.fs := by
  rcases busStep_cases res s with ⟨-, -, heq⟩ | ⟨-, -, heq⟩ | heq <;> rw [heq]
  · obtain ⟨es, hxfer⟩ := xferStep_eq res s
    rw [hxfer]
    rfl
  · rfl

theorem sysStep_fs (s : State) : (sysStep s).fs = s.fs := by
  unfold sysStep
  cases s.mode with
  | shutdown => rcases shutdownStep_cases s with ⟨-, -, heq⟩ | ⟨-, -, heq⟩ | heq <;> simp only [heq] <;> rfl
  | init | run | failed | stopped => rfl

theorem boot_fs {r : DevOpen} {s t : State} (h : boot r s = .next t) : t.fs = s.fs := by
  rcases boot_cases r s with ⟨-, -, heq⟩ | ⟨-, -, heq⟩ | ⟨-, heq⟩ <;> cases heq.symm.trans h <;> rfl

/-! ## The step and FS at rest -/

/-- FS is in SLEEP or HALT. -/
def FsAtRest (f : FrameSeq) : Prop := f.state = .sleep ∨ f.state = .halt

/-- What action a makes of the frame sequencer of s, at rest. -/
inductive RestingResult (a : Action) (s : State) : FrameSeq → Prop
  /-- Another agent, or the host; or FS, which sleeps on or has halted. -/
  | rests (no_time : s.mode = .run ∨ s.mode = .shutdown → elapsedBy a = 0) : RestingResult a s s.fs
  /-- FS wakes (44_frame_port.md R264). -/
  | woke (px : List Pixel) (acts : a = .fs px) (mode : s.mode = .run) (asleep : s.fs.state = .sleep)
      (slept : s.fs.timer = 0) : RestingResult a s { s.fs with state := .req }
  /-- SHUTDOWN_REQ halts FS (R265). -/
  | halted (acts : a = .shutdownReq) : RestingResult a s { s.fs with state := .halt }
  /-- Elapsed time. -/
  | elapsed (d : ℕ) (acts : a = .tick d) : RestingResult a s { s.fs with timer := s.fs.timer - d }

theorem RestingResult.unmoved {a : Action} {s : State} {f : FrameSeq} (no_time : elapsedBy a = 0) (h : f = s.fs) :
    RestingResult a s f := h ▸ .rests fun _ => no_time

theorem fsStep_of_sleep {s : State} (asleep : s.fs.state = .sleep) (px : List Pixel) :
    fsStep px s = if s.mode = .run ∧ s.fs.timer = 0 then .next (s.withFs { s.fs with state := .req }) else .next s := by
  simp only [fsStep, asleep, Bool.cond_eq_ite, Bool.and_eq_true, beq_iff_eq]

theorem fsStep_restingResult {px : List Pixel} {s t : State} (rest : FsAtRest s.fs) (h : fsStep px s = .next t) :
    RestingResult (.fs px) s t.fs := by
  rcases rest with asleep | halted
  · rw [fsStep_of_sleep asleep] at h
    split_ifs at h with wakes <;> cases h
    · exact .woke px rfl wakes.1 asleep wakes.2
    · exact .unmoved rfl rfl
  · rw [fsStep, halted] at h
    cases h
    exact .unmoved rfl rfl

/-- At rest FS makes no request. -/
theorem fsStart_of_rest {s : State} (rest : FsAtRest s.fs) (px : List Pixel) : fsStart px s = s := by
  rcases rest with state | state <;> rw [fsStart, state]

theorem haltFs_of_rest {f : FrameSeq} (rest : FsAtRest f) : haltFs f = { f with state := .halt } := by
  rcases rest with state | state <;> rw [haltFs, state]

theorem shutdownRequest_restingResult {s : State} (rest : FsAtRest s.fs) :
    RestingResult .shutdownReq s (shutdownRequest s).fs := by
  by_cases mode : s.mode = .run
  · rw [shutdownRequest_of_run mode, State.withChannels_fs, State.withFs_fs, haltFs_of_rest rest]
    exact .halted rfl
  · rw [shutdownRequest, beq_eq_false_iff_ne.mpr mode, cond_false]
    exact .unmoved rfl rfl

theorem act_restingResult {a : Action} {s t : State} (hcmd : CommandInv s) (rest : FsAtRest s.fs) (h : act a s = .next t)
    (ha : a ≠ .reset) : RestingResult a s t.fs := by
  cases a with
  | sys r => cases h; exact .unmoved rfl (sysStep_fs s)
  | bus res => cases h; exact .unmoved rfl (busStep_fs res s)
  | ch k => exact .unmoved rfl (chStep_fs hcmd h)
  | chStart k => cases h; exact .unmoved rfl (chStart_fs k s)
  | fs px => exact fsStep_restingResult rest h
  | fsStart px => cases h; exact .unmoved rfl (congrArg State.fs (fsStart_of_rest rest px))
  | openCh k => cases h; exact .unmoved rfl (openChannel_fs k s)
  | closeCh k => cases h; exact .unmoved rfl rfl
  | recv k bytes => cases h; exact .unmoved rfl (receive_fs k bytes s)
  | shutdownReq => cases h; exact shutdownRequest_restingResult rest
  | reset => exact absurd rfl ha
  | tick d => cases h; exact .elapsed d rfl

/-- Outside RUN and SHUTDOWN only the boot does anything, the reset input aside (10_state.md R23). -/
theorem stepAction_of_not_active {a : Action} {s t : State} (hmode : ¬ (s.mode = .run ∨ s.mode = .shutdown))
    (h : stepAction a s = .next t) (ha : a ≠ .reset) : t = s ∨ ∃ r, boot r s = .next t := by
  unfold stepAction at h
  cases mode : s.mode <;> simp only [mode] at h
  case init =>
    unfold actInit at h
    split at h
    next r => exact .inr ⟨r, h⟩
    next => exact absurd rfl ha
    next => cases h; exact .inl rfl
  case run | shutdown => simp [mode] at hmode
  case failed =>
    unfold actFailed at h
    split at h
    next => exact absurd rfl ha
    next => cases h
  case stopped =>
    unfold actStopped at h
    split at h
    next => exact absurd rfl ha
    next => cases h; exact .inl rfl

theorem stepAction_restingResult {a : Action} {s t : State} (hcmd : CommandInv s) (rest : FsAtRest s.fs)
    (h : stepAction a s = .next t) (ha : a ≠ .reset) : RestingResult a s t.fs := by
  by_cases hmode : s.mode = .run ∨ s.mode = .shutdown
  · rw [stepAction_of_active hmode] at h
    exact act_restingResult hcmd rest h ha
  · have hfs : t.fs = s.fs := by
      rcases stepAction_of_not_active hmode h ha with rfl | ⟨r, hboot⟩
      · rfl
      · exact boot_fs hboot
    rw [hfs]
    exact .rests fun active => absurd active hmode

/-! ## The sleep (44_frame_port.md R260, R264), and HALT (R265) -/

/-- FS alone ends its sleep, SHUTDOWN_REQ aside, and time alone lowers FS_TIMER. -/
theorem RestingResult.asleep {a : Action} {s : State} {f : FrameSeq} (result : RestingResult a s f)
    (asleep : s.fs.state = .sleep) (ha : a ≠ .shutdownReq) :
    (f.state = .sleep ∨ ∃ px, a = .fs px ∧ s.mode = .run ∧ s.fs.timer = 0 ∧ f.state = .req) ∧ f.job = s.fs.job ∧
      (s.mode = .run ∨ s.mode = .shutdown → f.timer = s.fs.timer - elapsedBy a) := by
  cases result with
  | rests no_time => exact ⟨.inl asleep, rfl, fun active => by rw [no_time active, Nat.sub_zero]⟩
  | woke px acts mode _ slept => exact ⟨.inr ⟨px, acts, mode, slept, rfl⟩, rfl, fun _ => by rw [acts]; rfl⟩
  | halted acts => exact absurd acts ha
  | elapsed d acts => exact ⟨.inl asleep, rfl, fun _ => by rw [acts]; rfl⟩

theorem RestingResult.stays_halted {a : Action} {s : State} {f : FrameSeq} (result : RestingResult a s f)
    (halted : s.fs.state = .halt) : f.state = .halt ∧ f.job = s.fs.job := by
  cases result with
  | rests | elapsed => exact ⟨halted, rfl⟩
  | woke _ _ _ asleep => simp [halted] at asleep
  | halted => exact ⟨rfl, rfl⟩

theorem step_fs_of_sleep {s : State} (mode : s.mode = .run) (asleep : s.fs.state = .sleep) {px : List Pixel}
    (hnext : nextAction s = .fs px) :
    step s = if s.fs.timer = 0 then .next { consume s with fs := { s.fs with state := .req } } else .next (consume s) := by
  rw [step_of_active (.inl mode), hnext, act, fsStep_of_sleep (by rwa [consume_fs]), consume_fs, consume_mode]
  simp only [mode, true_and]
  rfl

theorem step_tick {s : State} (hmode : s.mode = .run ∨ s.mode = .shutdown) {d : ℕ} (hnext : nextAction s = .tick d) :
    step s = .next (elapse d (consume s)) := by
  rw [step_of_active hmode, hnext]
  rfl

/-- Settles O44: FS's own step in SLEEP (`step_fs_of_sleep`) and elapsed time, and every step (`stepAction_restingResult`). -/
theorem frameSequencerSleeps : Obligations.FrameSequencerSleeps := by
  refine ⟨fun s mode asleep => ⟨fun px hnext => ?_, fun d hnext => ?_⟩, fun s t hcmd h ha => ?_⟩
  · rw [step_fs_of_sleep mode asleep hnext]
    exact ⟨fun slept => if_pos slept, fun sleeps => if_neg sleeps.ne'⟩
  · rw [step_tick (.inl mode) hnext, elapse, consume_bus, consume_fs]
    rfl
  · have result (rest : FsAtRest (consume s).fs) := stepAction_restingResult hcmd.consume rest h ha
    rw [← consume_mode s, ← consume_fs s]
    exact ⟨fun asleep not_request => (result (.inl asleep)).asleep asleep not_request,
      fun halted => (result (.inr halted)).stays_halted halted⟩

end Sys2Proof.Machine
end

section
/-! SUPPORT. The silently ignored commands (60_exceptions.md R285): such a command runs the section of SHOW (`exec_ignored`), and a
reshape of outputs that are shaped already changes nothing (`reshape_of_reshaped`). -/

namespace Sys2Proof.Machine

/-- The silently ignored class (60_exceptions.md R285): a PIX of no LED, and a GAMMA that setGamma refuses. -/
def Ignored (n : ℕ) (i : Instr) : Prop :=
  (∃ idx r g b, i = .pix idx r g b ∧ (idx < 0 ∨ (n : ℤ) ≤ idx)) ∨
    ∃ g, i = .gamma g ∧ f32Finite g = true ∧ f32Le g f32Hundredth = true

/-- An ignored command does what SHOW does. -/
theorem exec_ignored {i : Instr} {s : State} (ignored : Ignored s.params.n i) : exec i s = exec .showStrip s := by
  rcases ignored with ⟨idx, r, g, b, rfl, outside⟩ | ⟨g, rfl, finite, refused⟩
  · have hsection : pixSection idx r g b s = showSection s := by
      simp only [pixSection, showSection, onColor_eq, setPixel_outside r g b s.color outside]
    rw [exec, execPix, runTransferring, hsection]
    rfl
  · have hsection : gammaSection g s = showSection s := by
      simp only [gammaSection, showSection, onColor_eq, setGamma, gammaRefused, refused, cond_true]
    rw [exec_gamma_of_finite finite, runTransferring, hsection]
    rfl

theorem reshape_of_reshaped {n : ℕ} {c : ColorState} (hwf : c.mem.wf n = true) (shaped : Reshaped c) : reshape c = c := by
  obtain ⟨-, ht, ho⟩ := (memory_wf_iff n c.mem).mp hwf
  have houtput : c.mem.t.map (shape c.mem.lut c.bright) = c.mem.o := by
    refine List.ext_getElem (by rw [List.length_map, ht, ho]) fun j hj hj' => ?_
    have hread := shaped j _ (memRead_t_eq_some_iff.mpr (List.getElem?_eq_getElem (by simpa using hj)))
    rw [memRead_o_eq_some_iff, List.getElem?_eq_getElem hj', Option.some_inj] at hread
    rw [List.getElem_map, hread]
  rw [reshape, houtput]

/-- Settles O25: the command is a SHOW (`exec_ignored`), whose reshape changes nothing (`reshape_of_reshaped`). -/
theorem silentlyIgnoredCommands : Obligations.SilentlyIgnoredCommands := by
  intro i s k ignored hwf actor begins
  obtain ⟨t, hexec, hstarted, hcolor, hevlog⟩ := exec_starts (i := .showStrip) (body := showSection) actor rfl rfl begins
  refine ⟨t, (exec_ignored ignored).trans hexec, hstarted, hcolor ▸ retargeted_reshape_self hwf, fun shaped => ?_, hevlog⟩
  rw [hcolor, reshape_of_reshaped hwf shaped]

end Sys2Proof.Machine
end

section
/-! SUPPORT. What a step can answer, said once (`step_answers`): outside FAILED it meets no fault, and it is refused only where a
waiting command or the parameters are illegal. -/

namespace Sys2Proof.Machine

/-- No fault, and a refusal only if not `legal`. -/
inductive Answers (legal : Prop) : Host.Outcome State Fault Refusal → Prop
  | next (t : State) : Answers legal (.next t)
  | refused (r : Refusal) (illegal : ¬ legal) : Answers legal (.refused r)

namespace Answers

variable {p q : Prop} {o : Host.Outcome State Fault Refusal}

theorem mono (h : Answers p o) (himp : q → p) : Answers q o := by
  cases h with
  | next t => exact .next t
  | refused r illegal => exact .refused r (mt himp illegal)

theorem goes_on (h : Answers p o) (legal : p) : ∃ t, o = .next t := by
  cases h with
  | next t => exact ⟨t, rfl⟩
  | refused r illegal => exact absurd legal illegal

theorem ne_fault (h : Answers p o) (f : Fault) : o ≠ .fault f := by
  cases h <;> nofun

end Answers

/-! ## The commands -/

theorem runTransferring_answers (p : Prop) (a : Agent) (body : State → State) (s : State) :
    Answers p (runTransferring a body s) := by
  rcases runTransferring_cases a body s with ⟨-, heq⟩ | ⟨-, heq⟩ <;> exact heq ▸ .next _

theorem runPlain_answers (p : Prop) (a : Agent) (body : State → State) (s : State) :
    Answers p (runPlain a body s) := by
  rcases runPlain_cases a body s with ⟨-, heq⟩ | ⟨-, heq⟩ <;> exact heq ▸ .next _

/-- Only a GAMMA that no encoding carries is refused (40_gamma_lut.md R122). -/
theorem exec_answers (i : Instr) (s : State) : Answers (i.wf = true) (exec i s) := by
  cases i with
  | color | pix | bright | showStrip | clear | frame => exact runTransferring_answers ..
  | smooth | status => exact runPlain_answers ..
  | gamma g =>
    cases finite : f32Finite g with
    | true => exact exec_gamma_of_finite finite s ▸ runTransferring_answers ..
    | false =>
      rw [exec, execGamma, finite, cond_false]
      exact .refused _ (by simp [Instr.wf, finite])

/-! ## The agents -/

theorem jobStep_answers (fromPort : Bool) (a : Agent) (j : Job) (s : State) :
    Answers (jobCarries fromPort j = true) (jobStep a j s) := by
  cases j with
  | waitLock i => exact (exec_answers i _).mono wf_of_jobCarries
  | idle | waitBus | transfer => exact .next _

/-- What a line decodes to is well-formed (30_encoding.md R90), so no line is refused. -/
theorem runLine_answers (p : Prop) (k : ℕ) (q : Params) (c : Channel) (s : State) :
    Answers p (runLine k (lineFate q c) s) := by
  cases fate : lineFate q c with
  | command i => exact (exec_answers i _).mono fun _ => decodeLine_wf (lineFate_command fate).1
  | tail | overlong | dropped => exact .next _

theorem idleChannelStep_answers (p : Prop) (k : ℕ) (c : Channel) (s : State) : Answers p (idleChannelStep k c s) := by
  unfold idleChannelStep
  cases canTakeLine s c with
  | true => exact runLine_answers ..
  | false => cases canRemove c <;> exact .next _

theorem chStep_answers (k : ℕ) (s : State) : Answers (CommandInv s) (chStep k s) := by
  unfold chStep
  cases channel : findChannel k s with
  | none => exact .next s
  | some c =>
    dsimp only
    split
    · exact idleChannelStep_answers ..
    · exact (jobStep_answers false ..).mono fun h => h.channel_jobs c (findChannel_mem channel)

theorem fsStep_answers (px : List Pixel) (s : State) : Answers (CommandInv s) (fsStep px s) := by
  unfold fsStep
  cases s.fs.state with
  | req =>
    dsimp only
    cases s.mode == .run with
    | true => exact (exec_answers (.frame px) _).mono fun _ => rfl
    | false => exact .next s
  | waitBus => exact (jobStep_answers true ..).mono CommandInv.frame_job
  | sleep =>
    dsimp only
    cases s.mode == .run && s.fs.timer == 0 <;> exact .next _
  | halt => exact .next s

theorem boot_answers (r : DevOpen) (s : State) : Answers (CommandInv s) (boot r s) := by
  rcases boot_cases r s with ⟨-, -, heq⟩ | ⟨-, -, heq⟩ | ⟨illegal, heq⟩ <;> rw [heq]
  · exact .next _
  · exact .next _
  · exact .refused _ fun h => by simp [h.params_legal] at illegal

/-! ## The step -/

theorem act_answers (a : Action) (s : State) : Answers (CommandInv s) (act a s) := by
  cases a with
  | ch k => exact chStep_answers k s
  | fs px => exact fsStep_answers px s
  | sys | bus | chStart | fsStart | openCh | closeCh | recv | shutdownReq | reset | tick => exact .next _

theorem stepAction_answers (a : Action) {s : State} (mode : s.mode ≠ .failed) :
    Answers (CommandInv s) (stepAction a s) := by
  unfold stepAction
  cases hmode : s.mode with
  | init =>
    cases a with
    | sys r => exact boot_answers r s
    | bus | ch | chStart | fs | fsStart | openCh | closeCh | recv | shutdownReq | reset | tick => exact .next _
  | run | shutdown => exact act_answers a s
  | failed => exact absurd hmode mode
  | stopped => cases a <;> exact .next _

theorem step_answers {s : State} (mode : s.mode ≠ .failed) : Answers (CommandInv s) (step s) :=
  (stepAction_answers _ (by rwa [consume_mode])).mono CommandInv.consume

/-! ## The two ends (60_exceptions.md R283, 70_reset_and_hazards.md R325) -/

theorem actFailed_of_ne_reset {a : Action} (ha : a ≠ .reset) (s : State) : actFailed a s = .fault .deviceOpenFailed := by
  unfold actFailed
  split
  · exact absurd rfl ha
  · rfl

theorem actStopped_of_ne_reset {a : Action} (ha : a ≠ .reset) (s : State) : actStopped a s = .next s := by
  unfold actStopped
  split
  · exact absurd rfl ha
  · rfl

/-- Settles O50: each end by its definition, and every other mode answers without a fault (`step_answers`). -/
theorem failedAndStoppedAreTerminal : Obligations.FailedAndStoppedAreTerminal := by
  refine ⟨fun s mode ha => ?_, fun s mode ha => ?_, fun s f hfault => ⟨?_, fun hreset => ?_⟩⟩
  · rw [step, stepAction, consume_mode, mode]
    exact actFailed_of_ne_reset ha _
  · rw [step, stepAction, consume_mode, mode]
    exact actStopped_of_ne_reset ha _
  · by_contra mode
    exact (step_answers mode).ne_fault f hfault
  · rw [step_reset hreset] at hfault
    cases hfault

end Sys2Proof.Machine
end

section
/-! SUPPORT. Every step keeps `CommandInv`, transition by transition (`Transition.commandInv`): a line starts what it decodes to, FS
a FRAME, and a command that has run waits for LOCK no more. -/

namespace Sys2Proof.Machine

namespace CommandInv

variable {s : State} (h : CommandInv s)
include h

/-- Writes to neither the parameters nor a command. -/
theorem of_writes {t : State} (hparams : t.params = s.params) (hchannels : t.channels = s.channels)
    (hfs : t.fs.job = s.fs.job) : CommandInv t :=
  ⟨hparams ▸ h.params_legal, hchannels ▸ h.channel_jobs, hfs ▸ h.frame_job⟩

theorem updateChannel (k : ℕ) {f : Channel → Channel}
    (hf : ∀ c, jobCarries false c.job = true → jobCarries false (f c).job = true) :
    CommandInv (updateChannel k f s) := by
  refine ⟨h.params_legal, fun d hd => ?_, h.frame_job⟩
  rw [updateChannel_eq, State.withChannels_channels, List.mem_map] at hd
  obtain ⟨c, hc, rfl⟩ := hd
  split_ifs
  · exact hf c (h.channel_jobs c hc)
  · exact h.channel_jobs c hc

/-- The command of agent a comes to stand at a j that a can carry. -/
theorem setJob {a : Agent} {j : Job} (hj : jobCarries (a == .fs) j = true) : CommandInv (setJob a j s) := by
  cases a with
  | ch k => exact h.updateChannel k fun _ _ => hj
  | fs => exact ⟨h.params_legal, h.channel_jobs, hj⟩
  | bus | sys => exact h.of_writes rfl rfl rfl

theorem completeJob (a : Agent) : CommandInv (completeJob a s) := by
  cases a with
  | ch k => exact h.updateChannel k fun _ _ => rfl
  | fs => exact ⟨h.params_legal, h.channel_jobs, by rw [Machine.completeJob, State.withFs_fs, fsAfterFrame_job]; rfl⟩
  | bus | sys => exact h.of_writes rfl rfl rfl

theorem requestTransfer (a : Agent) (bytes : List Byte) : CommandInv (requestTransfer a bytes s) :=
  setJob (s := busTransfer a bytes s) (h.of_writes rfl rfl rfl) rfl

theorem endSection (a : Agent) : CommandInv (endSection a s) := by
  unfold Machine.endSection
  cases s.params.busOrder with
  | inLock => exact requestTransfer (by exact h.of_writes rfl rfl rfl) ..
  | snapshot => exact h.setJob rfl

theorem acquireBusLock (a : Agent) (bytes : List Byte) : CommandInv (acquireBusLock a bytes s) := by
  rcases acquireBusLock_cases a bytes s with ⟨-, -, heq⟩ | heq <;> rw [heq]
  · exact requestTransfer (by exact h.of_writes rfl rfl rfl) ..
  · exact h

theorem finishTransfer (a : Agent) : CommandInv (finishTransfer a s) := by
  rcases finishTransfer_cases a s with ⟨-, heq⟩ | heq <;> rw [heq]
  · rcases releaseLock_cases s with ⟨-, heq⟩ | ⟨-, heq⟩ <;> rw [heq] <;>
      exact completeJob (by exact h.of_writes rfl rfl rfl) a
  · exact h

/-- A command that runs goes on to its transfer or is complete, if it does not wait as before. -/
theorem ran {i : Instr} {a : Agent} {t : State} (result : ExecResult i (s.withActor a) t) : CommandInv t := by
  cases result with
  | waits => exact h.of_writes rfl rfl rfl
  | endsSection c es begins => exact endSection (by exact h.of_writes rfl rfl rfl) _
  | completes c es free => exact completeJob (by exact h.of_writes rfl rfl rfl) _

/-- A line's command is well-formed and no FRAME (30_encoding.md R90, R98); FS starts a FRAME. -/
theorem started {a : Agent} {i : Instr} {t : State} (starts : CommandStarts s a i t) : CommandInv t := by
  cases starts with
  | line channel idle ready fate =>
    obtain ⟨decodes, -⟩ := lineFate_command fate
    refine setJob (a := .ch _) (h.updateChannel _ (f := removeLine) fun _ hc => hc) ?_
    simp [jobCarries, decodeLine_wf decodes, decodeLine_ne_frame decodes]
  | frame px mode request => exact h.setJob rfl

theorem opened (k : ℕ) : CommandInv (s.withChannels (insertChannel (newChannel k) s.channels)) := by
  refine ⟨h.params_legal, fun d hd => ?_, h.frame_job⟩
  rcases mem_insertChannel.mp hd with rfl | hd
  · rfl
  · exact h.channel_jobs d hd

theorem removed (k : ℕ) : CommandInv (removeChannel k s) :=
  ⟨h.params_legal, fun c hc => h.channel_jobs c (List.mem_of_mem_filter hc), h.frame_job⟩

theorem shutdownRequest (mode : s.mode = .run) : CommandInv (shutdownRequest s) := by
  rw [shutdownRequest_of_run mode]
  refine ⟨h.params_legal, fun d hd => ?_, ?_⟩
  · obtain ⟨c, hc, rfl⟩ := List.mem_map.mp hd
    rw [(discardLines_keepsProgress c).2.2]
    exact h.channel_jobs c hc
  · rw [State.withChannels_fs, State.withFs_fs, (haltFs_progress s.fs).2]
    exact h.frame_job

end CommandInv

theorem Transition.commandInv {s t : State} (h : CommandInv s) (step : Transition s t) : CommandInv t := by
  cases step with
  | unchanged => exact h
  | reset => exact (resetWith_commandInv h.params_legal).of_writes rfl rfl rfl
  | booted | openFailed | finalClear | latchEnded | elapsed | woke => exact h.of_writes rfl rfl rfl
  | shutdown mode => exact h.shutdownRequest mode
  | stopped => exact ⟨h.params_legal, nofun, h.frame_job⟩
  | transferred res bus =>
    obtain ⟨es, heq⟩ := xferStep_eq res s
    exact heq ▸ h.of_writes rfl rfl rfl
  | opened k mode absent => exact h.opened k
  | buffered k f es keeps =>
    have updated := h.updateChannel k (f := f) fun c hc => by rwa [(keeps c).2.2]
    exact updated.of_writes rfl rfl rfl
  | removed k c channel idle => exact h.removed k
  | started a i t starts => exact h.started starts
  | ran a i s' t starts runs => exact (h.started starts).ran runs
  | retried a i t not_sys job runs => exact h.ran runs
  | awaitedBus a bytes not_sys job => exact h.acquireBusLock a bytes
  | awaitedClient a not_sys job => exact h.finishTransfer a

/-- Settles O52: a step outside FAILED answers (`step_answers`), and each transition keeps the invariant
(`Transition.commandInv`). -/
theorem stepsGoOnAndKeepCommandInv : Obligations.StepsGoOnAndKeepCommandInv := fun _ h =>
  ⟨fun mode => (step_answers mode).goes_on h, fun _ hstep => (step_transition hstep).commandInv h.consume⟩

end Sys2Proof.Machine
end

section
/-! SUPPORT. CH[k] is left alone by every other agent (60_exceptions.md R294): first by what another agent does with a command in
progress, then by each agent, the host and elapsed time, and so by every action but those on CH[k] (`SparesChannel`). -/

namespace Sys2Proof.Machine

/-! ## Another agent's command -/

section
variable {k : ℕ} {a : Agent} (other : a ≠ .ch k)
include other

theorem findChannel_setJob_of_ne (j : Job) (s : State) : findChannel k (setJob a j s) = findChannel k s := by
  cases a with
  | ch l => exact findChannel_updateChannel_ne (fun hkl => other (congrArg Agent.ch hkl.symm)) _ (by exact fun _ => rfl) s
  | fs | bus | sys => rfl

theorem findChannel_completeJob_of_ne (s : State) : findChannel k (completeJob a s) = findChannel k s := by
  cases a with
  | ch l => exact findChannel_updateChannel_ne (fun hkl => other (congrArg Agent.ch hkl.symm)) _ (by exact fun _ => rfl) s
  | fs | bus | sys => rfl

theorem findChannel_endSection_of_ne (s : State) : findChannel k (endSection a s) = findChannel k s := by
  cases order : s.params.busOrder with
  | inLock =>
    rw [endSection_inLock order]
    exact findChannel_setJob_of_ne other ..
  | snapshot =>
    rw [endSection_snapshot order]
    exact findChannel_setJob_of_ne other ..

theorem findChannel_acquireBusLock_of_ne (bytes : List Byte) (s : State) :
    findChannel k (acquireBusLock a bytes s) = findChannel k s := by
  rcases acquireBusLock_cases a bytes s with ⟨-, -, heq⟩ | heq <;> rw [heq]
  exact findChannel_setJob_of_ne other ..

theorem findChannel_finishTransfer_of_ne (s : State) : findChannel k (finishTransfer a s) = findChannel k s := by
  rcases finishTransfer_cases a s with ⟨-, heq⟩ | heq <;> rw [heq]
  rw [findChannel_completeJob_of_ne other, findChannel_congr (releaseLock_channels s)]

/-- exec runs a command for its actor or for FS. -/
theorem runnerOf_ne_ch (i : Instr) (s : State) : runnerOf i (s.withActor a) ≠ .ch k := by
  unfold runnerOf
  cases isFrame i with
  | true => nofun
  | false => exact other

theorem ExecResult.findChannel_of_ne {i : Instr} {s t : State} (result : ExecResult i (s.withActor a) t) :
    findChannel k t = findChannel k s := by
  have runner := runnerOf_ne_ch other i s
  cases result with
  | waits => rfl
  | endsSection c es begins => exact findChannel_endSection_of_ne runner _
  | completes c es free => exact findChannel_completeJob_of_ne runner _

theorem findChannel_jobStep_of_ne {j : Job} {s t : State} (h : jobStep a j s = .next t) :
    findChannel k t = findChannel k s := by
  cases j with
  | idle => cases h; rfl
  | waitLock i => exact (exec_result h).findChannel_of_ne other
  | waitBus bytes => cases h; exact findChannel_acquireBusLock_of_ne other bytes s
  | transfer => cases h; exact findChannel_finishTransfer_of_ne other s

end

/-! ## Another channel, and the host's actions on it -/

section
variable {j k : ℕ} (other : j ≠ k)
include other

theorem findChannel_updateChannel_of_keeps {f : Channel → Channel} (keeps : KeepsProgress f) (s : State) :
    findChannel k (updateChannel j f s) = findChannel k s :=
  findChannel_updateChannel_ne other.symm f (fun c => (keeps c).1) s

theorem findChannel_takeLine_of_ne (fate : LineFate) (s : State) : findChannel k (takeLine j fate s) = findChannel k s := by
  have removed := findChannel_updateChannel_of_keeps other removeLine_keepsProgress s
  cases fate with
  | tail | overlong | dropped => exact removed
  | command i => exact (findChannel_setJob_of_ne (a := .ch j) (by simpa using other) ..).trans removed

theorem findChannel_runLine_of_ne {fate : LineFate} {s t : State} (h : runLine j fate s = .next t) :
    findChannel k t = findChannel k s := by
  have taken := findChannel_takeLine_of_ne other fate s
  cases fate with
  | command i => exact ((exec_result h).findChannel_of_ne (a := .ch j) (by simpa using other)).trans taken
  | tail | overlong | dropped => cases h; exact taken

theorem findChannel_removeChannel_of_ne (s : State) : findChannel k (removeChannel j s) = findChannel k s := by
  rw [findChannel, removeChannel_eq, State.withChannels_channels, List.find?_filter, findChannel]
  congr 1
  funext c
  by_cases hc : c.id = k <;> simp [hc, other.symm]

theorem findChannel_idleChannelStep_of_ne {c : Channel} {s t : State} (h : idleChannelStep j c s = .next t) :
    findChannel k t = findChannel k s := by
  unfold idleChannelStep at h
  cases ready : canTakeLine s c with
  | true =>
    rw [ready, cond_true] at h
    exact findChannel_runLine_of_ne other h
  | false =>
    cases hremove : canRemove c <;> simp only [ready, hremove, cond_true, cond_false] at h <;> cases h
    · rfl
    · exact findChannel_removeChannel_of_ne other s

theorem findChannel_chStep_of_ne {s t : State} (h : chStep j s = .next t) : findChannel k t = findChannel k s := by
  unfold chStep at h
  cases channel : findChannel j s with
  | none => simp only [channel] at h; cases h; rfl
  | some c =>
    simp only [channel] at h
    split at h
    · exact findChannel_idleChannelStep_of_ne other h
    · exact findChannel_jobStep_of_ne (a := .ch j) (by simpa using other) h

theorem findChannel_chStart_of_ne (s : State) : findChannel k (chStart j s) = findChannel k s := by
  unfold chStart
  cases findChannel j s with
  | none => rfl
  | some c =>
    dsimp only
    cases c.job == .idle && canTakeLine s c with
    | true => exact findChannel_takeLine_of_ne other ..
    | false => rfl

theorem findChannel_openChannel_of_ne (s : State) : findChannel k (openChannel j s) = findChannel k s := by
  rcases openChannel_cases j s with ⟨-, -, -, heq⟩ | heq <;> rw [heq]
  exact find?_insertChannel_of_neg (by simpa [newChannel] using other) s.channels

theorem findChannel_closeChannel_of_ne (s : State) : findChannel k (closeChannel j s) = findChannel k s :=
  findChannel_updateChannel_of_keeps other (f := fun c => { c with openState := .closing }) (fun _ => ⟨rfl, rfl, rfl⟩) s

theorem findChannel_receive_of_ne (bytes : List Byte) (s : State) : findChannel k (receive j bytes s) = findChannel k s := by
  rcases receive_cases j bytes s with ⟨_, -, -, -, heq⟩ | ⟨_, -, -, -, heq⟩ | heq <;> rw [heq]
  · exact findChannel_updateChannel_of_keeps other (f := fun c => { c with acc := [], discard := true })
      (fun _ => ⟨rfl, rfl, rfl⟩) s
  · exact findChannel_updateChannel_of_keeps other
      ((settleLines_keepsProgress s.mode).comp (appendBytes_keepsProgress bytes)) s

end

/-! ## FS, BUS and SYS -/

theorem findChannel_fsStep (k : ℕ) {px : List Pixel} {s t : State} (h : fsStep px s = .next t) :
    findChannel k t = findChannel k s := by
  unfold fsStep at h
  cases hfs : s.fs.state with
  | req =>
    cases hrun : s.mode == .run <;> simp only [hfs, hrun, cond_true, cond_false] at h
    · cases h; rfl
    · exact (exec_result h).findChannel_of_ne (a := .fs) nofun
  | waitBus =>
    simp only [hfs] at h
    exact findChannel_jobStep_of_ne (a := .fs) nofun h
  | sleep =>
    cases hwake : s.mode == .run && s.fs.timer == 0 <;> simp only [hfs, hwake, cond_true, cond_false] at h <;> cases h <;>
      rfl
  | halt => simp only [hfs] at h; cases h; rfl

theorem fsStart_channels (px : List Pixel) (s : State) : (fsStart px s).channels = s.channels := by
  unfold fsStart
  cases s.fs.state with
  | req => cases s.mode == .run <;> rfl
  | waitBus | sleep | halt => rfl

theorem busStep_channels (res : XferResult) (s : State) : (busStep res s).channels = s.channels := by
  rcases busStep_cases res s with ⟨-, -, heq⟩ | ⟨-, -, heq⟩ | heq <;> rw [heq]
  · obtain ⟨es, hxfer⟩ := xferStep_eq res s
    rw [hxfer]
    rfl
  · rfl

/-- SYS writes the channels when it stops, and only then (70_reset_and_hazards.md R324). -/
theorem sysStep_channels {s : State} (no_stop : s.mode ≠ .shutdown ∨ s.sysJob ≠ .transfer ∨ s.bus.client = some .sys) :
    (sysStep s).channels = s.channels := by
  unfold sysStep
  cases mode : s.mode with
  | shutdown =>
    rcases shutdownStep_cases s with ⟨-, -, heq⟩ | ⟨job, released, heq⟩ | heq <;> simp only [heq]
    · rfl
    · simp [mode, job, released] at no_stop
  | init | run | failed | stopped => rfl

theorem boot_channels {r : DevOpen} {s t : State} (h : boot r s = .next t) : t.channels = s.channels := by
  rcases boot_cases r s with ⟨-, -, heq⟩ | ⟨-, -, heq⟩ | ⟨-, heq⟩ <;> cases heq.symm.trans h <;> rfl

/-! ## The step -/

/-- Action a in s is no step of CH[k] and no host action on it, and neither SYS's stop, the shutdown request nor the reset input,
which concern every channel. -/
def SparesChannel (k : ℕ) (s : State) : Action → Prop
  | .ch j | .chStart j | .openCh j | .closeCh j | .recv j _ => j ≠ k
  | .fs _ | .fsStart _ | .bus _ | .tick _ => True
  | .sys _ => s.mode ≠ .shutdown ∨ s.sysJob ≠ .transfer ∨ s.bus.client = some .sys
  | .shutdownReq | .reset => False

theorem findChannel_act_of_spares {k : ℕ} {a : Action} {s t : State} (spares : SparesChannel k s a)
    (h : act a s = .next t) : findChannel k t = findChannel k s := by
  cases a with
  | sys r => cases h; exact findChannel_congr (sysStep_channels spares) k
  | bus res => cases h; exact findChannel_congr (busStep_channels res s) k
  | ch j => exact findChannel_chStep_of_ne spares h
  | chStart j => cases h; exact findChannel_chStart_of_ne spares s
  | fs px => exact findChannel_fsStep k h
  | fsStart px => cases h; exact findChannel_congr (fsStart_channels px s) k
  | openCh j => cases h; exact findChannel_openChannel_of_ne spares s
  | closeCh j => cases h; exact findChannel_closeChannel_of_ne spares s
  | recv j bytes => cases h; exact findChannel_receive_of_ne spares bytes s
  | shutdownReq | reset => exact absurd spares not_false
  | tick d => cases h; rfl

theorem findChannel_stepAction_of_spares {k : ℕ} {a : Action} {s t : State} (spares : SparesChannel k s a)
    (h : stepAction a s = .next t) : findChannel k t = findChannel k s := by
  by_cases active : s.mode = .run ∨ s.mode = .shutdown
  · rw [stepAction_of_active active] at h
    exact findChannel_act_of_spares spares h
  · have no_reset : a ≠ .reset := by rintro rfl; exact spares
    rcases stepAction_of_not_active active h no_reset with rfl | ⟨r, booted⟩
    · rfl
    · exact findChannel_congr (boot_channels booted) k

/-- Settles O43, action by action (`findChannel_stepAction_of_spares`). -/
theorem channelsAreIsolated : Obligations.ChannelsAreIsolated := by
  intro s t k h hspares
  have spares : SparesChannel k (consume s) (nextAction s) := by
    rw [SparesChannel.eq_def, consume_mode, consume_sysJob, consume_bus]
    exact hspares
  rw [← findChannel_consume k s]
  exact findChannel_stepAction_of_spares spares h

end Sys2Proof.Machine
end

section
/-! SUPPORT. SYS (70_reset_and_hazards.md): the boot in INIT (R321), the shutdown request (R324), and the whole shutdown of a
quiet block (R324, R325). The shutdown is cut where the bus takes over: the request and the final clear run from RUN
(`run_finalClear`), and the transfer of the zeros, its latch and the stop are one run of any block in SHUTDOWN whose final
transfer is requested (`run_finalTransfer`). -/

namespace Sys2Proof.Machine

/-! ## The boot (70_reset_and_hazards.md R321) -/

theorem boot_ok {s : State} (legal : paramsLegal s.params = true) :
    boot .ok s = .next (((bootColor s).withDevice (some (openedDevice s.params))).withMode .run) := by
  rw [boot.eq_def, legal, cond_true]

theorem boot_fail {s : State} (legal : paramsLegal s.params = true) : boot .fail s = .next (failOpen (bootColor s)) := by
  rw [boot.eq_def, legal, cond_true]

theorem step_of_init {s : State} (mode : s.mode = .init) : step s = actInit (nextAction s) (consume s) := by
  rw [step, stepAction, consume_mode, mode]

theorem actInit_of_not_sys {a : Action} (not_sys : ∀ r, a ≠ .sys r) (not_reset : a ≠ .reset) (s : State) :
    actInit a s = .next s := by
  unfold actInit
  split
  next r => exact absurd rfl (not_sys r)
  next => exact absurd rfl not_reset
  next => rfl

/-- Settles O48: SYS's action in INIT is the boot (`boot_ok`, `boot_fail`), and only SYS and the reset input act there. -/
theorem bootSequence : Obligations.BootSequence := by
  intro s mode legal booted
  have step_sys {r : DevOpen} (hnext : nextAction s = .sys r) : step s = boot r (consume s) := by
    rw [step_of_init mode, hnext, actInit]
  have legal' : paramsLegal (consume s).params = true := by rwa [consume_params]
  have hboot : bootColor (consume s) = booted := by
    rw [bootColor, onColor, consume_params, consume_color]
    rfl
  have hdevice : openedDevice (consume s).params = openedDevice s.params := by rw [consume_params]
  refine ⟨fun hok => ?_, fun hfail => ?_, fun not_sys not_reset => ?_⟩
  · rw [step_sys hok, boot_ok legal', hboot, hdevice]
    rfl
  · rw [step_sys hfail, boot_fail legal', hboot, ← consume_evlog s]
    rfl
  · rw [step_of_init mode, actInit_of_not_sys not_sys not_reset]

/-! ## The shutdown request (70_reset_and_hazards.md R324) -/

theorem haltFs_eq (f : FrameSeq) : haltFs f = if f.state = .waitBus then f else { f with state := .halt } := by
  unfold haltFs
  cases hf : f.state <;> simp

theorem discardLines_of_no_line {c : Channel} (h : hasLF c.acc = false) : discardLines c = c := by
  rw [discardLines, h, cond_false]

theorem shutdownRequest_of_ne_run {s : State} (mode : s.mode ≠ .run) : shutdownRequest s = s := by
  rw [shutdownRequest, beq_eq_false_iff_ne.mpr mode, cond_false]

theorem step_shutdownReq_of_active {s : State} (mode : s.mode = .run ∨ s.mode = .shutdown)
    (hnext : nextAction s = .shutdownReq) : step s = .next (shutdownRequest (consume s)) := by
  rw [step_of_active mode, hnext, act]

/-- Settles O51: in RUN the request halts FS (`haltFs_eq`) and discards each channel's lines (`discardLines_of_hasLF`); three
other modes ignore it. -/
theorem shutdownRequest_spec : Obligations.ShutdownRequest := by
  intro s hnext
  refine ⟨fun mode => ⟨s.channels.map discardLines, ?_, List.length_map .., fun n c d hc hd => ?_⟩, ?_⟩
  · rw [step_shutdownReq_of_active (.inl mode) hnext, shutdownRequest_of_run ((consume_mode s).trans mode), haltFs_eq,
      consume_fs, consume_channels]
    rfl
  · obtain rfl : discardLines c = d := by simpa [hc] using hd
    refine ⟨discardLines_of_no_line, fun complete => ?_⟩
    obtain ⟨lines, rest, heq, hrest, hdiscard⟩ := discardLines_of_hasLF complete
    rw [hdiscard]
    exact ⟨lines, heq, hrest, rfl⟩
  · rintro (mode | mode | mode)
    · rw [step_of_init mode, hnext, actInit_of_not_sys (fun _ => Action.noConfusion) Action.noConfusion]
    · rw [step_shutdownReq_of_active (.inr mode) hnext, shutdownRequest_of_ne_run (by simp [mode])]
    · exact failedAndStoppedAreTerminal.2.1 s mode (by simp [hnext])

/-! ## The request and the final clear of a quiet block (70_reset_and_hazards.md R324) -/

theorem quiescent_of_allQuiet {s : State} (quiet : AllQuiet s) : quiescent s = true := by
  obtain ⟨hidle, -, -⟩ := quiet.bus
  simp only [quiescent, Bool.and_eq_true, List.all_eq_true, channelQuiet, beq_iff_eq, lockFree_iff, busIdle_iff]
  refine ⟨⟨⟨fun c hc => ?_, quiet.fs.1⟩, quiet.lock⟩, hidle⟩
  obtain ⟨not_busy, no_job⟩ := quiet.channels c hc
  exact ⟨by rw [not_busy]; rfl, no_job⟩

/-- s after the shutdown request with no FRAME in progress, and the environment's next choices `acts`. -/
def shutdownBegun (s : State) (acts : List Action) : State :=
  (((s.withMode .shutdown).withFs { s.fs with state := .halt }).withChannels (s.channels.map discardLines)).withScript
    acts s.drawn

/-- The request leaves a quiet block quiet: it discards lines only (`discardLines_keepsProgress`). -/
theorem AllQuiet.shutdownBegun {s : State} (quiet : AllQuiet s) (acts : List Action) :
    AllQuiet (shutdownBegun s acts) := by
  refine ⟨fun d hd => ?_, ⟨quiet.fs.1, FsState.noConfusion⟩, quiet.sys, quiet.lock, quiet.bus⟩
  obtain ⟨c, hc, rfl⟩ := List.mem_map.mp hd
  obtain ⟨-, hbusy, hjob⟩ := discardLines_keepsProgress c
  rw [hbusy, hjob]
  exact quiet.channels c hc

theorem step_begins_shutdown {s : State} (mode : s.mode = .run) (no_frame : s.fs.state ≠ .waitBus) {acts : List Action}
    (script : s.script = .shutdownReq :: acts) : step s = .next (shutdownBegun s acts) := by
  rw [step_script_active mode script, act, shutdownRequest_of_run (by exact mode), haltFs_eq, State.withScript_fs,
    if_neg no_frame]
  rfl

/-- SYS takes LOCK, clears, and requests the transfer of the zeros. -/
theorem finalClear_eq (s : State) :
    finalClear s = (((s.withLock (.held .sys)).withColor (clearColor s.params.n s.color)).withBus
      { s.bus with state := .xfer, frame := List.replicate (3 * s.params.n) 0#8, client := some .sys }).withSysJob
        .transfer := rfl

section
variable {u : State} (mode : u.mode = .shutdown)
include mode

theorem step_script_of_shutdown {a : Action} {acts : List Action} (script : u.script = a :: acts) :
    step u = act a (u.withScript acts u.drawn) := by
  rw [step_script script, stepAction_of_active (.inr (by exact mode))]

theorem step_makes_finalClear (quiet : AllQuiet u) {r : DevOpen} {acts : List Action}
    (script : u.script = .sys r :: acts) : step u = .next (finalClear (u.withScript acts u.drawn)) := by
  have hquiet : quiescent (u.withScript acts u.drawn) = true :=
    (quiescent_of_allQuiet quiet : quiescent u = true)
  rw [step_script_of_shutdown mode script, act, sysStep, State.withScript_mode, mode]
  simp only [shutdownStep, State.withScript_sysJob, quiet.sys, hquiet, cond_true]

end

theorem run_finalClear {s : State} (mode : s.mode = .run) (quiet : AllQuiet s) {r : DevOpen} {acts : List Action}
    (script : s.script = .shutdownReq :: .sys r :: acts) (m : ℕ) :
    Sys2Proof.core.run (m + 2) s = Sys2Proof.core.run m (finalClear (shutdownBegun s acts)) := by
  have hclear : step (shutdownBegun s (.sys r :: acts)) = .next (finalClear (shutdownBegun s acts)) :=
    step_makes_finalClear rfl (quiet.shutdownBegun _) rfl
  rw [run_succ (step_begins_shutdown mode quiet.fs.2 script), run_succ hclear]

/-! ## The final transfer, its latch and the stop (42_bus_writer.md R182, R185; 70_reset_and_hazards.md R324, R325) -/

/-- u once BUS has its answer `res` to the transfer; EVLOG is then `es`, as the answer has it (42_bus_writer.md R184). -/
def transferAnswered (u : State) (res : XferResult) (es : List Event) (acts : List Action) : State :=
  (((u.withBuslog (u.buslog ++ [{ bytes := u.bus.frame, result := res }])).withEvlog es).withBus
    { u.bus with state := .latch, latchLeft := u.params.tLatch }).withScript acts u.drawn

/-- Then d has elapsed, and BUS has ended the latch (R185). -/
def finalLatchEnded (u : State) (res : XferResult) (es : List Event) (d : ℕ) (acts : List Action) : State :=
  latchEnd (elapse d (transferAnswered u res es acts))

theorem finalLatchEnded_mode (u : State) (res : XferResult) (es : List Event) (d : ℕ) (acts : List Action) :
    (finalLatchEnded u res es d acts).mode = u.mode := by
  simp [finalLatchEnded, latchEnd, elapse, transferAnswered]

theorem finalLatchEnded_sysJob (u : State) (res : XferResult) (es : List Event) (d : ℕ) (acts : List Action) :
    (finalLatchEnded u res es d acts).sysJob = u.sysJob := by
  simp [finalLatchEnded, latchEnd, elapse, transferAnswered]

theorem finalLatchEnded_client (u : State) (res : XferResult) (es : List Event) (d : ℕ) (acts : List Action) :
    (finalLatchEnded u res es d acts).bus.client = none := by
  simp [finalLatchEnded, latchEnd]

section
variable {u : State} (mode : u.mode = .shutdown)
include mode

theorem step_answers_transfer (transfers : u.bus.state = .xfer) {res : XferResult}
    (legal : xferAnswerLegal u.params.n res = true) {acts : List Action} (script : u.script = .bus res :: acts) :
    ∃ es, step u = .next (transferAnswered u res es acts) := by
  obtain ⟨es, heq⟩ := xferStep_eq res (u.withScript acts u.drawn)
  refine ⟨es, ?_⟩
  rw [step_script_of_shutdown mode script, act, busStep_of_xfer (s := u.withScript acts u.drawn) transfers legal, heq]
  rfl

theorem step_stops (job : u.sysJob = .transfer) (released : u.bus.client ≠ some .sys) {r : DevOpen} {acts : List Action}
    (script : u.script = .sys r :: acts) : step u = .next (stopBlock (u.withScript acts u.drawn)) := by
  rw [step_script_of_shutdown mode script, act, sysStep, State.withScript_mode, mode]
  simp only [shutdownStep, State.withScript_sysJob, job, State.withScript_bus, beq_eq_false_iff_ne.mpr released, cond_false]

/-- A requested final transfer is answered and latched, and the block stops: four steps. -/
theorem run_finalTransfer (job : u.sysJob = .transfer) (transfers : u.bus.state = .xfer) {res : XferResult}
    (legal : xferAnswerLegal u.params.n res = true) {d : ℕ} (latched : u.params.tLatch ≤ d) {x : XferResult}
    {r : DevOpen} {rest : List Action} (script : u.script = .bus res :: .tick d :: .bus x :: .sys r :: rest) :
    ∃ es, Sys2Proof.core.run 4 u = .next (stopBlock (finalLatchEnded u res es d rest)) := by
  obtain ⟨es, hanswer⟩ := step_answers_transfer mode transfers legal script
  have helapse : step (transferAnswered u res es (.tick d :: .bus x :: .sys r :: rest)) =
      .next (elapse d (transferAnswered u res es (.bus x :: .sys r :: rest))) :=
    step_script_of_shutdown (u := transferAnswered u res es (.tick d :: .bus x :: .sys r :: rest)) mode rfl
  have hlatch : step (elapse d (transferAnswered u res es (.bus x :: .sys r :: rest))) =
      .next (finalLatchEnded u res es d (.sys r :: rest)) := by
    have hleft : (elapse d (transferAnswered u res es (.sys r :: rest))).bus.latchLeft = 0 := Nat.sub_eq_zero_of_le latched
    have hstep : step (elapse d (transferAnswered u res es (.bus x :: .sys r :: rest))) =
        .next (busStep x (elapse d (transferAnswered u res es (.sys r :: rest)))) :=
      step_script_of_shutdown (u := elapse d (transferAnswered u res es (.bus x :: .sys r :: rest))) mode rfl
    rw [hstep, busStep_of_latch rfl, if_pos hleft, finalLatchEnded]
  have hstop : step (finalLatchEnded u res es d (.sys r :: rest)) = .next (stopBlock (finalLatchEnded u res es d rest)) :=
    step_stops ((finalLatchEnded_mode ..).trans mode) ((finalLatchEnded_sysJob ..).trans job)
      (by simp [finalLatchEnded_client]) rfl
  exact ⟨es, (run_succ hanswer 3).trans ((run_succ helapse 2).trans ((run_succ hlatch 1).trans (run_succ hstop 0)))⟩

end

/-- Settles O59: the request and the final clear (`run_finalClear`), then the transfer of its zeros and the stop
(`run_finalTransfer`). -/
theorem shutdownRuns : Obligations.ShutdownRuns := by
  intro s d r r' res x rest mode quiet latched legal script
  obtain ⟨es, hrun⟩ := run_finalTransfer
    (u := finalClear (shutdownBegun s (.bus res :: .tick d :: .bus x :: .sys r' :: rest))) rfl rfl rfl legal latched rfl
  refine ⟨_, (run_finalClear mode quiet script 4).trans hrun, ?_⟩
  simp [stopBlock, finalLatchEnded, latchEnd, elapse, transferAnswered, finalClear_eq, shutdownBegun, clearColor, f32Zero]

end Sys2Proof.Machine
end
